-- ==== Sys2Proof/Word.lean ====
section
/-! DEFINITION. The words of the GOOSE TLV codec: bytes and the fixed-width wire fields (rules R9, R7). -/

namespace Sys2Proof

/-- An 8-bit byte; bit 7 is its most significant bit (R9). -/
abbrev Byte := BitVec 8

/-- A byte string of a length the data model fixes: a MAC address (R33) or a timestamp (R27, R29). -/
abbrev Octets (n : Nat) := Vector Byte n

end Sys2Proof
end

