-- ==== Sys2Proof/Config.lean ====
section
/-! DEFINITION. The configuration record `Cfg` (R7, D38): a static parameter of the block, never changed by a
transaction (R21). A constant the source does not number is a field; a number the source fixes stands below the
record as a named constant. -/

namespace Sys2Proof

/-- The configuration record of R7. Every field's default is the one R7, R75 and R78 tabulate. -/
structure Cfg where
  /-- `ETHERTYPE_VLAN`: the VLAN marker (R203). -/
  ethertypeVlan : BitVec 16 := 0x8100#16
  /-- `ETHERTYPE_GOOSE` (R204, D4). -/
  ethertypeGoose : BitVec 16 := 0x88B8#16
  /-- `PRP_SUFFIX`: the marker that ends a PRP trailer (R81, D5). -/
  prpSuffix : BitVec 16 := 0x88FB#16
  /-- `PRP_LAN_A` (R208, D5). -/
  prpLanA : BitVec 4 := 0xA#4
  /-- `PRP_LAN_B` (R208, D5). -/
  prpLanB : BitVec 4 := 0xB#4
  /-- `MAX_LEN_OCTETS`: the most octets a long-form length has (R72, D6). -/
  maxLenOctets : Nat := 4
  /-- The value tags `TAG_*` (R75, D2). -/
  tagArray : Byte := 0xA1#8
  tagStructure : Byte := 0xA2#8
  tagBoolean : Byte := 0x83#8
  tagBitString : Byte := 0x84#8
  tagInteger : Byte := 0x85#8
  tagUnsigned : Byte := 0x86#8
  tagFloat : Byte := 0x87#8
  tagOctetString : Byte := 0x89#8
  tagVisibleString : Byte := 0x8A#8
  tagMmsString : Byte := 0x90#8
  tagUtcTime : Byte := 0x91#8
  /-- The PDU tags `PTAG_*` (R78, D3). -/
  ptagPdu : Byte := 0x61#8
  ptagGocbRef : Byte := 0x80#8
  ptagTal : Byte := 0x81#8
  ptagDatSet : Byte := 0x82#8
  ptagGoId : Byte := 0x83#8
  ptagT : Byte := 0x84#8
  ptagStNum : Byte := 0x85#8
  ptagSqNum : Byte := 0x86#8
  ptagSimulation : Byte := 0x87#8
  ptagConfRev : Byte := 0x88#8
  ptagNdsCom : Byte := 0x89#8
  ptagNumDatSetEntries : Byte := 0x8A#8
  ptagAllData : Byte := 0xAB#8
  /-- `FLOAT32_PREFIX` and `FLOAT64_PREFIX` (R114, R115, D13). -/
  float32Prefix : Byte := 0x08#8
  float64Prefix : Byte := 0x0B#8
  /-- `BOOL_TRUE_BYTE` (R111, D14). -/
  boolTrueByte : Byte := 0x01#8
  deriving DecidableEq, Repr

/-- The defaults of R7. -/
def Cfg.default : Cfg := {}

/-- `GOOSE_LEN_ADJUST` (R7, R83): fixed by the source. -/
abbrev Cfg.gooseLenAdjust : Nat := 8
/-- `PRP_TRAILER_BYTES` (R7, R81): fixed by the source. -/
abbrev Cfg.prpTrailerBytes : Nat := 6
/-- `VLAN_TAG_BYTES` (R7, R80): fixed by the source. -/
abbrev Cfg.vlanTagBytes : Nat := 4
/-- `MAC_BYTES` (R7, R33): fixed by the source. -/
abbrev Cfg.macBytes : Nat := 6
/-- `SINT_MAX_BYTES` (R7, R105): fixed by the source. -/
abbrev Cfg.sintMaxBytes : Nat := 8
/-- `UINT_MAX_BYTES` (R7, R106): fixed by the source. -/
abbrev Cfg.uintMaxBytes : Nat := 5

/-- The value tags in the order R75 lists them. -/
def Cfg.valueTags (c : Cfg) : List Byte :=
  [c.tagArray, c.tagStructure, c.tagBoolean, c.tagBitString, c.tagInteger, c.tagUnsigned, c.tagFloat,
    c.tagOctetString, c.tagVisibleString, c.tagMmsString, c.tagUtcTime]

/-- The conditions of D38 under which the spec's laws are claimed, and two the spec's own rules need: a length count
fits the low seven bits of its first octet (R102), and the byte written for true reads as true (R104, R111). The last
two are the model's reading (log entry 4). -/
abbrev Cfg.Valid (c : Cfg) : Prop :=
  c.valueTags.Nodup ∧ c.ethertypeGoose ≠ c.ethertypeVlan ∧ c.prpLanA ≠ c.prpLanB ∧
    1 ≤ c.maxLenOctets ∧ c.maxLenOctets ≤ 127 ∧ c.boolTrueByte ≠ 0#8

end Sys2Proof
end

