-- ==== Sys2Proof/Syntax.lean ====
section
/-! DEFINITION. The data model (R27 to R38), the caller's buffer, and the instructions: one constructor of `Instr` for
each row of spec/opcode_table.json. -/

namespace Sys2Proof

/-! ### The value model (R27) -/

mutual
/-- A data element (R27): a closed type. The integer widths, the padding count and the 8 bytes of a timestamp are
in the types, so that every `Value` is in its domain. -/
inductive Value where
  | array (xs : Values)
  | struct (xs : Values)
  | boolean (b : Bool)
  | int8 (v : BitVec 8)
  | int16 (v : BitVec 16)
  | int32 (v : BitVec 32)
  | int64 (v : BitVec 64)
  | uint8 (v : BitVec 8)
  | uint16 (v : BitVec 16)
  | uint32 (v : BitVec 32)
  | float32 (w : BitVec 32)
  | float64 (w : BitVec 64)
  | visibleString (s : List Byte)
  | mmsString (s : List Byte)
  | bitString (padding : Fin 8) (bits : List Byte)
  | octetString (s : List Byte)
  | utcTime (u : Octets 8)
  deriving DecidableEq, Repr
/-- The finite ordered list of elements of an Array or a Structure (R27, R28). -/
inductive Values where
  | nil
  | cons (x : Value) (xs : Values)
  deriving DecidableEq, Repr
end

/-- The elements as a list. -/
def Values.toList : Values → List Value
  | .nil => []
  | .cons x xs => x :: xs.toList

/-- A list as the elements of a container. -/
def Values.ofList : List Value → Values
  | [] => .nil
  | x :: xs => .cons x (Values.ofList xs)

/-- Which container an element list belongs to: Array and Structure differ only by tag (R28). -/
inductive ContainerKind where
  | array
  | struct
  deriving DecidableEq, Repr

/-! ### Frame records (R33 to R38) -/

/-- R33. The VLAN id is 12 bits. -/
structure EthernetFrameHeader where
  dst : Octets 6
  src : Octets 6
  vlan : Option (BitVec 12)
  deriving DecidableEq, Repr

/-- R34. `length` is the on-wire value. -/
structure GooseHeader where
  appid : BitVec 16
  length : BitVec 16
  reserved1 : BitVec 16
  reserved2 : BitVec 16
  deriving DecidableEq, Repr

/-- R35: the twelve fields, in the wire order. -/
structure GoosePdu where
  gocbRef : List Byte
  timeAllowedToLive : BitVec 32
  datSet : List Byte
  goID : List Byte
  t : Octets 8
  stNum : BitVec 32
  sqNum : BitVec 32
  simulation : Bool
  confRev : BitVec 32
  ndsCom : Bool
  numDatSetEntries : BitVec 32
  allData : List Value
  deriving DecidableEq, Repr

/-- The LAN designator of a PRP trailer (R37). -/
inductive Lan where
  | A
  | B
  deriving DecidableEq, Repr

/-- R37. The marker is a constant and has no field. -/
structure PrpTrailer where
  seq : BitVec 16
  lan : Lan
  size : BitVec 12
  deriving DecidableEq, Repr

/-- R38. -/
structure GoosePacket where
  eth : EthernetFrameHeader
  goose : GooseHeader
  pdu : GoosePdu
  prp : Option PrpTrailer
  deriving DecidableEq, Repr

/-! ### The buffer (R50) -/

/-- The byte buffer of a transaction: `len` is `BUF_LEN`, the addresses are `0 .. len - 1`. `cells` lists the bytes that
differ from `Memory.fill`, addresses strictly rising (`Memory.wf`). -/
structure Memory where
  len : Nat
  cells : List Host.Cell
  deriving DecidableEq, Repr

/-! ### Positions and instructions -/

/-- The eleven fixed fields of the PDU (R78), identified by position. -/
inductive PduField where
  | gocbRef | timeAllowedToLive | datSet | goID | t | stNum | sqNum | simulation | confRev | ndsCom | numDatSetEntries
  deriving DecidableEq, Repr

/-- What a tag byte stands for depends on its position only (R84, R87). -/
inductive TagContext where
  | value
  | pdu
  | field (f : PduField)
  | allData
  deriving DecidableEq, Repr

/-- The element that follows a fixed field in the PDU (R78). -/
def PduField.next : PduField → TagContext
  | .gocbRef => .field .timeAllowedToLive
  | .timeAllowedToLive => .field .datSet
  | .datSet => .field .goID
  | .goID => .field .t
  | .t => .field .stNum
  | .stNum => .field .sqNum
  | .sqNum => .field .simulation
  | .simulation => .field .confRev
  | .confRev => .field .ndsCom
  | .ndsCom => .field .numDatSetEntries
  | .numDatSetEntries => .allData

/-- Where an instruction is read: the dispatch levels of R87, and the request port (R25). -/
inductive Position where
  /-- the word at s+12 (R203, R204) -/
  | ethertype
  /-- the word at s+16, after a VLAN tag (R204) -/
  | innerEthertype
  /-- the first length octet of an element (R72) -/
  | length
  /-- the tag byte of an element (R75, R78) -/
  | tag (ctx : TagContext)
  /-- the six bytes after the PDU (R81) -/
  | trailer
  /-- the request port: a request is no byte string (R25) -/
  | request
  deriving DecidableEq, Repr

/-- The instructions: one constructor for each row of spec/opcode_table.json, in the table's order. A scalar element
carries its content bytes, a container its content length, a PDU element also its tag byte (read, and checked only
for the PDU and AllData: R178). -/
inductive Instr where
  /-- BOOLEAN (R142) -/
  | boolean (content : List Byte)
  /-- BIT_STRING (R150) -/
  | bitString (content : List Byte)
  /-- INTEGER (R143) -/
  | integer (content : List Byte)
  /-- UNSIGNED (R144) -/
  | unsigned (content : List Byte)
  /-- FLOAT (R145) -/
  | float (content : List Byte)
  /-- OCTET_STRING (R146) -/
  | octetString (content : List Byte)
  /-- VISIBLE_STRING (R147) -/
  | visibleString (content : List Byte)
  /-- MMS_STRING (R148) -/
  | mmsString (content : List Byte)
  /-- UTC_TIME (R149) -/
  | utcTime (content : List Byte)
  /-- ARRAY (R151) -/
  | array (len : Nat)
  /-- STRUCTURE (R152) -/
  | struct (len : Nat)
  /-- UNKNOWN_TAG (R153) -/
  | unknownTag (tag : Byte) (content : List Byte)
  /-- PDU (R171) -/
  | pdu (tag : Byte) (len : Nat)
  /-- PDU_GOCBREF (R174) -/
  | pduGocbRef (tag : Byte) (content : List Byte)
  /-- PDU_TIME_ALLOWED_TO_LIVE (R175) -/
  | pduTimeAllowedToLive (tag : Byte) (content : List Byte)
  /-- PDU_DATSET (R174) -/
  | pduDatSet (tag : Byte) (content : List Byte)
  /-- PDU_GOID (R174) -/
  | pduGoId (tag : Byte) (content : List Byte)
  /-- PDU_T (R177) -/
  | pduT (tag : Byte) (content : List Byte)
  /-- PDU_STNUM (R175) -/
  | pduStNum (tag : Byte) (content : List Byte)
  /-- PDU_SQNUM (R175) -/
  | pduSqNum (tag : Byte) (content : List Byte)
  /-- PDU_SIMULATION (R176) -/
  | pduSimulation (tag : Byte) (content : List Byte)
  /-- PDU_CONFREV (R175) -/
  | pduConfRev (tag : Byte) (content : List Byte)
  /-- PDU_NDSCOM (R176) -/
  | pduNdsCom (tag : Byte) (content : List Byte)
  /-- PDU_NUM_DAT_SET_ENTRIES (R175) -/
  | pduNumDatSetEntries (tag : Byte) (content : List Byte)
  /-- PDU_ALLDATA (R179) -/
  | pduAllData (tag : Byte) (len : Nat)
  /-- LEN_SHORT (R101) -/
  | lenShort (len : BitVec 7)
  /-- LEN_LONG_1 (R101) -/
  | lenLong1 (len : BitVec 8)
  /-- LEN_LONG_2 (R101) -/
  | lenLong2 (len : BitVec 16)
  /-- LEN_LONG_3 (R101) -/
  | lenLong3 (len : BitVec 24)
  /-- LEN_LONG_4 (R101) -/
  | lenLong4 (len : BitVec 32)
  /-- LEN_MALFORMED_INDEFINITE (R73) -/
  | lenMalformedIndefinite
  /-- LEN_MALFORMED_TOO_LONG (R73), with its first length octet -/
  | lenMalformedTooLong (first : Byte)
  /-- ETH_VLAN_MARKER (R203): the TCI and the ethertype behind it -/
  | ethVlanMarker (tci : BitVec 16) (inner : BitVec 16)
  /-- ETH_GOOSE_ETHERTYPE (R204, R205): the GOOSE header behind it -/
  | ethGooseEthertype (header : GooseHeader)
  /-- ETH_OTHER_ETHERTYPE (R204) -/
  | ethOtherEthertype (word : BitVec 16)
  /-- PRP_TRAILER (R207, R208): sequence number, LAN nibble and frame size -/
  | prpTrailer (seq : BitVec 16) (lanId : BitVec 4) (size : BitVec 12)
  /-- ENCODE (R210): the packet, the buffer handed over (none: the one the block already holds) and the offset -/
  | encode (packet : GoosePacket) (hand : Option Memory) (start : Nat)
  /-- DECODE (R200): the buffer handed over and the offset -/
  | decode (hand : Option Memory) (start : Nat)
  deriving DecidableEq, Repr

end Sys2Proof
end

