-- ==== Sys2Proof/Machine/State.lean ====
section
/-! DEFINITION. The state of the block (10_state.md) as plain data, its stops, and reset (R39, R270). -/

namespace Sys2Proof.Machine

/-! ### Errors and responses -/

/-- The closed set of error reasons (R241). -/
inductive ErrorReason where
  | bufferTooShort
  | malformedLength
  | unsupportedWidth
  | oversizeUnsigned
  | unknownDataType
  | invalidBitStringPadding
  | pduTagMismatch
  | allDataTagMismatch
  | entryCountMismatch
  | malformedPrpLan
  | bufferTooSmall
  | lengthOverflow
  deriving DecidableEq, Repr

/-- The numeric codes of R241. They are never on the wire. -/
def ErrorReason.code : ErrorReason → Nat
  | .bufferTooShort => 1
  | .malformedLength => 2
  | .unsupportedWidth => 3
  | .oversizeUnsigned => 4
  | .unknownDataType => 5
  | .invalidBitStringPadding => 6
  | .pduTagMismatch => 7
  | .allDataTagMismatch => 8
  | .entryCountMismatch => 9
  | .malformedPrpLan => 10
  | .bufferTooSmall => 11
  | .lengthOverflow => 12

/-- The positioned error (R240): `pos` is an absolute offset into the buffer (R251). -/
structure Error where
  reason : ErrorReason
  pos : Nat
  deriving DecidableEq, Repr

/-- The response of a transaction (R26, R242, R243), and the results of the internal operations that R6 lets a model
expose, with the signatures R6 gives them. -/
inductive Response where
  /-- ENCODE: `Ok(bytes_written)` or `Err` (R243) -/
  | encode (r : Except Error Nat)
  /-- DECODE: `None`, `Some(Err)` or `Some(Ok)` (R242) -/
  | decode (r : Option (Except Error GoosePacket))
  /-- DECODE_TAG_LENGTH: tag, content length, first content byte (R101) -/
  | tagLength (r : Except Error (Byte × Nat × Nat))
  /-- DECODE_ELEMENT (R141) -/
  | element (r : Except Error (Nat × Value))
  /-- DECODE_SEQUENCE (R154) -/
  | sequence (r : Except Error (Nat × List Value))
  /-- DECODE_PDU (R171) -/
  | pdu (r : Except Error (Nat × GoosePdu))
  deriving DecidableEq, Repr

/-! ### Requests -/

/-- What a stepwise transaction decodes: a whole frame, or an internal operation exposed by R6. -/
inductive Entry where
  | frame
  | pdu
  | element
  | sequence (bound : Nat)
  | tagLength
  deriving DecidableEq, Repr

/-- A request of the requester (R25). `hand` is the buffer it hands over, `none` when it hands over again the buffer
the block already holds. `expose` opens an internal operation (R6), or a DECODE run one table row a step. -/
inductive Request where
  | encode (packet : GoosePacket) (hand : Option Memory) (start : Nat)
  | decode (hand : Option Memory) (start : Nat)
  | expose (entry : Entry) (hand : Option Memory) (start : Nat)
  deriving DecidableEq, Repr

/-! ### The working values of a transaction (R22, R39) -/

/-- What the datapath does next. -/
inductive Phase where
  /-- no transaction is in progress -/
  | idle
  /-- the cursor is at the word at s+12 -/
  | ethertype
  /-- the cursor is at the word at s+16 -/
  | innerEthertype
  /-- the cursor is at a tag byte: DECODE_TAG_LENGTH comes next -/
  | header (ctx : TagContext)
  /-- DECODE_TAG_LENGTH has run: the cursor is at the content, the tag is dispatched next -/
  | tag (ctx : TagContext)
  /-- the cursor is at a PRP trailer -/
  | trailer
  deriving DecidableEq, Repr

/-- An enclosing container: its kind, and the end bound and partly built list of the sequence it stands in. -/
structure Frame where
  kind : ContainerKind
  endBound : Option Nat
  items : List Value
  deriving DecidableEq, Repr

/-- An empty PDU record (R272). -/
def emptyPdu : GoosePdu :=
  ⟨[], 0#32, [], [], Vector.replicate 8 0#8, 0#32, 0#32, false, 0#32, false, 0#32, []⟩

/-- An empty Ethernet header record (R272). -/
def emptyEth : EthernetFrameHeader := ⟨Vector.replicate 6 0#8, Vector.replicate 6 0#8, none⟩

/-- An empty GOOSE header record (R272). -/
def emptyGoose : GooseHeader := ⟨0#16, 0#16, 0#16, 0#16⟩

/-- The working values of R22: the cursor, the end bound, the stack of enclosing containers and the partly built
lists and records, with the results of DECODE_TAG_LENGTH that its caller holds (R101). The defaults are the values of
R39's start of a transaction, and those the model gives them while no transaction runs (log entry 2). -/
structure Work where
  /-- what the transaction decodes -/
  entry : Entry := .frame
  /-- what comes next -/
  phase : Phase := .idle
  /-- the cursor (R23) -/
  pos : Nat := 0
  /-- position of the current element's tag byte: where its errors are positioned (R251) -/
  tagPos : Nat := 0
  /-- tag of the current element (R101) -/
  tag : Byte := 0#8
  /-- content length of the current element (R101) -/
  len : Nat := 0
  /-- end bound of the current sequence: none until a container or AllData is entered (R39) -/
  endBound : Option Nat := none
  /-- enclosing containers, innermost first (R39) -/
  stack : List Frame := []
  /-- the partly built list of the current sequence -/
  items : List Value := []
  /-- the partly built records -/
  eth : EthernetFrameHeader := emptyEth
  goose : GooseHeader := emptyGoose
  pdu : GoosePdu := emptyPdu
  /-- the PDU's declared end (R181) -/
  pduEnd : Nat := 0
  /-- position of the AllData tag (R180) -/
  allDataPos : Nat := 0
  deriving DecidableEq, Repr

/-- The working values while no transaction runs. -/
def Work.idle : Work := {}

/-! ### The machine -/

/-- The state: the static configuration (R21), the buffer handed over last (R50), the requests not yet taken, the
working values of a stepwise transaction (R22), and the last outcome (R24, R39). -/
structure State where
  /-- `Cfg`: no transaction changes it (R21) -/
  cfg : Cfg
  /-- the byte buffer of the transaction (R50) -/
  buf : Memory
  /-- the requests still to come, oldest first: the block's input (95_test_vectors.md section 3) -/
  requests : List Request
  /-- the working values (R22) -/
  work : Work
  /-- the outcome: none until a transaction ends (R39) -/
  outcome : Option Response
  deriving DecidableEq, Repr

/-- A stop that is no outcome of the block. -/
inductive Fault where
  /-- `MemRead` past the end of the buffer. Raised by `memRead`. R52: a model that reaches it has a bug and must fault.
  Safe: the block has no such read. -/
  | readOutOfBounds
  /-- `MemWrite` past the end of the buffer. Raised by `memWrite`. R10, R54: ENCODE writes only after its capacity
  check. Safe. -/
  | writeOutOfBounds
  /-- The fuel of a recursive decode ran out, or a sequence ended with nothing decoded. Raised by the decoders of
  Machine/ValueCodec.lean and by `closeSequences`. R155: it cannot happen. Safe. -/
  | noProgress
  /-- No instruction stands at the cursor. Raised by `fetch` in a phase that promises one, and in the idle phase, which
  `step` never fetches in. It cannot happen in a run. Safe. -/
  | noInstruction
  deriving DecidableEq, Repr

/-- A run outside the model. -/
inductive Refusal where
  /-- An instruction that has no meaning yet. No arm of `exec` raises it. Safe. -/
  | notModelled (mnemonic : String)
  /-- An ENCODE or DECODE while a transaction is in progress. Raised by `execEncode` and `execDecode`. R63: the same buffer handed
  to two transactions at once is refused. Safe. -/
  | transactionInProgress
  deriving DecidableEq, Repr

/-- The block after reset (R39, R270): idle, no buffer handed over, no request, no outcome. -/
def State.reset : State :=
  { cfg := Cfg.default
    buf := ⟨0, []⟩
    requests := []
    work := Work.idle
    outcome := none }

end Sys2Proof.Machine
end

