-- ==== Sys2Proof/Machine/Bytes.lean ====
section
/-! DEFINITION. Byte order, sign extension and the length octets (R9, R55, R72, R74, R102). -/

namespace Sys2Proof.Machine

/-- `be(a)`: the unsigned integer whose big-endian byte string is `a` (R9). -/
def be (a : List Byte) : Nat := a.foldl (fun acc b => acc * 256 + b.toNat) 0

/-- `bytes_be(v, n)`: the n-byte big-endian string of `v mod 256^n` (R9). -/
def bytesBE (v : Nat) : Nat → List Byte
  | 0 => []
  | n + 1 => BitVec.ofNat 8 (v / 256 ^ n) :: bytesBE v n

/-- `sext(a)`: two's-complement sign extension to an integer (R9). -/
def sext (a : List Byte) : Int :=
  if 0x80 ≤ (a.headD 0#8).toNat then (be a : Int) - (256 ^ a.length : Nat) else be a

/-- The big-endian 16-bit word of two bytes (R55). -/
def word16 (hi lo : Byte) : BitVec 16 := hi ++ lo

/-- The two bytes of a 16-bit word, most significant first (R55). -/
def word16Bytes (w : BitVec 16) : List Byte := bytesBE w.toNat 2

/-- The length octets of a content length (R74, R102): the shortest form, `none` where no form of at most
`MAX_LEN_OCTETS` octets holds it. -/
def lengthOctets (cfg : Cfg) (len : Nat) : Option (List Byte) :=
  if len < 0x80 then some [BitVec.ofNat 8 len]
  else
    match (List.range' 1 cfg.maxLenOctets).find? (fun n => len < 256 ^ n) with
    | some n => some (BitVec.ofNat 8 (0x80 + n) :: bytesBE len n)
    | none => none

end Sys2Proof.Machine
end

