-- ==== Sys2Proof/WellFormed.lean ====
section
/-! DEFINITION. Well-formed memories and well-formed instructions. -/

namespace Sys2Proof

/-- What an unlisted address of a buffer reads as. A buffer is handed over with every byte in it (R50), so this fixes
only how a 0x00 byte is listed, not a value the block could lack. -/
def Memory.fill : Byte := 0x00#8

/-- Addresses strictly rise from `lo`, stay below `len`, and no entry repeats the fill byte. -/
def Memory.cellsWf (len : Nat) : Nat → List Host.Cell → Bool
  | _, [] => true
  | lo, (a, b) :: cs => decide (lo ≤ a) && decide (a < len) && decide (b ≠ Memory.fill) && cellsWf len (a + 1) cs

/-- The canonical form of a buffer: equal buffers are equal data. -/
def Memory.wf (m : Memory) : Bool := Memory.cellsWf m.len 0 m.cells

/-- A handed-over buffer, where there is one, is in canonical form. -/
def handWf : Option Memory → Bool
  | none => true
  | some m => m.wf

/-- The content length can be written in length octets (R74), of the forms the table has a row for: at most four octets
after the first (R72). -/
def lengthFits (cfg : Cfg) (len : Nat) : Bool := (Machine.lengthOctets cfg len).isSome && decide (len < 2 ^ 32)

/-- A first length octet that no long form of the table has: more octets than `MAX_LEN_OCTETS`, or more than the four
the table's rows give (R72, R73). -/
def tooManyLengthOctets (cfg : Cfg) (first : Byte) : Bool :=
  decide (0x80 < first.toNat) && (decide (cfg.maxLenOctets < first.toNat - 0x80) || decide (4 < first.toNat - 0x80))

/-- An instruction is one that stands at position `p`, with operands its encoding can hold. -/
def Instr.wf (cfg : Cfg) (p : Position) : Instr → Bool
  | .boolean c => decide (p = .tag .value) && lengthFits cfg c.length
  | .bitString c => decide (p = .tag .value) && lengthFits cfg c.length
  | .integer c => decide (p = .tag .value) && lengthFits cfg c.length
  | .unsigned c => decide (p = .tag .value) && lengthFits cfg c.length
  | .float c => decide (p = .tag .value) && lengthFits cfg c.length
  | .octetString c => decide (p = .tag .value) && lengthFits cfg c.length
  | .visibleString c => decide (p = .tag .value) && lengthFits cfg c.length
  | .mmsString c => decide (p = .tag .value) && lengthFits cfg c.length
  | .utcTime c => decide (p = .tag .value) && lengthFits cfg c.length
  | .array n => decide (p = .tag .value) && lengthFits cfg n
  | .struct n => decide (p = .tag .value) && lengthFits cfg n
  | .unknownTag t c => decide (p = .tag .value) && decide (t ∉ cfg.valueTags) && lengthFits cfg c.length
  | .pdu _ n => decide (p = .tag .pdu) && lengthFits cfg n
  | .pduGocbRef _ c => decide (p = .tag (.field .gocbRef)) && lengthFits cfg c.length
  | .pduTimeAllowedToLive _ c => decide (p = .tag (.field .timeAllowedToLive)) && lengthFits cfg c.length
  | .pduDatSet _ c => decide (p = .tag (.field .datSet)) && lengthFits cfg c.length
  | .pduGoId _ c => decide (p = .tag (.field .goID)) && lengthFits cfg c.length
  | .pduT _ c => decide (p = .tag (.field .t)) && lengthFits cfg c.length
  | .pduStNum _ c => decide (p = .tag (.field .stNum)) && lengthFits cfg c.length
  | .pduSqNum _ c => decide (p = .tag (.field .sqNum)) && lengthFits cfg c.length
  | .pduSimulation _ c => decide (p = .tag (.field .simulation)) && lengthFits cfg c.length
  | .pduConfRev _ c => decide (p = .tag (.field .confRev)) && lengthFits cfg c.length
  | .pduNdsCom _ c => decide (p = .tag (.field .ndsCom)) && lengthFits cfg c.length
  | .pduNumDatSetEntries _ c => decide (p = .tag (.field .numDatSetEntries)) && lengthFits cfg c.length
  | .pduAllData _ n => decide (p = .tag .allData) && lengthFits cfg n
  | .lenShort _ => decide (p = .length)
  | .lenLong1 _ => decide (p = .length) && decide (1 ≤ cfg.maxLenOctets)
  | .lenLong2 _ => decide (p = .length) && decide (2 ≤ cfg.maxLenOctets)
  | .lenLong3 _ => decide (p = .length) && decide (3 ≤ cfg.maxLenOctets)
  | .lenLong4 _ => decide (p = .length) && decide (4 ≤ cfg.maxLenOctets)
  | .lenMalformedIndefinite => decide (p = .length)
  | .lenMalformedTooLong l0 => decide (p = .length) && tooManyLengthOctets cfg l0
  | .ethVlanMarker _ _ => decide (p = .ethertype)
  | .ethGooseEthertype _ => decide (p = .ethertype) || decide (p = .innerEthertype)
  | .ethOtherEthertype w =>
    decide (w ≠ cfg.ethertypeGoose) &&
      (decide (p = .ethertype) && decide (w ≠ cfg.ethertypeVlan) || decide (p = .innerEthertype))
  | .prpTrailer _ _ _ => decide (p = .trailer)
  | .encode _ h _ => decide (p = .request) && handWf h
  | .decode h _ => decide (p = .request) && handWf h

end Sys2Proof
end

