-- ==== Sys2Proof/Machine/Ops.lean ====
section
/-! DEFINITION. The named operations: the buffer (20_memory.md), raising an error and taking it (60_exceptions.md),
opening and ending a transaction (R39, R272). -/

namespace Sys2Proof.Machine

/-! ### Results -/

/-- What ends an operation early: an error raised (R244), or a stop that is a bug of the model. -/
inductive Stop where
  | raised (e : Error)
  | broken (f : Fault)
  deriving DecidableEq, Repr

/-- The result of an internal operation: total, a value or a stop (R11). -/
abbrev Codec (α : Type) := Except Stop α

/-- `raise Error(reason, pos)` (R10). -/
def raise {α : Type} (reason : ErrorReason) (pos : Nat) : Codec α := .error (.raised ⟨reason, pos⟩)

/-! ### The buffer -/

/-- The byte listed at an address, else the fill byte. -/
def lookupCell (a : Nat) : List Host.Cell → Byte
  | [] => Memory.fill
  | (k, b) :: cs => if k = a then b else lookupCell a cs

/-- One byte of the buffer: none where the address does not exist (R50). -/
def memByte? (m : Memory) (a : Nat) : Option Byte := if a < m.len then some (lookupCell a m.cells) else none

/-- `MemRead(a, n)` (R52): the bytes at `a .. a + n - 1`; out of bounds it must fault. -/
def memRead (m : Memory) (a n : Nat) : Codec (List Byte) :=
  if a + n ≤ m.len then .ok ((List.range' a n).map fun k => lookupCell k m.cells)
  else .error (.broken .readOutOfBounds)

/-- `MemRead(a, 1)[0]`. -/
def memReadByte (m : Memory) (a : Nat) : Codec Byte := do
  let c ← memRead m a 1
  return c.headD 0#8

/-- `be(MemRead(a, 2))` (R55). -/
def memRead16 (m : Memory) (a : Nat) : Codec (BitVec 16) := do
  let c ← memRead m a 2
  return BitVec.ofNat 16 (be c)

/-- The buffer's bytes from an address to its end. -/
def bytesFrom (m : Memory) (a : Nat) : List Byte := (List.range' a (m.len - a)).map fun k => lookupCell k m.cells

/-- All the bytes of the buffer. -/
def memBytes (m : Memory) : List Byte := bytesFrom m 0

/-- Sets one listed byte, keeping the canonical form: a fill byte is not listed. -/
def setCell (a : Nat) (b : Byte) : List Host.Cell → List Host.Cell
  | [] => if b = Memory.fill then [] else [(a, b)]
  | (k, c) :: cs =>
    if a < k then (if b = Memory.fill then (k, c) :: cs else (a, b) :: (k, c) :: cs)
    else if a = k then (if b = Memory.fill then cs else (a, b) :: cs)
    else (k, c) :: setCell a b cs

/-- Writes bytes at rising addresses. -/
def setCells (a : Nat) : List Byte → List Host.Cell → List Host.Cell
  | [], cs => cs
  | b :: bs, cs => setCells (a + 1) bs (setCell a b cs)

/-- `MemWrite(a, n, s)` with `n = len(s)` (R10): out of bounds it faults. -/
def memWrite (m : Memory) (a : Nat) (s : List Byte) : Codec Memory :=
  if a + s.length ≤ m.len then .ok ⟨m.len, setCells a s m.cells⟩ else .error (.broken .writeOutOfBounds)

/-- A buffer of these bytes. -/
def memOfBytes (bs : List Byte) : Memory := ⟨bs.length, setCells 0 bs []⟩

/-- The buffer cut to end at an address (R221, R273). -/
def memCut (m : Memory) (n : Nat) : Memory := ⟨min n m.len, m.cells.filter fun c => decide (c.1 < n)⟩

/-! ### Taking an error: the block's trap entry (R244, R245) -/

/-- The outcome an error becomes: DECODE wraps it as `Some(Err(e))` (R206), an exposed operation returns it. -/
def Entry.raised (e : Error) : Entry → Response
  | .frame => .decode (some (.error e))
  | .pdu => .pdu (.error e)
  | .element => .element (.error e)
  | .sequence _ => .sequence (.error e)
  | .tagLength => .tagLength (.error e)

/-- The end of a transaction: its outcome stands, every working value is gone (R20, R39). Control goes back to the
requester; nothing was saved and nothing is restored (R248). -/
def endTransaction (r : Response) (s : State) : State := { s with work := Work.idle, outcome := some r }

/-- Taking an error (R244): the transaction ends with it, reason and position unchanged (R245), and nothing partly
built is left. The buffer is not touched. -/
def takeError (e : Error) (s : State) : State := endTransaction (s.work.entry.raised e) s

/-- The step outcome of a meaning. -/
def commit (s : State) : Codec State → Host.Outcome State Fault Refusal
  | .ok t => .next t
  | .error (.raised e) => .next (takeError e s)
  | .error (.broken f) => .fault f

/-! ### Opening a transaction (R39, R272, R273) -/

/-- The buffer handed over with a request, or the one the block holds. -/
def handOver (hand : Option Memory) (s : State) : State :=
  match hand with
  | none => s
  | some m => { s with buf := m }

/-- A byte string of a fixed length as a record field. -/
def octets (n : Nat) (c : List Byte) : Octets n :=
  if h : c.length = n then ⟨c.toArray, by simpa using h⟩ else Vector.replicate n 0#8

/-- Sets the working values a transaction starts from. -/
def State.withWork (s : State) (w : Work) : State := { s with work := w, outcome := none }

/-- Opens a stepwise transaction at `start`: the cursor there, no enclosing container, empty lists and records, no
outcome (R272). A frame starts with the two MAC addresses, which need 14 bytes with the ethertype (R202). -/
def openTransaction (entry : Entry) (start : Nat) (s : State) : Codec State :=
  match entry with
  | .frame =>
    if start + 14 > s.buf.len then raise .bufferTooShort start
    else do
      let dst ← memRead s.buf start Cfg.macBytes
      let src ← memRead s.buf (start + 6) Cfg.macBytes
      return s.withWork
        { Work.idle with
          entry := .frame, phase := .ethertype, pos := start + 12, eth := ⟨octets 6 dst, octets 6 src, none⟩ }
  | .pdu => .ok (s.withWork { Work.idle with entry := .pdu, phase := .header .pdu, pos := start })
  | .element => .ok (s.withWork { Work.idle with entry := .element, phase := .header .value, pos := start })
  | .sequence bound =>
    if start < bound then
      .ok (s.withWork
        { Work.idle with entry := .sequence bound, phase := .header .value, pos := start, endBound := some bound })
    else .ok (endTransaction (.sequence (.ok (start, []))) s)
  | .tagLength => .ok (s.withWork { Work.idle with entry := .tagLength, phase := .header .value, pos := start })

end Sys2Proof.Machine
end

