-- ==== Sys2Proof/Machine/Operands.lean ====
section
/-! DEFINITION. The operand forms: the scalar decoders and encoders of 40_tlv_primitives.md. A decoder takes the tag
position `p`, where its errors are positioned, and the content `c`. -/

namespace Sys2Proof.Machine

/-! ### Decoders -/

/-- DEC_BOOLEAN (R104). -/
def decBoolean (p : Nat) (c : List Byte) : Codec Bool :=
  if c.length ≠ 1 then raise .unsupportedWidth p else .ok (decide (c.headD 0#8 ≠ 0x00#8))

/-- DEC_SIGNED (R105): the variant follows the length, not the value. -/
def decSigned (p : Nat) (c : List Byte) : Codec Value :=
  if c.length = 0 ∨ c.length > Cfg.sintMaxBytes then raise .unsupportedWidth p
  else if c.length = 1 then .ok (.int8 (BitVec.ofInt 8 (sext c)))
  else if c.length = 2 then .ok (.int16 (BitVec.ofInt 16 (sext c)))
  else if c.length ≤ 4 then .ok (.int32 (BitVec.ofInt 32 (sext c)))
  else .ok (.int64 (BitVec.ofInt 64 (sext c)))

/-- DEC_UNSIGNED (R106): the magnitude, with the 5-byte zero-pad form. -/
def decUnsigned (p : Nat) (c : List Byte) : Codec Value :=
  if c.length = 0 then raise .unsupportedWidth p
  else if c.length = Cfg.uintMaxBytes then
    if c.headD 0#8 ≠ 0x00#8 then raise .oversizeUnsigned p else .ok (.uint32 (BitVec.ofNat 32 (be c.tail)))
  else if c.length > Cfg.uintMaxBytes then raise .oversizeUnsigned p
  else if c.length = 1 then .ok (.uint8 (BitVec.ofNat 8 (be c)))
  else if c.length = 2 then .ok (.uint16 (BitVec.ofNat 16 (be c)))
  else .ok (.uint32 (BitVec.ofNat 32 (be c)))

/-- DEC_FLOAT (R107): the prefix byte is ignored, the pattern kept bit for bit (R120). -/
def decFloat (p : Nat) (c : List Byte) : Codec Value :=
  if c.length = 5 then .ok (.float32 (BitVec.ofNat 32 (be c.tail)))
  else if c.length = 9 then .ok (.float64 (BitVec.ofNat 64 (be c.tail)))
  else raise .unsupportedWidth p

/-- DEC_STRING (R108) for an octet string: every length, raw bytes. -/
def decOctetString (c : List Byte) : Value := .octetString c

/-- DEC_STRING (R108) for a visible string. -/
def decVisibleString (c : List Byte) : Value := .visibleString c

/-- DEC_STRING (R108) for an MMS string. -/
def decMmsString (c : List Byte) : Value := .mmsString c

/-- Eight raw bytes (R109, R177). -/
def decTime (p : Nat) (c : List Byte) : Codec (Octets 8) :=
  if c.length ≠ 8 then raise .unsupportedWidth p else .ok (octets 8 c)

/-- DEC_UTCTIME (R109). -/
def decUtcTime (p : Nat) (c : List Byte) : Codec Value := do
  let u ← decTime p c
  return .utcTime u

/-- DEC_BITSTRING (R110): the unused bits are kept and not checked. -/
def decBitString (p : Nat) (c : List Byte) : Codec Value :=
  if c.length = 0 then raise .unsupportedWidth p
  else if (c.headD 0#8).toNat > 7 then raise .invalidBitStringPadding p
  else .ok (.bitString (Fin.ofNat 8 (c.headD 0#8).toNat) c.tail)

/-- The numeric value of an unsigned Value, as a u32 field holds it (R175). -/
def unsignedValue : Value → BitVec 32
  | .uint8 v => v.setWidth 32
  | .uint16 v => v.setWidth 32
  | .uint32 v => v
  | _ => 0#32

/-- The number an integer variant of either sign holds (R27), whatever its width (R180). -/
def integerNumber : Value → Option Int
  | .int8 v => some v.toInt
  | .int16 v => some v.toInt
  | .int32 v => some v.toInt
  | .int64 v => some v.toInt
  | .uint8 v => some v.toNat
  | .uint16 v => some v.toNat
  | .uint32 v => some v.toNat
  | _ => none

/-- The content of a u32 field: DEC_UNSIGNED, then its numeric value (R175). -/
def decU32 (p : Nat) (c : List Byte) : Codec (BitVec 32) := do
  let x ← decUnsigned p c
  return unsignedValue x

/-! ### Encoders -/

/-- ENC_BOOLEAN (R111). -/
def encBoolean (cfg : Cfg) (b : Bool) : List Byte := if b then [cfg.boolTrueByte] else [0x00#8]

/-- `sw(v)`: the smallest n in 1..8 whose two's complement holds `v` (R112). -/
def signedWidth (v : Int) : Nat :=
  ((List.range' 1 8).find? fun n => -(2 ^ (8 * n - 1) : Nat) ≤ v ∧ v ≤ (2 ^ (8 * n - 1) : Nat) - 1).getD 8

/-- ENC_SIGNED (R112). -/
def encSigned (v : Int) : List Byte := bytesBE (v % (256 ^ signedWidth v : Nat)).toNat (signedWidth v)

/-- `uw(v)`: the smallest n in 1..5 with `v <= 2^(8n-1) - 1` (R113). -/
def unsignedWidth (v : Nat) : Nat := ((List.range' 1 5).find? fun n => v ≤ 2 ^ (8 * n - 1) - 1).getD 5

/-- ENC_UNSIGNED (R113): a leading zero byte where the top bit would be set. -/
def encUnsigned (v : Nat) : List Byte := bytesBE v (unsignedWidth v)

/-- ENC_FLOAT32 (R114). -/
def encFloat32 (cfg : Cfg) (w : BitVec 32) : List Byte := cfg.float32Prefix :: bytesBE w.toNat 4

/-- ENC_FLOAT64 (R115). -/
def encFloat64 (cfg : Cfg) (w : BitVec 64) : List Byte := cfg.float64Prefix :: bytesBE w.toNat 8

/-- ENC_STRING (R116). -/
def encString (s : List Byte) : List Byte := s

/-- ENC_UTCTIME (R117). -/
def encUtcTime (u : Octets 8) : List Byte := u.toList

/-- ENC_BITSTRING (R118). -/
def encBitString (padding : Fin 8) (bits : List Byte) : List Byte := BitVec.ofNat 8 padding.val :: bits

end Sys2Proof.Machine
end

