-- ==== Sys2Proof/Machine/Tlv.lean ====
section
/-! DEFINITION. The header operations of 40_tlv_primitives.md: DECODE_TAG_LENGTH, ENCODE_LENGTH, ENCODE_TLV. -/

namespace Sys2Proof.Machine

/-- The last check of DECODE_TAG_LENGTH (R101): the content lies inside the buffer, whatever container it is in. -/
def contentInBuffer (m : Memory) (pos hdr len : Nat) : Codec Unit :=
  if pos + hdr + len > m.len then raise .bufferTooShort pos else .ok ()

/-- The long form of a length (R72, R101): `n` octets at `pos + 2`. -/
def longLength (m : Memory) (pos n : Nat) : Codec Nat :=
  if pos + 2 + n > m.len then raise .bufferTooShort pos
  else do
    let o ← memRead m (pos + 2) n
    return be o

/-- DECODE_TAG_LENGTH (R101): the tag, the content length and the first content byte. -/
def decodeTagLength (cfg : Cfg) (m : Memory) (pos : Nat) : Codec (Byte × Nat × Nat) :=
  if pos + 2 > m.len then raise .bufferTooShort pos
  else do
    let tag ← memReadByte m pos
    let l0 ← memReadByte m (pos + 1)
    if l0.toNat < 0x80 then do
      contentInBuffer m pos 2 l0.toNat
      return (tag, l0.toNat, pos + 2)
    else if l0.toNat = 0x80 ∨ l0.toNat > 0x80 + cfg.maxLenOctets then raise .malformedLength pos
    else do
      let len ← longLength m pos (l0.toNat - 0x80)
      contentInBuffer m pos (2 + (l0.toNat - 0x80)) len
      return (tag, len, pos + (2 + (l0.toNat - 0x80)))

/-- ENCODE_LENGTH (R102). -/
def encodeLength (cfg : Cfg) (start len : Nat) : Codec (List Byte) :=
  match lengthOctets cfg len with
  | some o => .ok o
  | none => raise .lengthOverflow start

/-- ENCODE_TLV (R103). -/
def encodeTlv (cfg : Cfg) (start : Nat) (tag : Byte) (c : List Byte) : Codec (List Byte) := do
  let o ← encodeLength cfg start c.length
  return tag :: (o ++ c)

/-- `lenOctets(L)` (R102), 0 where there is no form. -/
def lenOctets (cfg : Cfg) (len : Nat) : Nat := ((lengthOctets cfg len).getD []).length

/-- `tlvSize(L)` (R103). -/
def tlvSize (cfg : Cfg) (len : Nat) : Nat := 1 + lenOctets cfg len + len

end Sys2Proof.Machine
end

