-- ==== Sys2Proof/Machine/ValueCodec.lean ====
section
/-! DEFINITION. The value codec (41_value_codec.md): DECODE_ELEMENT, DECODE_SEQUENCE, ENCODE_VALUE, and the sizes and
the normal form of the round-trip law. -/

namespace Sys2Proof.Machine

/-- The container a finished element list becomes (R28). -/
def wrapItems : ContainerKind → List Value → Value
  | .array, xs => .array (Values.ofList xs)
  | .struct, xs => .struct (Values.ofList xs)

/-- The scalar arms of DECODE_ELEMENT (R141), in its order, and the unknown-tag arm (R153). -/
def decodeScalar (cfg : Cfg) (pos : Nat) (tag : Byte) (c : List Byte) : Codec Value :=
  if tag = cfg.tagBoolean then do
    let b ← decBoolean pos c
    return .boolean b
  else if tag = cfg.tagInteger then decSigned pos c
  else if tag = cfg.tagUnsigned then decUnsigned pos c
  else if tag = cfg.tagFloat then decFloat pos c
  else if tag = cfg.tagOctetString then .ok (decOctetString c)
  else if tag = cfg.tagVisibleString then .ok (decVisibleString c)
  else if tag = cfg.tagMmsString then .ok (decMmsString c)
  else if tag = cfg.tagUtcTime then decUtcTime pos c
  else if tag = cfg.tagBitString then decBitString pos c
  else raise .unknownDataType pos

mutual
/-- DECODE_ELEMENT (R141): the position after the element and its value. The fuel bounds elements and depth
together. -/
def decodeElement (cfg : Cfg) (m : Memory) : Nat → Nat → Codec (Nat × Value)
  | 0, _ => .error (.broken .noProgress)
  | fuel + 1, pos => do
    let (tag, len, v) ← decodeTagLength cfg m pos
    if tag = cfg.tagArray then do
      let (q, xs) ← decodeSequence cfg m fuel v (v + len)
      return (q, wrapItems .array xs)
    else if tag = cfg.tagStructure then do
      let (q, xs) ← decodeSequence cfg m fuel v (v + len)
      return (q, wrapItems .struct xs)
    else do
      let c ← memRead m v len
      let x ← decodeScalar cfg pos tag c
      return (v + len, x)
/-- DECODE_SEQUENCE (R154): elements until the position reaches or passes `bound`. -/
def decodeSequence (cfg : Cfg) (m : Memory) : Nat → Nat → Nat → Codec (Nat × List Value)
  | 0, _, _ => .error (.broken .noProgress)
  | fuel + 1, pos, bound =>
    if pos < bound then do
      let (pos', x) ← decodeElement cfg m fuel pos
      let (q, xs) ← decodeSequence cfg m fuel pos' bound
      return (q, x :: xs)
    else .ok (pos, [])
end

/-- Fuel that is always enough (R155): each element moves the cursor by at least 2, and at most one more header is
tried at the buffer's end. -/
def decodeFuel (m : Memory) (pos : Nat) : Nat := (m.len - pos) + 2

mutual
/-- ENCODE_VALUE (R157). -/
def encodeValue (cfg : Cfg) (start : Nat) : Value → Codec (List Byte)
  | .array xs => do
    let c ← encodeValues cfg start xs
    encodeTlv cfg start cfg.tagArray c
  | .struct xs => do
    let c ← encodeValues cfg start xs
    encodeTlv cfg start cfg.tagStructure c
  | .boolean b => encodeTlv cfg start cfg.tagBoolean (encBoolean cfg b)
  | .int8 v => encodeTlv cfg start cfg.tagInteger (encSigned v.toInt)
  | .int16 v => encodeTlv cfg start cfg.tagInteger (encSigned v.toInt)
  | .int32 v => encodeTlv cfg start cfg.tagInteger (encSigned v.toInt)
  | .int64 v => encodeTlv cfg start cfg.tagInteger (encSigned v.toInt)
  | .uint8 v => encodeTlv cfg start cfg.tagUnsigned (encUnsigned v.toNat)
  | .uint16 v => encodeTlv cfg start cfg.tagUnsigned (encUnsigned v.toNat)
  | .uint32 v => encodeTlv cfg start cfg.tagUnsigned (encUnsigned v.toNat)
  | .float32 w => encodeTlv cfg start cfg.tagFloat (encFloat32 cfg w)
  | .float64 w => encodeTlv cfg start cfg.tagFloat (encFloat64 cfg w)
  | .octetString s => encodeTlv cfg start cfg.tagOctetString (encString s)
  | .visibleString s => encodeTlv cfg start cfg.tagVisibleString (encString s)
  | .mmsString s => encodeTlv cfg start cfg.tagMmsString (encString s)
  | .utcTime u => encodeTlv cfg start cfg.tagUtcTime (encUtcTime u)
  | .bitString p b => encodeTlv cfg start cfg.tagBitString (encBitString p b)
/-- The concatenation of the elements' encodings, in list order (R157). -/
def encodeValues (cfg : Cfg) (start : Nat) : Values → Codec (List Byte)
  | .nil => .ok []
  | .cons x xs => do
    let a ← encodeValue cfg start x
    let b ← encodeValues cfg start xs
    return a ++ b
end

mutual
/-- `valueSize` (R158): the encoded size, computed without writing. -/
def valueSize (cfg : Cfg) : Value → Nat
  | .array xs => tlvSize cfg (valuesSize cfg xs)
  | .struct xs => tlvSize cfg (valuesSize cfg xs)
  | .boolean _ => tlvSize cfg 1
  | .int8 v => tlvSize cfg (signedWidth v.toInt)
  | .int16 v => tlvSize cfg (signedWidth v.toInt)
  | .int32 v => tlvSize cfg (signedWidth v.toInt)
  | .int64 v => tlvSize cfg (signedWidth v.toInt)
  | .uint8 v => tlvSize cfg (unsignedWidth v.toNat)
  | .uint16 v => tlvSize cfg (unsignedWidth v.toNat)
  | .uint32 v => tlvSize cfg (unsignedWidth v.toNat)
  | .float32 _ => tlvSize cfg 5
  | .float64 _ => tlvSize cfg 9
  | .octetString s => tlvSize cfg s.length
  | .visibleString s => tlvSize cfg s.length
  | .mmsString s => tlvSize cfg s.length
  | .utcTime _ => tlvSize cfg 8
  | .bitString _ b => tlvSize cfg (1 + b.length)
/-- The sum of the elements' sizes (R158). -/
def valuesSize (cfg : Cfg) : Values → Nat
  | .nil => 0
  | .cons x xs => valueSize cfg x + valuesSize cfg xs
end

/-- The integer variant that the minimal width of `v` selects (R159). -/
def normSigned (v : Int) : Value :=
  if signedWidth v = 1 then .int8 (BitVec.ofInt 8 v)
  else if signedWidth v = 2 then .int16 (BitVec.ofInt 16 v)
  else if signedWidth v ≤ 4 then .int32 (BitVec.ofInt 32 v)
  else .int64 (BitVec.ofInt 64 v)

/-- The unsigned variant that the minimal width of `v` selects (R159). -/
def normUnsigned (v : Nat) : Value :=
  if unsignedWidth v = 1 then .uint8 (BitVec.ofNat 8 v)
  else if unsignedWidth v = 2 then .uint16 (BitVec.ofNat 16 v)
  else .uint32 (BitVec.ofNat 32 v)

mutual
/-- `norm` (R159): the variant the decoder produces for a value's encoding. -/
def norm : Value → Value
  | .array xs => .array (norms xs)
  | .struct xs => .struct (norms xs)
  | .int8 v => normSigned v.toInt
  | .int16 v => normSigned v.toInt
  | .int32 v => normSigned v.toInt
  | .int64 v => normSigned v.toInt
  | .uint8 v => normUnsigned v.toNat
  | .uint16 v => normUnsigned v.toNat
  | .uint32 v => normUnsigned v.toNat
  | .boolean b => .boolean b
  | .float32 w => .float32 w
  | .float64 w => .float64 w
  | .octetString s => .octetString s
  | .visibleString s => .visibleString s
  | .mmsString s => .mmsString s
  | .utcTime u => .utcTime u
  | .bitString p b => .bitString p b
/-- `norm` of every element. -/
def norms : Values → Values
  | .nil => .nil
  | .cons x xs => .cons (norm x) (norms xs)
end

end Sys2Proof.Machine
end

