-- ==== Sys2Proof/Machine/PduCodec.lean ====
section
/-! DEFINITION. The PDU codec (42_pdu_codec.md): DECODE_PDU with its field readers, ENCODE_PDU and its size. -/

namespace Sys2Proof.Machine

/-- FIELD_STRING (R174): the tag is read and discarded (R178). -/
def fieldString (cfg : Cfg) (m : Memory) (q : Nat) : Codec (Nat × List Byte) := do
  let (_, len, v) ← decodeTagLength cfg m q
  let c ← memRead m v len
  return (v + len, c)

/-- FIELD_U32 (R175). -/
def fieldU32 (cfg : Cfg) (m : Memory) (q : Nat) : Codec (Nat × BitVec 32) := do
  let (_, len, v) ← decodeTagLength cfg m q
  let c ← memRead m v len
  let x ← decU32 q c
  return (v + len, x)

/-- FIELD_BOOL (R176). -/
def fieldBool (cfg : Cfg) (m : Memory) (q : Nat) : Codec (Nat × Bool) := do
  let (_, len, v) ← decodeTagLength cfg m q
  let c ← memRead m v len
  let b ← decBoolean q c
  return (v + len, b)

/-- FIELD_TIME (R177). -/
def fieldTime (cfg : Cfg) (m : Memory) (q : Nat) : Codec (Nat × Octets 8) := do
  let (_, len, v) ← decodeTagLength cfg m q
  let c ← memRead m v len
  let u ← decTime q c
  return (v + len, u)

/-- AllData (R179, R180): its tag, its elements and the entry count. -/
def decodeAllData (cfg : Cfg) (m : Memory) (count : BitVec 32) (a : Nat) : Codec (List Value) := do
  let (tag, len, v) ← decodeTagLength cfg m a
  if tag ≠ cfg.ptagAllData then raise .allDataTagMismatch a
  else do
    let (_, xs) ← decodeSequence cfg m (decodeFuel m v) v (v + len)
    if count.toNat ≠ xs.length then raise .entryCountMismatch a else return xs

/-- The content of the PDU (R171): the eleven fields by position, then AllData. -/
def decodePduBody (cfg : Cfg) (m : Memory) (c : Nat) : Codec GoosePdu := do
  let (q, gocbRef) ← fieldString cfg m c
  let (q, timeAllowedToLive) ← fieldU32 cfg m q
  let (q, datSet) ← fieldString cfg m q
  let (q, goID) ← fieldString cfg m q
  let (q, t) ← fieldTime cfg m q
  let (q, stNum) ← fieldU32 cfg m q
  let (q, sqNum) ← fieldU32 cfg m q
  let (q, simulation) ← fieldBool cfg m q
  let (q, confRev) ← fieldU32 cfg m q
  let (q, ndsCom) ← fieldBool cfg m q
  let (q, numDatSetEntries) ← fieldU32 cfg m q
  let allData ← decodeAllData cfg m numDatSetEntries q
  return ⟨gocbRef, timeAllowedToLive, datSet, goID, t, stNum, sqNum, simulation, confRev, ndsCom, numDatSetEntries,
    allData⟩

/-- DECODE_PDU (R171): the PDU's declared end (R181) and the record. -/
def decodePdu (cfg : Cfg) (m : Memory) (p : Nat) : Codec (Nat × GoosePdu) := do
  let (tag, len, c) ← decodeTagLength cfg m p
  if tag ≠ cfg.ptagPdu then raise .pduTagMismatch p
  else do
    let d ← decodePduBody cfg m c
    return (c + len, d)

/-- The content of ENCODE_PDU (R182): twelve elements in order; the count is recomputed. -/
def encodePduBody (cfg : Cfg) (start : Nat) (d : GoosePdu) : Codec (List Byte) := do
  let f1 ← encodeTlv cfg start cfg.ptagGocbRef (encString d.gocbRef)
  let f2 ← encodeTlv cfg start cfg.ptagTal (encUnsigned d.timeAllowedToLive.toNat)
  let f3 ← encodeTlv cfg start cfg.ptagDatSet (encString d.datSet)
  let f4 ← encodeTlv cfg start cfg.ptagGoId (encString d.goID)
  let f5 ← encodeTlv cfg start cfg.ptagT (encUtcTime d.t)
  let f6 ← encodeTlv cfg start cfg.ptagStNum (encUnsigned d.stNum.toNat)
  let f7 ← encodeTlv cfg start cfg.ptagSqNum (encUnsigned d.sqNum.toNat)
  let f8 ← encodeTlv cfg start cfg.ptagSimulation (encBoolean cfg d.simulation)
  let f9 ← encodeTlv cfg start cfg.ptagConfRev (encUnsigned d.confRev.toNat)
  let f10 ← encodeTlv cfg start cfg.ptagNdsCom (encBoolean cfg d.ndsCom)
  let f11 ← encodeTlv cfg start cfg.ptagNumDatSetEntries (encUnsigned d.allData.length)
  let xs ← encodeValues cfg start (Values.ofList d.allData)
  let f12 ← encodeTlv cfg start cfg.ptagAllData xs
  return f1 ++ f2 ++ f3 ++ f4 ++ f5 ++ f6 ++ f7 ++ f8 ++ f9 ++ f10 ++ f11 ++ f12

/-- ENCODE_PDU (R182). -/
def encodePdu (cfg : Cfg) (start : Nat) (d : GoosePdu) : Codec (List Byte) := do
  let body ← encodePduBody cfg start d
  encodeTlv cfg start cfg.ptagPdu body

/-- `pduSize` (R183). -/
def pduSize (cfg : Cfg) (d : GoosePdu) : Nat :=
  tlvSize cfg
    (tlvSize cfg d.gocbRef.length + tlvSize cfg (unsignedWidth d.timeAllowedToLive.toNat) +
      tlvSize cfg d.datSet.length + tlvSize cfg d.goID.length + tlvSize cfg 8 +
      tlvSize cfg (unsignedWidth d.stNum.toNat) + tlvSize cfg (unsignedWidth d.sqNum.toNat) + tlvSize cfg 1 +
      tlvSize cfg (unsignedWidth d.confRev.toNat) + tlvSize cfg 1 +
      tlvSize cfg (unsignedWidth d.allData.length) + tlvSize cfg (valuesSize cfg (Values.ofList d.allData)))

end Sys2Proof.Machine
end

