-- ==== Sys2Proof/Machine/FrameCodec.lean ====
section
/-! DEFINITION. The frame codec (43_frame_codec.md): DECODE and ENCODE as the spec's pseudocode gives them. -/

namespace Sys2Proof.Machine

/-- The LAN a designator names (R208): none is malformed. -/
def lanOf (cfg : Cfg) (id : BitVec 4) : Option Lan :=
  if id = cfg.prpLanA then some .A else if id = cfg.prpLanB then some .B else none

/-- The designator of a LAN (R215). -/
def lanId (cfg : Cfg) : Lan → BitVec 4
  | .A => cfg.prpLanA
  | .B => cfg.prpLanB

/-- Whether a PRP trailer stands at the PDU end `e` (R207): exactly six bytes remain and they end in the marker. -/
def trailerPresent (cfg : Cfg) (m : Memory) (e : Nat) : Codec Bool :=
  if e ≤ m.len ∧ m.len - e = Cfg.prpTrailerBytes then do
    let w ← memRead16 m (e + 4)
    return decide (w = cfg.prpSuffix)
  else .ok false

/-- The PRP trailer at `e`, where there is one (R207, R208). -/
def decodePrp (cfg : Cfg) (m : Memory) (e : Nat) : Codec (Option PrpTrailer) := do
  let present ← trailerPresent cfg m e
  if present then do
    let seq ← memRead16 m e
    let w ← memRead16 m (e + 2)
    match lanOf cfg (w.extractLsb' 12 4) with
    | some lan => return some ⟨seq, lan, w.extractLsb' 0 12⟩
    | none => raise .malformedPrpLan (e + 2)
  else return none

/-- The GOOSE header at `o` (R205). -/
def decodeGooseHeader (m : Memory) (o : Nat) : Codec GooseHeader :=
  if o + 8 > m.len then raise .bufferTooShort o
  else do
    let appid ← memRead16 m o
    let length ← memRead16 m (o + 2)
    let reserved1 ← memRead16 m (o + 4)
    let reserved2 ← memRead16 m (o + 6)
    return ⟨appid, length, reserved1, reserved2⟩

/-- The optional VLAN tag (R203): the VLAN id, the resolved ethertype and the offset after it. -/
def decodeVlan (cfg : Cfg) (m : Memory) (s : Nat) : Codec (Option (BitVec 12) × BitVec 16 × Nat) := do
  let et ← memRead16 m (s + 12)
  if et = cfg.ethertypeVlan then
    if s + 14 + Cfg.vlanTagBytes > m.len then raise .bufferTooShort (s + 14)
    else do
      let tci ← memRead16 m (s + 14)
      let inner ← memRead16 m (s + 16)
      return (some (tci.extractLsb' 0 12), inner, s + 18)
  else return (none, et, s + 14)

/-- DECODE up to its outcome (R200): `none` is a frame of other traffic (R204). The packet is built only at the end
(R209). -/
def decodeFrame (cfg : Cfg) (m : Memory) (s : Nat) : Codec (Option GoosePacket) :=
  if s + 14 > m.len then raise .bufferTooShort s
  else do
    let dst ← memRead m s Cfg.macBytes
    let src ← memRead m (s + 6) Cfg.macBytes
    let (vlan, et, o) ← decodeVlan cfg m s
    if et ≠ cfg.ethertypeGoose then return none
    else do
      let goose ← decodeGooseHeader m o
      let (e, pdu) ← decodePdu cfg m (o + 8)
      let prp ← decodePrp cfg m e
      return some ⟨⟨octets 6 dst, octets 6 src, vlan⟩, goose, pdu, prp⟩

/-- The frame of a packet whose PDU bytes are `p` (R211 to R215). -/
def frameBytes (cfg : Cfg) (k : GoosePacket) (p : List Byte) : List Byte :=
  k.eth.dst.toList ++ k.eth.src.toList ++
    (match k.eth.vlan with
      | some vid => bytesBE cfg.ethertypeVlan.toNat 2 ++ bytesBE vid.toNat 2
      | none => []) ++
    bytesBE cfg.ethertypeGoose.toNat 2 ++ bytesBE k.goose.appid.toNat 2 ++
    bytesBE (p.length + Cfg.gooseLenAdjust) 2 ++ [0x00#8, 0x00#8] ++ [0x00#8, 0x00#8] ++ p ++
    (match k.prp with
      | some r =>
        bytesBE r.seq.toNat 2 ++
          bytesBE ((lanId cfg r.lan).toNat * 0x1000 + (Cfg.gooseLenAdjust + p.length + Cfg.prpTrailerBytes)) 2 ++
          bytesBE cfg.prpSuffix.toNat 2
      | none => [])

/-- The frame ENCODE computes before it writes anything, with the length checks of R217. -/
def encodeFrame (cfg : Cfg) (k : GoosePacket) (s : Nat) : Codec (List Byte) := do
  let p ← encodePdu cfg s k.pdu
  if p.length + Cfg.gooseLenAdjust > 0xFFFF then raise .lengthOverflow s
  else if k.prp.isSome ∧ Cfg.gooseLenAdjust + p.length + Cfg.prpTrailerBytes > 0x0FFF then raise .lengthOverflow s
  else return frameBytes cfg k p

/-- ENCODE (R210): the buffer after it and the bytes written. The capacity check comes before the write (R216). -/
def encodeInto (cfg : Cfg) (m : Memory) (k : GoosePacket) (s : Nat) : Codec (Memory × Nat) := do
  let f ← encodeFrame cfg k s
  if s + f.length > m.len then raise .bufferTooSmall s
  else do
    let m' ← memWrite m s f
    return (m', f.length)

end Sys2Proof.Machine
end

