-- ==== Sys2Proof/Machine/Elements.lean ====
section
/-! DEFINITION. What the instructions of a stepwise transaction share: latching a header, delivering a value to the
sequence it stands in, entering and leaving containers, and the end of AllData, of the PDU and of the frame. Each
follows the same rule as the whole-transaction decoders of ValueCodec, PduCodec and FrameCodec. -/

namespace Sys2Proof.Machine

/-! ### The end of the frame -/

/-- The packet of the partly built records (R209). -/
def packetOf (w : Work) (prp : Option PrpTrailer) : GoosePacket := ⟨w.eth, w.goose, w.pdu, prp⟩

/-- DECODE ends with a packet (R200, R209). -/
def finishFrame (s : State) (prp : Option PrpTrailer) : State :=
  endTransaction (.decode (some (.ok (packetOf s.work prp)))) s

/-- After the PDU (R206, R207): an exposed DECODE_PDU returns; a frame goes on to its trailer, or ends without
one. The cursor is at the PDU's declared end (R181). -/
def finishPdu (s : State) : Codec State :=
  match s.work.entry with
  | .pdu => .ok (endTransaction (.pdu (.ok (s.work.pduEnd, s.work.pdu))) s)
  | _ => do
    let present ← trailerPresent s.cfg s.buf s.work.pduEnd
    if present then return { s with work := { s.work with phase := .trailer, pos := s.work.pduEnd } }
    else return finishFrame s none

/-- After the last element of AllData: the entry count is compared with the number of top-level elements (R180). -/
def finishAllData (s : State) : Codec State :=
  if s.work.pdu.numDatSetEntries.toNat ≠ s.work.items.length then raise .entryCountMismatch s.work.allDataPos
  else finishPdu { s with work := { s.work with pdu := { s.work.pdu with allData := s.work.items } } }

/-- The outermost sequence has ended: an exposed DECODE_SEQUENCE returns (R154), AllData is complete otherwise. -/
def finishSequence (s : State) : Codec State :=
  match s.work.entry with
  | .sequence _ => .ok (endTransaction (.sequence (.ok (s.work.pos, s.work.items))) s)
  | _ => finishAllData s

/-! ### Sequences and containers -/

/-- Leaves every container whose end the cursor has reached or passed (R151, R154, R156): its list becomes one
element of the sequence it stands in. Returns the stack, end bound and list that are then current. -/
def unwind (pos : Nat) : List Frame → Option Nat → List Value → List Frame × Option Nat × List Value
  | stack, none, items => (stack, none, items)
  | [], some e, items => ([], some e, items)
  | f :: fs, some e, items =>
    if pos < e then (f :: fs, some e, items) else unwind pos fs f.endBound (f.items ++ [wrapItems f.kind items])

/-- The loop test of DECODE_SEQUENCE (R154) after an element or an empty container: another element while the cursor
is before the end bound, else the sequence is over. With no sequence around it, an element was decoded alone
(R141). -/
def closeSequences (s : State) : Codec State :=
  let (stack, bound, items) := unwind s.work.pos s.work.stack s.work.endBound s.work.items
  let t : State := { s with work := { s.work with stack := stack, endBound := bound, items := items } }
  match bound with
  | some e =>
    if s.work.pos < e then .ok { t with work := { t.work with phase := .header .value } } else finishSequence t
  | none =>
    match items.getLast? with
    | some x => .ok (endTransaction (.element (.ok (s.work.pos, x))) t)
    | none => .error (.broken .noProgress)

/-- A scalar element is done: its value joins the current sequence and the cursor passes its content (R141). -/
def deliver (n : Nat) (x : Value) (s : State) : Codec State :=
  closeSequences { s with work := { s.work with pos := s.work.pos + n, items := s.work.items ++ [x] } }

/-- The content of a container starts at the cursor (R151, R152): the sequence around it waits on the stack. -/
def enterContainer (kind : ContainerKind) (n : Nat) (s : State) : Codec State :=
  closeSequences
    { s with
      work :=
        { s.work with
          stack := ⟨kind, s.work.endBound, s.work.items⟩ :: s.work.stack
          endBound := some (s.work.pos + n)
          items := [] } }

/-! ### Headers -/

/-- What follows a header at a tag position: the tag is dispatched. -/
def headerDone : Phase → Phase
  | .header ctx => .tag ctx
  | p => p

/-- DECODE_TAG_LENGTH (R101) with a length form of `hdr - 1` octets that gives `n`: the content must lie in the
buffer; then tag, length and first content byte are held, or returned when the operation was exposed alone. -/
def latchHeader (hdr n : Nat) (s : State) : Codec State := do
  contentInBuffer s.buf s.work.pos hdr n
  let tag ← memReadByte s.buf s.work.pos
  match s.work.entry with
  | .tagLength => return endTransaction (.tagLength (.ok (tag, n, s.work.pos + hdr))) s
  | _ =>
    return { s with
      work :=
        { s.work with
          phase := headerDone s.work.phase, tagPos := s.work.pos, tag := tag, len := n, pos := s.work.pos + hdr } }

/-! ### PDU fields -/

/-- A fixed field is done (R174 to R177): the record is updated, the cursor passes the content and the next element of
the PDU follows. -/
def fieldDone (f : PduField) (n : Nat) (d : GoosePdu) (s : State) : Codec State :=
  .ok { s with work := { s.work with pdu := d, pos := s.work.pos + n, phase := .header f.next } }

end Sys2Proof.Machine
end

