-- ==== Sys2Proof/Machine/FrameElements.lean ====
section
/-! DEFINITION. The meanings of the frame rows: the ethertype words and the PRP trailer (R203 to R208). -/

namespace Sys2Proof.Machine

/-- ETH_VLAN_MARKER (R203): the VLAN id is the TCI's low 12 bits; the real ethertype is read next, 4 bytes on. -/
def execEthVlanMarker (tci : BitVec 16) (s : State) : Host.Outcome State Fault Refusal :=
  commit s
    (.ok
      { s with
        work :=
          { s.work with
            eth := { s.work.eth with vlan := some (tci.extractLsb' 0 12) }
            pos := s.work.pos + Cfg.vlanTagBytes
            phase := .innerEthertype } })

/-- ETH_GOOSE_ETHERTYPE (R204, R205): the GOOSE header is stored as read, unchecked; the PDU follows it (R206). -/
def execEthGooseEthertype (h : GooseHeader) (s : State) : Host.Outcome State Fault Refusal :=
  commit s (.ok { s with work := { s.work with goose := h, pos := s.work.pos + 10, phase := .header .pdu } })

/-- ETH_OTHER_ETHERTYPE (R204): the frame belongs to other traffic; DECODE returns `None`, which is no error. -/
def execEthOtherEthertype (s : State) : Host.Outcome State Fault Refusal :=
  commit s (.ok (endTransaction (.decode none) s))

/-- PRP_TRAILER (R208): LAN A or B, else MalformedPrpLan at the LAN/size word; the packet is then complete. -/
def execPrpTrailer (seq : BitVec 16) (id : BitVec 4) (size : BitVec 12) (s : State) :
    Host.Outcome State Fault Refusal :=
  commit s
    (match lanOf s.cfg id with
    | some lan => .ok (finishFrame s (some ⟨seq, lan, size⟩))
    | none => raise .malformedPrpLan (s.work.pos + 2))

end Sys2Proof.Machine
end

