-- ==== Sys2Proof/Machine/Lengths.lean ====
section
/-! DEFINITION. The meanings of the length rows: DECODE_TAG_LENGTH by the form of its first length octet (R72, R73,
R101). The cursor is at the element's tag byte, where every error is positioned. -/

namespace Sys2Proof.Machine

/-- LEN_SHORT (R101). -/
def execLenShort (n : BitVec 7) (s : State) : Host.Outcome State Fault Refusal := commit s (latchHeader 2 n.toNat s)

/-- LEN_LONG_1 (R101). -/
def execLenLong1 (n : BitVec 8) (s : State) : Host.Outcome State Fault Refusal := commit s (latchHeader 3 n.toNat s)

/-- LEN_LONG_2 (R101). -/
def execLenLong2 (n : BitVec 16) (s : State) : Host.Outcome State Fault Refusal := commit s (latchHeader 4 n.toNat s)

/-- LEN_LONG_3 (R101). -/
def execLenLong3 (n : BitVec 24) (s : State) : Host.Outcome State Fault Refusal := commit s (latchHeader 5 n.toNat s)

/-- LEN_LONG_4 (R101). -/
def execLenLong4 (n : BitVec 32) (s : State) : Host.Outcome State Fault Refusal := commit s (latchHeader 6 n.toNat s)

/-- LEN_MALFORMED_INDEFINITE (R73): the indefinite form raises MalformedLength at the tag. -/
def execLenMalformedIndefinite (s : State) : Host.Outcome State Fault Refusal :=
  commit s (raise .malformedLength s.work.pos)

/-- LEN_MALFORMED_TOO_LONG (R73): MalformedLength at the tag where the first octet asks for more than
`MAX_LEN_OCTETS` octets (R101). A configuration with more than the table's four octets reads such a length as
R101 does. -/
def execLenMalformedTooLong (first : Byte) (s : State) : Host.Outcome State Fault Refusal :=
  commit s
    (if first.toNat ≤ 0x80 ∨ first.toNat > 0x80 + s.cfg.maxLenOctets then raise .malformedLength s.work.pos
    else do
      let n ← longLength s.buf s.work.pos (first.toNat - 0x80)
      latchHeader (2 + (first.toNat - 0x80)) n s)

end Sys2Proof.Machine
end

