-- ==== Sys2Proof/Machine/PduElements.lean ====
section
/-! DEFINITION. The meanings of the PDU rows (R171 to R180). The header is read: the cursor is at the content. The tag
of a fixed field is not looked at (R178). -/

namespace Sys2Proof.Machine

/-- PDU (R171, R172): its tag is checked, its declared end kept (R181), the first field follows. -/
def execPdu (tag : Byte) (n : Nat) (s : State) : Host.Outcome State Fault Refusal :=
  commit s
    (if tag ≠ s.cfg.ptagPdu then raise .pduTagMismatch s.work.tagPos
    else .ok { s with work := { s.work with pduEnd := s.work.pos + n, phase := .header (.field .gocbRef) } })

/-- PDU_GOCBREF: FIELD_STRING (R174). -/
def execPduGocbRef (c : List Byte) (s : State) : Host.Outcome State Fault Refusal :=
  commit s (fieldDone .gocbRef c.length { s.work.pdu with gocbRef := c } s)

/-- PDU_TIME_ALLOWED_TO_LIVE: FIELD_U32 (R175). -/
def execPduTimeAllowedToLive (c : List Byte) (s : State) : Host.Outcome State Fault Refusal :=
  commit s do
    let x ← decU32 s.work.tagPos c
    fieldDone .timeAllowedToLive c.length { s.work.pdu with timeAllowedToLive := x } s

/-- PDU_DATSET: FIELD_STRING (R174). -/
def execPduDatSet (c : List Byte) (s : State) : Host.Outcome State Fault Refusal :=
  commit s (fieldDone .datSet c.length { s.work.pdu with datSet := c } s)

/-- PDU_GOID: FIELD_STRING (R174). -/
def execPduGoId (c : List Byte) (s : State) : Host.Outcome State Fault Refusal :=
  commit s (fieldDone .goID c.length { s.work.pdu with goID := c } s)

/-- PDU_T: FIELD_TIME (R177). -/
def execPduT (c : List Byte) (s : State) : Host.Outcome State Fault Refusal :=
  commit s do
    let u ← decTime s.work.tagPos c
    fieldDone .t c.length { s.work.pdu with t := u } s

/-- PDU_STNUM: FIELD_U32 (R175). -/
def execPduStNum (c : List Byte) (s : State) : Host.Outcome State Fault Refusal :=
  commit s do
    let x ← decU32 s.work.tagPos c
    fieldDone .stNum c.length { s.work.pdu with stNum := x } s

/-- PDU_SQNUM: FIELD_U32 (R175). -/
def execPduSqNum (c : List Byte) (s : State) : Host.Outcome State Fault Refusal :=
  commit s do
    let x ← decU32 s.work.tagPos c
    fieldDone .sqNum c.length { s.work.pdu with sqNum := x } s

/-- PDU_SIMULATION: FIELD_BOOL (R176). -/
def execPduSimulation (c : List Byte) (s : State) : Host.Outcome State Fault Refusal :=
  commit s do
    let b ← decBoolean s.work.tagPos c
    fieldDone .simulation c.length { s.work.pdu with simulation := b } s

/-- PDU_CONFREV: FIELD_U32 (R175). -/
def execPduConfRev (c : List Byte) (s : State) : Host.Outcome State Fault Refusal :=
  commit s do
    let x ← decU32 s.work.tagPos c
    fieldDone .confRev c.length { s.work.pdu with confRev := x } s

/-- PDU_NDSCOM: FIELD_BOOL (R176). -/
def execPduNdsCom (c : List Byte) (s : State) : Host.Outcome State Fault Refusal :=
  commit s do
    let b ← decBoolean s.work.tagPos c
    fieldDone .ndsCom c.length { s.work.pdu with ndsCom := b } s

/-- PDU_NUM_DAT_SET_ENTRIES: FIELD_U32 (R175); compared with the list only after AllData (R180). -/
def execPduNumDatSetEntries (c : List Byte) (s : State) : Host.Outcome State Fault Refusal :=
  commit s do
    let x ← decU32 s.work.tagPos c
    fieldDone .numDatSetEntries c.length { s.work.pdu with numDatSetEntries := x } s

/-- PDU_ALLDATA (R179): its tag is checked, then its content is a sequence of value elements. -/
def execPduAllData (tag : Byte) (n : Nat) (s : State) : Host.Outcome State Fault Refusal :=
  commit s
    (if tag ≠ s.cfg.ptagAllData then raise .allDataTagMismatch s.work.tagPos
    else
      closeSequences
        { s with
          work :=
            { s.work with
              allDataPos := s.work.tagPos, stack := [], endBound := some (s.work.pos + n), items := [] } })

end Sys2Proof.Machine
end

