-- ==== Sys2Proof/Machine/Requests.lean ====
section
/-! DEFINITION. The meanings of the two external requests. Each is one atomic transaction (R5, D34): one step from
request to outcome. -/

namespace Sys2Proof.Machine

/-- The response of DECODE (R242). -/
def decodeResponse : Codec (Option GoosePacket) → Except Fault Response
  | .ok none => .ok (.decode none)
  | .ok (some p) => .ok (.decode (some (.ok p)))
  | .error (.raised e) => .ok (.decode (some (.error e)))
  | .error (.broken f) => .error f

/-- DECODE (R200): the outcome stands and the buffer is unchanged (R53). While a transaction is in progress the request
is refused (R63). -/
def execDecode (hand : Option Memory) (start : Nat) (s : State) : Host.Outcome State Fault Refusal :=
  match s.work.phase with
  | .idle =>
    match decodeResponse (decodeFrame s.cfg (handOver hand s).buf start) with
    | .ok r => .next (endTransaction r (handOver hand s))
    | .error f => .fault f
  | _ => .refused .transactionInProgress

/-- ENCODE (R210): the frame is written whole and the byte count is the outcome, or nothing is written and the error is
(R216, R217, R243, R280). While a transaction is in progress the request is refused (R63). -/
def execEncode (k : GoosePacket) (hand : Option Memory) (start : Nat) (s : State) : Host.Outcome State Fault Refusal :=
  match s.work.phase with
  | .idle =>
    match encodeInto s.cfg (handOver hand s).buf k start with
    | .ok (m, n) => .next (endTransaction (.encode (.ok n)) { handOver hand s with buf := m })
    | .error (.raised e) => .next (endTransaction (.encode (.error e)) (handOver hand s))
    | .error (.broken f) => .fault f
  | _ => .refused .transactionInProgress

end Sys2Proof.Machine
end

