-- ==== Sys2Proof/Machine/ValueElements.lean ====
section
/-! DEFINITION. The meanings of the value rows: the arms of DECODE_ELEMENT (R142 to R153). The header is read: the
cursor is at the content, and errors are positioned at the tag byte (R251). -/

namespace Sys2Proof.Machine

/-- BOOLEAN (R142, R104). -/
def execBoolean (c : List Byte) (s : State) : Host.Outcome State Fault Refusal :=
  commit s do
    let b ← decBoolean s.work.tagPos c
    deliver c.length (.boolean b) s

/-- BIT_STRING (R150, R110). -/
def execBitString (c : List Byte) (s : State) : Host.Outcome State Fault Refusal :=
  commit s do
    let x ← decBitString s.work.tagPos c
    deliver c.length x s

/-- INTEGER (R143, R105). -/
def execInteger (c : List Byte) (s : State) : Host.Outcome State Fault Refusal :=
  commit s do
    let x ← decSigned s.work.tagPos c
    deliver c.length x s

/-- UNSIGNED (R144, R106). -/
def execUnsigned (c : List Byte) (s : State) : Host.Outcome State Fault Refusal :=
  commit s do
    let x ← decUnsigned s.work.tagPos c
    deliver c.length x s

/-- FLOAT (R145, R107). -/
def execFloat (c : List Byte) (s : State) : Host.Outcome State Fault Refusal :=
  commit s do
    let x ← decFloat s.work.tagPos c
    deliver c.length x s

/-- OCTET_STRING (R146, R108). -/
def execOctetString (c : List Byte) (s : State) : Host.Outcome State Fault Refusal :=
  commit s (deliver c.length (decOctetString c) s)

/-- VISIBLE_STRING (R147, R108). -/
def execVisibleString (c : List Byte) (s : State) : Host.Outcome State Fault Refusal :=
  commit s (deliver c.length (decVisibleString c) s)

/-- MMS_STRING (R148, R108). -/
def execMmsString (c : List Byte) (s : State) : Host.Outcome State Fault Refusal :=
  commit s (deliver c.length (decMmsString c) s)

/-- UTC_TIME (R149, R109). -/
def execUtcTime (c : List Byte) (s : State) : Host.Outcome State Fault Refusal :=
  commit s do
    let x ← decUtcTime s.work.tagPos c
    deliver c.length x s

/-- ARRAY (R151): its elements are the instructions that follow, up to the declared end. -/
def execArray (n : Nat) (s : State) : Host.Outcome State Fault Refusal := commit s (enterContainer .array n s)

/-- STRUCTURE (R152): as ARRAY, only the variant differs. -/
def execStruct (n : Nat) (s : State) : Host.Outcome State Fault Refusal := commit s (enterContainer .struct n s)

/-- UNKNOWN_TAG (R153, R77): UnknownDataType at the tag byte. -/
def execUnknownTag (s : State) : Host.Outcome State Fault Refusal := commit s (raise .unknownDataType s.work.tagPos)

end Sys2Proof.Machine
end

