-- ==== Sys2Proof/Machine/Dispatch.lean ====
section
/-! DEFINITION. One arm for each instruction. -/

namespace Sys2Proof.Machine

/-- The meaning of an instruction. -/
def exec (i : Instr) (s : State) : Host.Outcome State Fault Refusal :=
  match i with
  | .boolean c => Sys2Proof.Machine.execBoolean c s
  | .bitString c => Sys2Proof.Machine.execBitString c s
  | .integer c => Sys2Proof.Machine.execInteger c s
  | .unsigned c => Sys2Proof.Machine.execUnsigned c s
  | .float c => Sys2Proof.Machine.execFloat c s
  | .octetString c => Sys2Proof.Machine.execOctetString c s
  | .visibleString c => Sys2Proof.Machine.execVisibleString c s
  | .mmsString c => Sys2Proof.Machine.execMmsString c s
  | .utcTime c => Sys2Proof.Machine.execUtcTime c s
  | .array n => Sys2Proof.Machine.execArray n s
  | .struct n => Sys2Proof.Machine.execStruct n s
  | .unknownTag _ _ => Sys2Proof.Machine.execUnknownTag s
  | .pdu tag n => Sys2Proof.Machine.execPdu tag n s
  | .pduGocbRef _ c => Sys2Proof.Machine.execPduGocbRef c s
  | .pduTimeAllowedToLive _ c => Sys2Proof.Machine.execPduTimeAllowedToLive c s
  | .pduDatSet _ c => Sys2Proof.Machine.execPduDatSet c s
  | .pduGoId _ c => Sys2Proof.Machine.execPduGoId c s
  | .pduT _ c => Sys2Proof.Machine.execPduT c s
  | .pduStNum _ c => Sys2Proof.Machine.execPduStNum c s
  | .pduSqNum _ c => Sys2Proof.Machine.execPduSqNum c s
  | .pduSimulation _ c => Sys2Proof.Machine.execPduSimulation c s
  | .pduConfRev _ c => Sys2Proof.Machine.execPduConfRev c s
  | .pduNdsCom _ c => Sys2Proof.Machine.execPduNdsCom c s
  | .pduNumDatSetEntries _ c => Sys2Proof.Machine.execPduNumDatSetEntries c s
  | .pduAllData tag n => Sys2Proof.Machine.execPduAllData tag n s
  | .lenShort n => Sys2Proof.Machine.execLenShort n s
  | .lenLong1 n => Sys2Proof.Machine.execLenLong1 n s
  | .lenLong2 n => Sys2Proof.Machine.execLenLong2 n s
  | .lenLong3 n => Sys2Proof.Machine.execLenLong3 n s
  | .lenLong4 n => Sys2Proof.Machine.execLenLong4 n s
  | .lenMalformedIndefinite => Sys2Proof.Machine.execLenMalformedIndefinite s
  | .lenMalformedTooLong first => Sys2Proof.Machine.execLenMalformedTooLong first s
  | .ethVlanMarker tci _ => Sys2Proof.Machine.execEthVlanMarker tci s
  | .ethGooseEthertype h => Sys2Proof.Machine.execEthGooseEthertype h s
  | .ethOtherEthertype _ => Sys2Proof.Machine.execEthOtherEthertype s
  | .prpTrailer seq lanId size => Sys2Proof.Machine.execPrpTrailer seq lanId size s
  | .encode k hand start => Sys2Proof.Machine.execEncode k hand start s
  | .decode hand start => Sys2Proof.Machine.execDecode hand start s

end Sys2Proof.Machine
end

