-- ==== Sys2Proof/Decode.lean ====
section
/-! DEFINITION. The decoder, total on any bytes, and the encoder (30_encoding.md). The position decides what a byte
means (R84); every refusal has a name. -/

namespace Sys2Proof

/-- Why bytes are no instruction. -/
inductive DecodeReject where
  /-- the bytes end before the instruction does; `off` is the offset, from the instruction's first byte, of the fixed
  read that fails (R203, R205), 0 for an element (R101) -/
  | tooShort (off : Nat)
  /-- the length octets are malformed (R73), met when a whole element is read at once -/
  | malformedLength
  /-- six bytes that do not end in the PRP marker (R207) -/
  | noPrpMarker
  /-- a request is no byte string (R25) -/
  | notBytes
  deriving DecidableEq, Repr

open Machine (be bytesBE word16 word16Bytes lengthOctets)

/-! ### The rows of the table -/

/-- The value row of a tag byte (R75), an unknown one where no row has it (R77). The order is that of R141. -/
def valueInstr (cfg : Cfg) (tag : Byte) (len : Nat) (content : List Byte) : Instr :=
  if tag = cfg.tagArray then .array len
  else if tag = cfg.tagStructure then .struct len
  else if tag = cfg.tagBoolean then .boolean content
  else if tag = cfg.tagInteger then .integer content
  else if tag = cfg.tagUnsigned then .unsigned content
  else if tag = cfg.tagFloat then .float content
  else if tag = cfg.tagOctetString then .octetString content
  else if tag = cfg.tagVisibleString then .visibleString content
  else if tag = cfg.tagMmsString then .mmsString content
  else if tag = cfg.tagUtcTime then .utcTime content
  else if tag = cfg.tagBitString then .bitString content
  else .unknownTag tag content

/-- The PDU field row of a position: the tag is kept and not looked up (R78, R178). -/
def fieldInstr (tag : Byte) (content : List Byte) : PduField → Instr
  | .gocbRef => .pduGocbRef tag content
  | .timeAllowedToLive => .pduTimeAllowedToLive tag content
  | .datSet => .pduDatSet tag content
  | .goID => .pduGoId tag content
  | .t => .pduT tag content
  | .stNum => .pduStNum tag content
  | .sqNum => .pduSqNum tag content
  | .simulation => .pduSimulation tag content
  | .confRev => .pduConfRev tag content
  | .ndsCom => .pduNdsCom tag content
  | .numDatSetEntries => .pduNumDatSetEntries tag content

/-- The instruction a tag byte stands for at its position, its content length and bytes known (R84, R87). -/
def tagInstr (cfg : Cfg) (ctx : TagContext) (tag : Byte) (len : Nat) (content : List Byte) : Instr :=
  match ctx with
  | .value => valueInstr cfg tag len content
  | .pdu => .pdu tag len
  | .field f => fieldInstr tag content f
  | .allData => .pduAllData tag len

/-- The length row of the bytes that start at the first length octet (R72, R73). -/
def decodeLength (cfg : Cfg) : List Byte → Except DecodeReject Instr
  | [] => .error (.tooShort 0)
  | l0 :: rest =>
    if l0.toNat < 0x80 then .ok (.lenShort (l0.setWidth 7))
    else if l0.toNat = 0x80 then .ok .lenMalformedIndefinite
    else if tooManyLengthOctets cfg l0 then .ok (.lenMalformedTooLong l0)
    else if rest.length < l0.toNat - 0x80 then .error (.tooShort 0)
    else
      match l0.toNat - 0x80 with
      | 1 => .ok (.lenLong1 (BitVec.ofNat 8 (be (rest.take 1))))
      | 2 => .ok (.lenLong2 (BitVec.ofNat 16 (be (rest.take 2))))
      | 3 => .ok (.lenLong3 (BitVec.ofNat 24 (be (rest.take 3))))
      | _ => .ok (.lenLong4 (BitVec.ofNat 32 (be (rest.take 4))))

/-- The ethertype row of the bytes that start at an ethertype word; only the first word can be the VLAN marker
(R203, R204). -/
def decodeEthertype (cfg : Cfg) (first : Bool) : List Byte → Except DecodeReject Instr
  | hi :: lo :: rest =>
    if first ∧ word16 hi lo = cfg.ethertypeVlan then
      match rest with
      | t1 :: t0 :: e1 :: e0 :: _ => .ok (.ethVlanMarker (word16 t1 t0) (word16 e1 e0))
      | _ => .error (.tooShort 2)
    else if word16 hi lo = cfg.ethertypeGoose then
      match rest with
      | a1 :: a0 :: l1 :: l0 :: r1 :: r0 :: q1 :: q0 :: _ =>
        .ok (.ethGooseEthertype ⟨word16 a1 a0, word16 l1 l0, word16 r1 r0, word16 q1 q0⟩)
      | _ => .error (.tooShort 2)
    else .ok (.ethOtherEthertype (word16 hi lo))
  | _ => .error (.tooShort 0)

/-- The PRP trailer row (R81): LAN id in bits [15:12] of the second word, frame size in bits [11:0]. -/
def decodeTrailer (cfg : Cfg) : List Byte → Except DecodeReject Instr
  | s1 :: s0 :: w1 :: w0 :: m1 :: m0 :: _ =>
    if word16 m1 m0 = cfg.prpSuffix then
      .ok (.prpTrailer (word16 s1 s0) ((word16 w1 w0).extractLsb' 12 4) ((word16 w1 w0).extractLsb' 0 12))
    else .error .noPrpMarker
  | _ => .error (.tooShort 0)

/-- The content length a length row gives, `none` for a malformed one. -/
def Instr.lengthValue : Instr → Option Nat
  | .lenShort n => some n.toNat
  | .lenLong1 n => some n.toNat
  | .lenLong2 n => some n.toNat
  | .lenLong3 n => some n.toNat
  | .lenLong4 n => some n.toNat
  | _ => none

/-- How many length octets follow the tag in a length row (R72). -/
def Instr.lengthOctetCount : Instr → Nat
  | .lenLong1 _ => 2
  | .lenLong2 _ => 3
  | .lenLong3 _ => 4
  | .lenLong4 _ => 5
  | _ => 1

/-- A whole element, tag, length octets and content, at a tag position (R70). Of a container only the header is part
of the instruction: its content is the instructions that follow. -/
def decodeWhole (cfg : Cfg) (ctx : TagContext) : List Byte → Except DecodeReject Instr
  | [] => .error (.tooShort 0)
  | tag :: rest =>
    match decodeLength cfg rest with
    | .error e => .error e
    | .ok li =>
      match li.lengthValue with
      | none => .error .malformedLength
      | some len =>
        match tagInstr cfg ctx tag len ((rest.drop li.lengthOctetCount).take len) with
        | .array n => .ok (.array n)
        | .struct n => .ok (.struct n)
        | .pdu t n => .ok (.pdu t n)
        | .pduAllData t n => .ok (.pduAllData t n)
        | i => if (rest.drop li.lengthOctetCount).length < len then .error (.tooShort 0) else .ok i

/-- The decoder: the instruction that the bytes at a position start with. -/
def decode (cfg : Cfg) : Position → List Byte → Except DecodeReject Instr
  | .ethertype, bs => decodeEthertype cfg true bs
  | .innerEthertype, bs => decodeEthertype cfg false bs
  | .length, bs => decodeLength cfg bs
  | .tag ctx, bs => decodeWhole cfg ctx bs
  | .trailer, bs => decodeTrailer cfg bs
  | .request, _ => .error .notBytes

/-! ### The encoder -/

/-- A tag byte and its length octets, then `body` (R70). -/
def encodeWith (cfg : Cfg) (tag : Byte) (len : Nat) (body : List Byte) : Option (List Byte) :=
  (lengthOctets cfg len).map fun o => tag :: (o ++ body)

/-- The bytes of an instruction (R70 to R83): `none` for a request, and for a length no length octets hold. -/
def encode (cfg : Cfg) : Instr → Option (List Byte)
  | .boolean c => encodeWith cfg cfg.tagBoolean c.length c
  | .bitString c => encodeWith cfg cfg.tagBitString c.length c
  | .integer c => encodeWith cfg cfg.tagInteger c.length c
  | .unsigned c => encodeWith cfg cfg.tagUnsigned c.length c
  | .float c => encodeWith cfg cfg.tagFloat c.length c
  | .octetString c => encodeWith cfg cfg.tagOctetString c.length c
  | .visibleString c => encodeWith cfg cfg.tagVisibleString c.length c
  | .mmsString c => encodeWith cfg cfg.tagMmsString c.length c
  | .utcTime c => encodeWith cfg cfg.tagUtcTime c.length c
  | .array n => encodeWith cfg cfg.tagArray n []
  | .struct n => encodeWith cfg cfg.tagStructure n []
  | .unknownTag t c => encodeWith cfg t c.length c
  | .pdu t n => encodeWith cfg t n []
  | .pduGocbRef t c => encodeWith cfg t c.length c
  | .pduTimeAllowedToLive t c => encodeWith cfg t c.length c
  | .pduDatSet t c => encodeWith cfg t c.length c
  | .pduGoId t c => encodeWith cfg t c.length c
  | .pduT t c => encodeWith cfg t c.length c
  | .pduStNum t c => encodeWith cfg t c.length c
  | .pduSqNum t c => encodeWith cfg t c.length c
  | .pduSimulation t c => encodeWith cfg t c.length c
  | .pduConfRev t c => encodeWith cfg t c.length c
  | .pduNdsCom t c => encodeWith cfg t c.length c
  | .pduNumDatSetEntries t c => encodeWith cfg t c.length c
  | .pduAllData t n => encodeWith cfg t n []
  | .lenShort n => some [n.setWidth 8]
  | .lenLong1 n => some (0x81#8 :: bytesBE n.toNat 1)
  | .lenLong2 n => some (0x82#8 :: bytesBE n.toNat 2)
  | .lenLong3 n => some (0x83#8 :: bytesBE n.toNat 3)
  | .lenLong4 n => some (0x84#8 :: bytesBE n.toNat 4)
  | .lenMalformedIndefinite => some [0x80#8]
  | .lenMalformedTooLong l0 => some [l0]
  | .ethVlanMarker tci inner => some (word16Bytes cfg.ethertypeVlan ++ word16Bytes tci ++ word16Bytes inner)
  | .ethGooseEthertype h =>
    some (word16Bytes cfg.ethertypeGoose ++ word16Bytes h.appid ++ word16Bytes h.length ++ word16Bytes h.reserved1 ++
      word16Bytes h.reserved2)
  | .ethOtherEthertype w => some (word16Bytes w)
  | .prpTrailer seq lanId size => some (word16Bytes seq ++ word16Bytes (lanId ++ size) ++ word16Bytes cfg.prpSuffix)
  | .encode _ _ _ => none
  | .decode _ _ => none

/-! ### The rows by their bits alone -/

/-- The PDU position whose tag the table gives this byte (R78). -/
def pduTagContext (cfg : Cfg) (b : Byte) : Option TagContext :=
  if b = cfg.ptagPdu then some .pdu
  else if b = cfg.ptagGocbRef then some (.field .gocbRef)
  else if b = cfg.ptagTal then some (.field .timeAllowedToLive)
  else if b = cfg.ptagDatSet then some (.field .datSet)
  else if b = cfg.ptagGoId then some (.field .goID)
  else if b = cfg.ptagT then some (.field .t)
  else if b = cfg.ptagStNum then some (.field .stNum)
  else if b = cfg.ptagSqNum then some (.field .sqNum)
  else if b = cfg.ptagSimulation then some (.field .simulation)
  else if b = cfg.ptagConfRev then some (.field .confRev)
  else if b = cfg.ptagNdsCom then some (.field .ndsCom)
  else if b = cfg.ptagNumDatSetEntries then some (.field .numDatSetEntries)
  else if b = cfg.ptagAllData then some .allData
  else none

/-- A position at which the table has a row of these bits. The same byte is a value tag, a PDU tag and a length octet
by position (R84); a word alone has no position, so the value table is asked first, then the PDU table, then the
length octets, and a byte in none of them is an unknown tag (log entry 6). -/
def wordPosition (cfg : Cfg) (nbits w : Nat) : Option Position :=
  if nbits = 8 then
    let b := BitVec.ofNat 8 w
    if b ∈ cfg.valueTags then some (.tag .value)
    else
      match pduTagContext cfg b with
      | some ctx => some (.tag ctx)
      | none => if b.toNat < 0x80 then some .length else some (.tag .value)
  else if nbits = 16 then
    if BitVec.ofNat 16 w = cfg.prpSuffix then some .trailer else some .ethertype
  else none

/-- How many zero bytes stand after the bits the table gives: more than the longest layout of table bits and zeros,
127 content bytes after a short length octet. -/
def wordPadding : Nat := 128

/-- The bytes of the instruction whose table bits are `w` and whose other bits are 0, as they stand at a position: a
16-bit word is big-endian (R55), and a PRP trailer's word is its last (R81). -/
def wordBytes (p : Position) (w : Nat) : List Byte :=
  match p with
  | .ethertype | .innerEthertype => bytesBE w 2 ++ List.replicate wordPadding 0#8
  | .trailer => List.replicate 4 0#8 ++ bytesBE w 2
  | .length | .tag _ | .request => BitVec.ofNat 8 w :: List.replicate wordPadding 0#8

/-- The instruction the decoder reads from the bits of a table row, under the default configuration. -/
def decodeTableWord (nbits w : Nat) : Option Instr :=
  match wordPosition Cfg.default nbits w with
  | none => none
  | some p =>
    match decode Cfg.default p (wordBytes p w) with
    | .ok i => some i
    | .error _ => none

end Sys2Proof
end

