-- ==== Sys2Proof/Machine/Fetch.lean ====
section
/-! DEFINITION. Fetching the next instruction at the cursor (R50, R84, R87), and taking a request (R25). -/

namespace Sys2Proof.Machine

/-- The instruction the bytes at an address stand for; bytes that end too soon raise BufferTooShort at the failing
fixed read (R203, R205), or at the element's tag byte `at` (R101). -/
def fetchAt (s : State) (p : Position) (addr at' : Nat) : Codec Instr :=
  match decode s.cfg p (bytesFrom s.buf addr) with
  | .ok i => .ok i
  | .error (.tooShort off) => raise .bufferTooShort (at' + off)
  | .error .malformedLength => raise .malformedLength at'
  | .error .noPrpMarker => .error (.broken .noInstruction)
  | .error .notBytes => .error (.broken .noInstruction)

/-- The next instruction of the transaction in progress. At a tag the header is already held, and the content is read at
the cursor (R141: in bounds by R101). -/
def fetch (s : State) : Codec Instr :=
  match s.work.phase with
  | .idle => .error (.broken .noInstruction)
  | .ethertype => fetchAt s .ethertype s.work.pos s.work.pos
  | .innerEthertype => fetchAt s .innerEthertype s.work.pos s.work.pos
  | .header _ => fetchAt s .length (s.work.pos + 1) s.work.pos
  | .tag ctx => do
    let c ← memRead s.buf s.work.pos s.work.len
    return tagInstr s.cfg ctx s.work.tag s.work.len c
  | .trailer => fetchAt s .trailer s.work.pos s.work.pos

/-- The state an exposed operation (R6) opens, its buffer handed over. -/
def takeExposed (entry : Entry) (hand : Option Memory) (start : Nat) (s : State) :
    Host.Outcome State Fault Refusal :=
  commit { handOver hand s with work := { Work.idle with entry := entry } } (openTransaction entry start (handOver hand s))

/-- The instruction of an external request (R25), none for an exposed operation. -/
def Request.instr : Request → Option Instr
  | .encode k hand start => some (.encode k hand start)
  | .decode hand start => some (.decode hand start)
  | .expose _ _ _ => none

end Sys2Proof.Machine
end

