-- ==== Sys2Proof/Machine/Step.lean ====
section
/-! DEFINITION. One step of the block. -/

namespace Sys2Proof.Machine

/-- One step. An idle block takes the oldest request: ENCODE or DECODE is one whole transaction (R5, D34), an exposed
operation (R6) is opened. With no request it stays as it is (R270). A transaction in progress runs the instruction at
the cursor; an error that fetching raises ends it (R244). -/
def step (s : State) : Host.Outcome State Fault Refusal :=
  match s.work.phase with
  | .idle =>
    match s.requests with
    | [] => .next s
    | .encode k hand start :: rs => exec (.encode k hand start) { s with requests := rs }
    | .decode hand start :: rs => exec (.decode hand start) { s with requests := rs }
    | .expose entry hand start :: rs => takeExposed entry hand start { s with requests := rs }
  | _ =>
    match fetch s with
    | .ok i => exec i s
    | .error e => commit s (.error e)

/-- The working values in which the next instruction is read at position `p` of a buffer that holds `wordBytes p w`
at `wordBase p`: the transaction is open, and a tag's header (the tag byte and a zero length octet) is read. -/
def wordWork (p : Position) (w : Nat) : Work :=
  match p with
  | .ethertype => { Work.idle with entry := .frame, phase := .ethertype, pos := 12 }
  | .innerEthertype => { Work.idle with entry := .frame, phase := .innerEthertype, pos := 12 }
  | .length => { Work.idle with entry := .tagLength, phase := .header .value, pos := 0 }
  | .tag .value => { Work.idle with entry := .element, phase := .tag .value, tag := BitVec.ofNat 8 w, pos := 2 }
  | .tag ctx => { Work.idle with entry := .pdu, phase := .tag ctx, tag := BitVec.ofNat 8 w, pos := 2 }
  | .trailer => { Work.idle with entry := .frame, phase := .trailer, pos := 0 }
  | .request => Work.idle

/-- Zero bytes before the instruction: the MAC addresses of a frame (R79), the tag byte before a length octet (R70). -/
def wordBase : Position → Nat
  | .ethertype | .innerEthertype => 12
  | .length => 1
  | .tag _ | .trailer | .request => 0

/-- The state with the instruction of a table word placed where the next step fetches: the buffer holds its bytes, and
the transaction stands at its position (log entry 5). -/
def State.withFetchWord (s : State) (nbits w : Nat) : State :=
  match wordPosition Cfg.default nbits w with
  | none => s
  | some p =>
    { s with buf := memOfBytes (List.replicate (wordBase p) 0#8 ++ wordBytes p w), work := wordWork p w }

end Sys2Proof.Machine
end

