-- ==== Sys2Proof/Safety.lean ====
section
/-! DEFINITION. The terms claims are made in: well-formed requests, the states a run can be in, and the named results
of value rows. -/

namespace Sys2Proof.Machine

/-- A request hands over its buffer, where it has one, in canonical form. -/
def Request.wf : Request → Bool
  | .encode _ hand _ => handWf hand
  | .decode hand _ => handWf hand
  | .expose _ hand _ => handWf hand

/-- The end bound is none exactly outside every sequence (R39): with no sequence open nothing encloses it, and each
enclosing container stands in a sequence or is the element decoded alone. -/
def stackWf : Option Nat → List Frame → Bool
  | none, [] => true
  | none, _ :: _ => false
  | some _, [] => true
  | some _, f :: fs => stackWf f.endBound fs

/-- What holds in every state a run of the block is in. -/
structure State.Inv (s : State) : Prop where
  /-- the buffer is in canonical form -/
  bufWf : s.buf.wf = true
  /-- so is every buffer still to be handed over -/
  requestsWf : ∀ r ∈ s.requests, r.wf = true
  /-- between transactions nothing of a transaction is left (R20, R39) -/
  idleClean : s.work.phase = .idle → s.work = Work.idle
  /-- a header is held only where the whole content lies in the buffer (R101), the tag at least two bytes before it -/
  contentInside : ∀ ctx, s.work.phase = .tag ctx → s.work.pos + s.work.len ≤ s.buf.len ∧ s.work.tagPos + 2 ≤ s.work.pos
  /-- a trailer is read only where six bytes remain and end in the marker (R207) -/
  trailerThere : s.work.phase = .trailer →
    s.work.pos + Cfg.prpTrailerBytes = s.buf.len ∧ trailerPresent s.cfg s.buf s.work.pos = .ok true
  /-- the cursor of a frame stays inside the buffer (R23, R52) -/
  cursorInside : s.work.entry = .frame → s.work.phase ≠ .idle → s.work.pos ≤ s.buf.len
  /-- the end bound and the containers agree (R39) -/
  stackAgrees : stackWf s.work.endBound s.work.stack = true

/-- The current sequence goes on after `n` more content bytes (R154). -/
def State.more (s : State) (n : Nat) : Prop := ∃ e, s.work.endBound = some e ∧ s.work.pos + n < e

/-- The containers `fs`, innermost first, all end at or before `pos`, where the sequence inside the innermost is bounded
by `b`; the sequence around the outermost of them is bounded by `b'` (R154, R156). -/
def leaves (pos : Nat) : Option Nat → List Frame → Option Nat → Prop
  | b, [], b' => b = b'
  | some e, f :: fs, b' => e ≤ pos ∧ leaves pos f.endBound fs b'
  | none, _ :: _, _ => False

/-- The list around the outermost of the containers `fs`, innermost first, when all of them are left: the list of each
is one element of the sequence around it (R151, R152). -/
def gathered : List Frame → List Value → List Value
  | [], items => items
  | f :: fs, items => gathered fs (f.items ++ [wrapItems f.kind items])

/-- The state in which a value has joined the current sequence: the cursor has passed its `n` content bytes, the next
header comes, and everything else is unchanged. -/
def State.appended (s : State) (n : Nat) (x : Value) : State :=
  { s with
    work := { s.work with pos := s.work.pos + n, items := s.work.items ++ [x], phase := .header .value } }

/-- The state in which a fixed PDU field is done: the record is `d`, the cursor has passed the `n` content bytes, the
element after the field comes, and everything else is unchanged. -/
def State.fielded (s : State) (f : PduField) (n : Nat) (d : GoosePdu) : State :=
  { s with work := { s.work with pdu := d, pos := s.work.pos + n, phase := .header f.next } }

/-- The state in which an element's header is held after `hdr` bytes: the content length is `n`, and everything else
is unchanged. -/
def State.headed (s : State) (ctx : TagContext) (tag : Byte) (hdr n : Nat) : State :=
  { s with
    work :=
      { s.work with phase := .tag ctx, tagPos := s.work.pos, tag := tag, len := n, pos := s.work.pos + hdr } }

/-- The state in which an error has ended the transaction. -/
def State.failed (s : State) (reason : ErrorReason) (pos : Nat) : State := takeError ⟨reason, pos⟩ s

/-- The bytes of a content length that is legal for an unsigned element (R76). -/
def legalUnsigned (c : List Byte) : Prop :=
  1 ≤ c.length ∧ c.length ≤ 4 ∨ c.length = 5 ∧ c.headD 0#8 = 0x00#8

end Sys2Proof.Machine
end

