-- ==== Sys2Proof/Certificates/Slice0/Obligations.lean ====
section
/-! DEFINITION. The statements for the provers. The rows of the table run one a step in a stepwise transaction, which is
the model's form of R6 and R22 (log entry 3); a statement about the state between two such steps is about that form. -/

open Sys2Proof Sys2Proof.Machine

/-! ### Encodings (30_encoding.md) -/

/-- Sanity: words written out from R72, R75, R78, R80, R81 and R82 decode to the instructions they stand for. -/
def Obligations.DecodeReadsWrittenWords : Prop :=
  decode Cfg.default (.tag .value) [0x85#8, 0x02#8, 0xFF#8, 0x7F#8] = .ok (.integer [0xFF#8, 0x7F#8]) ∧
  decode Cfg.default (.tag .value) [0xA2#8, 0x81#8, 0x03#8] = .ok (.struct 3) ∧
  decode Cfg.default (.tag (.field .goID)) [0x83#8, 0x01#8, 0x41#8] = .ok (.pduGoId 0x83#8 [0x41#8]) ∧
  decode Cfg.default .length [0x82#8, 0x01#8, 0x02#8] = .ok (.lenLong2 0x0102#16) ∧
  decode Cfg.default .ethertype [0x81#8, 0x00#8, 0xE0#8, 0x05#8, 0x88#8, 0xB8#8] =
    .ok (.ethVlanMarker 0xE005#16 0x88B8#16) ∧
  decode Cfg.default .trailer [0x00#8, 0x07#8, 0xA0#8, 0x4B#8, 0x88#8, 0xFB#8] = .ok (.prpTrailer 7#16 0xA#4 0x04B#12)

/-- Decode and encode agree: every well-formed instruction that is bytes has an encoding, and the decoder reads it back
from those bytes, whatever follows them. -/
def Obligations.DecodeInvertsEncode : Prop :=
  ∀ (cfg : Cfg) (p : Position) (i : Instr), cfg.Valid → p ≠ .request → i.wf cfg p = true →
    ∃ bs, encode cfg i = some bs ∧ ∀ rest, decode cfg p (bs ++ rest) = .ok i

/-- The decoder answers only instructions that are well-formed at the position it reads. -/
def Obligations.DecodedInstructionsAreWellFormed : Prop :=
  ∀ (cfg : Cfg) (p : Position) (bs : List Byte) (i : Instr), decode cfg p bs = .ok i → i.wf cfg p = true

/-- ENCODE_LENGTH (R102): one octet below 128; else `0x80 + n` and `n` octets, `n` the smallest count that holds the
length; LengthOverflow at the start offset from 2^32 on. The octet counts are those R102 tabulates. -/
def Obligations.EncodeLengthIsShortest : Prop :=
  ∀ (cfg : Cfg) (start len : Nat), cfg.maxLenOctets = 4 →
    (len < 0x80 → encodeLength cfg start len = .ok [BitVec.ofNat 8 len] ∧ lenOctets cfg len = 1) ∧
    (0x80 ≤ len → len < 2 ^ 32 → ∃ n, 1 ≤ n ∧ n ≤ 4 ∧ len < 256 ^ n ∧ (∀ k, 1 ≤ k → k < n → 256 ^ k ≤ len) ∧
      encodeLength cfg start len = .ok (BitVec.ofNat 8 (0x80 + n) :: bytesBE len n) ∧ lenOctets cfg len = 1 + n) ∧
    (2 ^ 32 ≤ len → encodeLength cfg start len = raise .lengthOverflow start)

/-- DECODE_TAG_LENGTH reads back what ENCODE_LENGTH wrote: the tag, the length and the first content byte. -/
def Obligations.TagLengthReadsEncodedLength : Prop :=
  ∀ (cfg : Cfg) (m : Memory) (pos len start : Nat) (tag : Byte) (o : List Byte), cfg.Valid →
    encodeLength cfg start len = .ok o → memRead m pos (1 + o.length) = .ok (tag :: o) →
    pos + 1 + o.length + len ≤ m.len → decodeTagLength cfg m pos = .ok (tag, len, pos + 1 + o.length)

/-! ### Length rows (R101, R73) -/

/-- The five legal length forms: with the content inside the buffer the header is held, the cursor stands at the
content, and nothing else changes. -/
def Obligations.LengthRowsHoldTheHeader : Prop :=
  ∀ (s : State) (ctx : TagContext) (tag : Byte), s.work.phase = .header ctx → s.work.entry ≠ .tagLength →
    memByte? s.buf s.work.pos = some tag →
    (∀ n : BitVec 7, s.work.pos + 2 + n.toNat ≤ s.buf.len →
      exec (.lenShort n) s = .next (s.headed ctx tag 2 n.toNat)) ∧
    (∀ n : BitVec 8, s.work.pos + 3 + n.toNat ≤ s.buf.len →
      exec (.lenLong1 n) s = .next (s.headed ctx tag 3 n.toNat)) ∧
    (∀ n : BitVec 16, s.work.pos + 4 + n.toNat ≤ s.buf.len →
      exec (.lenLong2 n) s = .next (s.headed ctx tag 4 n.toNat)) ∧
    (∀ n : BitVec 24, s.work.pos + 5 + n.toNat ≤ s.buf.len →
      exec (.lenLong3 n) s = .next (s.headed ctx tag 5 n.toNat)) ∧
    (∀ n : BitVec 32, s.work.pos + 6 + n.toNat ≤ s.buf.len →
      exec (.lenLong4 n) s = .next (s.headed ctx tag 6 n.toNat))

/-- DECODE_TAG_LENGTH exposed alone (R6, R101) returns the tag, the length and the first content byte, and the
transaction is over, for each of the five legal length forms. That the operation is exposed is the model's choice (log
entry 3). -/
def Obligations.LoneTagLengthIsReturned : Prop :=
  ∀ (s : State) (tag : Byte), s.work.entry = .tagLength → memByte? s.buf s.work.pos = some tag →
    (∀ n : BitVec 7, s.work.pos + 2 + n.toNat ≤ s.buf.len → exec (.lenShort n) s =
      .next (endTransaction (.tagLength (.ok (tag, n.toNat, s.work.pos + 2))) s)) ∧
    (∀ n : BitVec 8, s.work.pos + 3 + n.toNat ≤ s.buf.len → exec (.lenLong1 n) s =
      .next (endTransaction (.tagLength (.ok (tag, n.toNat, s.work.pos + 3))) s)) ∧
    (∀ n : BitVec 16, s.work.pos + 4 + n.toNat ≤ s.buf.len → exec (.lenLong2 n) s =
      .next (endTransaction (.tagLength (.ok (tag, n.toNat, s.work.pos + 4))) s)) ∧
    (∀ n : BitVec 24, s.work.pos + 5 + n.toNat ≤ s.buf.len → exec (.lenLong3 n) s =
      .next (endTransaction (.tagLength (.ok (tag, n.toNat, s.work.pos + 5))) s)) ∧
    (∀ n : BitVec 32, s.work.pos + 6 + n.toNat ≤ s.buf.len → exec (.lenLong4 n) s =
      .next (endTransaction (.tagLength (.ok (tag, n.toNat, s.work.pos + 6))) s))

/-- Content that would run past the buffer's end raises BufferTooShort at the tag, for each length form. -/
def Obligations.LengthRowsStopAtTheBufferEnd : Prop :=
  ∀ s : State,
    (∀ n : BitVec 7, s.buf.len < s.work.pos + 2 + n.toNat →
      exec (.lenShort n) s = .next (s.failed .bufferTooShort s.work.pos)) ∧
    (∀ n : BitVec 8, s.buf.len < s.work.pos + 3 + n.toNat →
      exec (.lenLong1 n) s = .next (s.failed .bufferTooShort s.work.pos)) ∧
    (∀ n : BitVec 16, s.buf.len < s.work.pos + 4 + n.toNat →
      exec (.lenLong2 n) s = .next (s.failed .bufferTooShort s.work.pos)) ∧
    (∀ n : BitVec 24, s.buf.len < s.work.pos + 5 + n.toNat →
      exec (.lenLong3 n) s = .next (s.failed .bufferTooShort s.work.pos)) ∧
    (∀ n : BitVec 32, s.buf.len < s.work.pos + 6 + n.toNat →
      exec (.lenLong4 n) s = .next (s.failed .bufferTooShort s.work.pos))

/-- R73: a first length octet of 0x80, or of 0x85 to 0xFF, raises MalformedLength at the tag, in both malformed length
rows and in DECODE_TAG_LENGTH itself. -/
def Obligations.MalformedLengthsRaise : Prop :=
  ∀ s : State, s.cfg.maxLenOctets = 4 →
    exec .lenMalformedIndefinite s = .next (s.failed .malformedLength s.work.pos) ∧
    (∀ first : Byte, 0x85 ≤ first.toNat →
      exec (.lenMalformedTooLong first) s = .next (s.failed .malformedLength s.work.pos)) ∧
    (∀ (pos : Nat) (tag first : Byte), memRead s.buf pos 2 = .ok [tag, first] →
      first.toNat = 0x80 ∨ 0x85 ≤ first.toNat → decodeTagLength s.cfg s.buf pos = raise .malformedLength pos)

/-! ### Numbers (R119, R120) -/

/-- DEC_SIGNED reads back the number ENC_SIGNED writes, for every 64-bit integer, in the variant of its minimal width,
and ENC_SIGNED writes at most 8 bytes. -/
def Obligations.SignedNumbersSurvive : Prop :=
  ∀ (v : Int) (p : Nat), -(2 ^ 63) ≤ v → v < 2 ^ 63 →
    (encSigned v).length = signedWidth v ∧ signedWidth v ≤ 8 ∧
    decSigned p (encSigned v) = .ok (normSigned v) ∧ integerNumber (normSigned v) = some v

/-- DEC_UNSIGNED reads back the number ENC_UNSIGNED writes, for every 32-bit magnitude, and ENC_UNSIGNED writes at most
5 bytes. -/
def Obligations.UnsignedNumbersSurvive : Prop :=
  ∀ v p : Nat, v < 2 ^ 32 →
    (encUnsigned v).length = unsignedWidth v ∧ unsignedWidth v ≤ 5 ∧
    decUnsigned p (encUnsigned v) = .ok (normUnsigned v) ∧ integerNumber (normUnsigned v) = some (v : Int)

/-- The widths ENC_SIGNED and ENC_UNSIGNED choose are minimal (R112, R113): no fewer bytes hold the number. -/
def Obligations.EncodedWidthsAreMinimal : Prop :=
  (∀ (v : Int) (n : Nat), 1 ≤ n → n < signedWidth v → v < -(2 ^ (8 * n - 1)) ∨ 2 ^ (8 * n - 1) ≤ v) ∧
  (∀ v n : Nat, 1 ≤ n → n < unsignedWidth v → 2 ^ (8 * n - 1) ≤ v)

/-- Float patterns pass through encoder and decoder bit for bit, whatever the prefixes are configured to. -/
def Obligations.FloatPatternsSurvive : Prop :=
  (∀ (cfg : Cfg) (p : Nat) (w : BitVec 32), decFloat p (encFloat32 cfg w) = .ok (.float32 w)) ∧
  (∀ (cfg : Cfg) (p : Nat) (w : BitVec 64), decFloat p (encFloat64 cfg w) = .ok (.float64 w))

/-! ### Value rows (R142 to R153) -/

/-- BOOLEAN, INTEGER and UNSIGNED inside a sequence that goes on: for every legal length the value joins the sequence,
in the variant its length selects and with the number its content is. Nothing else changes. -/
def Obligations.NumberElementsJoinTheSequence : Prop :=
  (∀ (s : State) (b : Byte), s.more 1 →
    exec (.boolean [b]) s = .next (s.appended 1 (.boolean (decide (b ≠ 0x00#8))))) ∧
  (∀ (s : State) (c : List Byte), s.more c.length → 1 ≤ c.length → c.length ≤ 8 →
    ∃ x, exec (.integer c) s = .next (s.appended c.length x) ∧ integerNumber x = some (sext c) ∧
      (c.length = 1 → ∃ v, x = .int8 v) ∧ (c.length = 2 → ∃ v, x = .int16 v) ∧
      (3 ≤ c.length → c.length ≤ 4 → ∃ v, x = .int32 v) ∧ (5 ≤ c.length → ∃ v, x = .int64 v)) ∧
  (∀ (s : State) (c : List Byte), s.more c.length → legalUnsigned c →
    ∃ x, exec (.unsigned c) s = .next (s.appended c.length x) ∧ integerNumber x = some (be c : Int) ∧
      (c.length = 1 → ∃ v, x = .uint8 v) ∧ (c.length = 2 → ∃ v, x = .uint16 v) ∧
      (3 ≤ c.length → ∃ v, x = .uint32 v))

/-- FLOAT, the strings, UTC_TIME and BIT_STRING inside a sequence that goes on: the value joins the sequence with its
bytes unchanged. Nothing else changes. -/
def Obligations.RawElementsJoinTheSequence : Prop :=
  (∀ (s : State) (b : Byte) (w : BitVec 32), s.more 5 →
    exec (.float (b :: bytesBE w.toNat 4)) s = .next (s.appended 5 (.float32 w))) ∧
  (∀ (s : State) (b : Byte) (w : BitVec 64), s.more 9 →
    exec (.float (b :: bytesBE w.toNat 8)) s = .next (s.appended 9 (.float64 w))) ∧
  (∀ (s : State) (c : List Byte), s.more c.length →
    exec (.octetString c) s = .next (s.appended c.length (.octetString c)) ∧
    exec (.visibleString c) s = .next (s.appended c.length (.visibleString c)) ∧
    exec (.mmsString c) s = .next (s.appended c.length (.mmsString c))) ∧
  (∀ (s : State) (u : Octets 8), s.more 8 → exec (.utcTime u.toList) s = .next (s.appended 8 (.utcTime u))) ∧
  (∀ (s : State) (p : Fin 8) (bits : List Byte), s.more (1 + bits.length) →
    exec (.bitString (BitVec.ofNat 8 p.val :: bits)) s = .next (s.appended (1 + bits.length) (.bitString p bits)))

/-- Illegal content lengths and padding (R76), and unknown tags (R77), raise their reason at the tag byte: the
transaction is over and the buffer, the configuration and the requests are unchanged. -/
def Obligations.IllegalContentRaises : Prop :=
  (∀ (s : State) (c : List Byte), c.length ≠ 1 →
    exec (.boolean c) s = .next (s.failed .unsupportedWidth s.work.tagPos)) ∧
  (∀ (s : State) (c : List Byte), c.length = 0 ∨ 8 < c.length →
    exec (.integer c) s = .next (s.failed .unsupportedWidth s.work.tagPos)) ∧
  (∀ s : State, exec (.unsigned []) s = .next (s.failed .unsupportedWidth s.work.tagPos)) ∧
  (∀ (s : State) (c : List Byte), c.length = 5 ∧ c.headD 0#8 ≠ 0x00#8 ∨ 6 ≤ c.length →
    exec (.unsigned c) s = .next (s.failed .oversizeUnsigned s.work.tagPos)) ∧
  (∀ (s : State) (c : List Byte), c.length ≠ 5 → c.length ≠ 9 →
    exec (.float c) s = .next (s.failed .unsupportedWidth s.work.tagPos)) ∧
  (∀ (s : State) (c : List Byte), c.length ≠ 8 →
    exec (.utcTime c) s = .next (s.failed .unsupportedWidth s.work.tagPos)) ∧
  (∀ s : State, exec (.bitString []) s = .next (s.failed .unsupportedWidth s.work.tagPos)) ∧
  (∀ (s : State) (b : Byte) (bits : List Byte), 7 < b.toNat →
    exec (.bitString (b :: bits)) s = .next (s.failed .invalidBitStringPadding s.work.tagPos)) ∧
  (∀ (s : State) (t : Byte) (c : List Byte),
    exec (.unknownTag t c) s = .next (s.failed .unknownDataType s.work.tagPos))

/-- ARRAY and STRUCTURE (R151, R152). With content the container is entered: the sequence around it waits on the stack,
its first element's header comes next, nothing else changes. With no content it is an element at once, delivered as a
scalar is whatever surrounds it; inside a sequence that goes on it joins the sequence. -/
def Obligations.ContainersAreEntered : Prop :=
  ∀ s : State,
    (∀ n, 0 < n →
      exec (.array n) s = .next { s with
        work := { s.work with
          stack := ⟨.array, s.work.endBound, s.work.items⟩ :: s.work.stack
          endBound := some (s.work.pos + n), items := [], phase := .header .value } } ∧
      exec (.struct n) s = .next { s with
        work := { s.work with
          stack := ⟨.struct, s.work.endBound, s.work.items⟩ :: s.work.stack
          endBound := some (s.work.pos + n), items := [], phase := .header .value } }) ∧
    exec (.array 0) s = commit s (deliver 0 (.array .nil) s) ∧
    exec (.struct 0) s = commit s (deliver 0 (.struct .nil) s) ∧
    (s.more 0 → exec (.array 0) s = .next (s.appended 0 (.array .nil)) ∧
      exec (.struct 0) s = .next (s.appended 0 (.struct .nil)))

/-- An element that reaches or passes the end of the containers it stands in closes them, however many: `f` is the
outermost of them, `inner` those inside it. The list of each becomes one value of the sequence around it. The sequence
around `f` goes on where the element ended, not at the declared end (R151, R152, R156); where `f` ends the outermost
sequence of an exposed DECODE_SEQUENCE too, that list is returned (R154); where `f` was decoded alone, its value is
(R141). -/
def Obligations.LastElementClosesTheContainer : Prop :=
  ∀ (s : State) (n e : Nat) (x : Value) (inner rest : List Frame) (f : Frame),
    s.work.stack = inner ++ f :: rest → leaves (s.work.pos + n) s.work.endBound inner (some e) →
    e ≤ s.work.pos + n →
    let v := wrapItems f.kind (gathered inner (s.work.items ++ [x]))
    (∀ e', f.endBound = some e' → s.work.pos + n < e' →
      deliver n x s = .ok { s with
        work := { s.work with
          pos := s.work.pos + n, stack := rest, endBound := some e', items := f.items ++ [v]
          phase := .header .value } }) ∧
    (∀ e' b, f.endBound = some e' → e' ≤ s.work.pos + n → rest = [] → s.work.entry = .sequence b →
      deliver n x s = .ok (endTransaction (.sequence (.ok (s.work.pos + n, f.items ++ [v]))) s)) ∧
    (f.endBound = none → deliver n x s = .ok (endTransaction (.element (.ok (s.work.pos + n, v))) s))

/-- An element that ends the outermost sequence of an exposed DECODE_SEQUENCE returns the list and the position the
sequence stopped at (R154); an element decoded alone is returned with the position after it (R141). The transaction is
over. -/
def Obligations.LastElementReturnsTheResult : Prop :=
  ∀ (s : State) (n : Nat) (x : Value), s.work.stack = [] →
    (∀ e b, s.work.entry = .sequence b → s.work.endBound = some e → e ≤ s.work.pos + n →
      deliver n x s = .ok (endTransaction (.sequence (.ok (s.work.pos + n, s.work.items ++ [x]))) s)) ∧
    (s.work.endBound = none → deliver n x s = .ok (endTransaction (.element (.ok (s.work.pos + n, x))) s))

/-- Every value row does the same with its value once the content is legal: it is delivered to the sequence it stands
in, with the cursor past the content. The rows differ in the value only. -/
def Obligations.ValueRowsDeliverTheirValue : Prop :=
  ∀ (s : State) (c : List Byte) (x : Value),
    (∀ b, decBoolean s.work.tagPos c = .ok b → exec (.boolean c) s = commit s (deliver c.length (.boolean b) s)) ∧
    (decSigned s.work.tagPos c = .ok x → exec (.integer c) s = commit s (deliver c.length x s)) ∧
    (decUnsigned s.work.tagPos c = .ok x → exec (.unsigned c) s = commit s (deliver c.length x s)) ∧
    (decFloat s.work.tagPos c = .ok x → exec (.float c) s = commit s (deliver c.length x s)) ∧
    (decUtcTime s.work.tagPos c = .ok x → exec (.utcTime c) s = commit s (deliver c.length x s)) ∧
    (decBitString s.work.tagPos c = .ok x → exec (.bitString c) s = commit s (deliver c.length x s)) ∧
    exec (.octetString c) s = commit s (deliver c.length (.octetString c) s) ∧
    exec (.visibleString c) s = commit s (deliver c.length (.visibleString c) s) ∧
    exec (.mmsString c) s = commit s (deliver c.length (.mmsString c) s)

/-! ### PDU rows (R171 to R180) -/

/-- PDU: with its tag the declared end is kept and the first field comes next; with another tag PduTagMismatch is raised
at the tag. -/
def Obligations.PduTagIsChecked : Prop :=
  ∀ (s : State) (n : Nat),
    exec (.pdu s.cfg.ptagPdu n) s = .next { s with
      work := { s.work with pduEnd := s.work.pos + n, phase := .header (.field .gocbRef) } } ∧
    (∀ tag, tag ≠ s.cfg.ptagPdu → exec (.pdu tag n) s = .next (s.failed .pduTagMismatch s.work.tagPos))

/-- FIELD_STRING, FIELD_BOOL and FIELD_TIME (R174, R176, R177), with any tag byte: a string field is its raw content,
any nonzero byte is true, the 8 timestamp bytes are kept; the next field follows and nothing else changes. -/
def Obligations.RawFieldsHoldTheirContent : Prop :=
  ∀ (s : State) (tag b : Byte) (c : List Byte) (u : Octets 8),
    exec (.pduGocbRef tag c) s = .next (s.fielded .gocbRef c.length { s.work.pdu with gocbRef := c }) ∧
    exec (.pduDatSet tag c) s = .next (s.fielded .datSet c.length { s.work.pdu with datSet := c }) ∧
    exec (.pduGoId tag c) s = .next (s.fielded .goID c.length { s.work.pdu with goID := c }) ∧
    exec (.pduSimulation tag [b]) s =
      .next (s.fielded .simulation 1 { s.work.pdu with simulation := decide (b ≠ 0x00#8) }) ∧
    exec (.pduNdsCom tag [b]) s = .next (s.fielded .ndsCom 1 { s.work.pdu with ndsCom := decide (b ≠ 0x00#8) }) ∧
    exec (.pduT tag u.toList) s = .next (s.fielded .t 8 { s.work.pdu with t := u })

/-- FIELD_U32 (R175) for the five u32 fields, with any tag byte: a legal content gives the field its number. -/
def Obligations.NumberFieldsHoldTheirNumber : Prop :=
  ∀ (s : State) (tag : Byte) (c : List Byte), legalUnsigned c → ∃ x : BitVec 32, x.toNat = be c ∧
    exec (.pduTimeAllowedToLive tag c) s =
      .next (s.fielded .timeAllowedToLive c.length { s.work.pdu with timeAllowedToLive := x }) ∧
    exec (.pduStNum tag c) s = .next (s.fielded .stNum c.length { s.work.pdu with stNum := x }) ∧
    exec (.pduSqNum tag c) s = .next (s.fielded .sqNum c.length { s.work.pdu with sqNum := x }) ∧
    exec (.pduConfRev tag c) s = .next (s.fielded .confRev c.length { s.work.pdu with confRev := x }) ∧
    exec (.pduNumDatSetEntries tag c) s =
      .next (s.fielded .numDatSetEntries c.length { s.work.pdu with numDatSetEntries := x })

/-- Illegal content lengths of the PDU fields (R175 to R177) raise their reason at the field's tag. -/
def Obligations.IllegalFieldsRaise : Prop :=
  ∀ (s : State) (tag : Byte) (c : List Byte),
    (c.length ≠ 1 →
      exec (.pduSimulation tag c) s = .next (s.failed .unsupportedWidth s.work.tagPos) ∧
      exec (.pduNdsCom tag c) s = .next (s.failed .unsupportedWidth s.work.tagPos)) ∧
    (c.length ≠ 8 → exec (.pduT tag c) s = .next (s.failed .unsupportedWidth s.work.tagPos)) ∧
    (∀ i ∈ [Instr.pduTimeAllowedToLive tag c, .pduStNum tag c, .pduSqNum tag c, .pduConfRev tag c,
        .pduNumDatSetEntries tag c],
      (c.length = 0 → exec i s = .next (s.failed .unsupportedWidth s.work.tagPos)) ∧
      (c.length = 5 ∧ c.headD 0#8 ≠ 0x00#8 ∨ 6 ≤ c.length →
        exec i s = .next (s.failed .oversizeUnsigned s.work.tagPos)))

/-- PDU_ALLDATA (R179): with its tag and content the sequence of data elements opens. With no content the entry count
is compared at once (R180): a count that is not 0 raises EntryCountMismatch at the AllData tag; with count 0 an exposed
DECODE_PDU returns the record, and a frame goes on to its trailer where there is one, else ends. With another tag
AllDataTagMismatch is raised at the tag. -/
def Obligations.AllDataTagIsChecked : Prop :=
  ∀ (s : State) (n : Nat),
    (0 < n → exec (.pduAllData s.cfg.ptagAllData n) s = .next { s with
      work := { s.work with
        allDataPos := s.work.tagPos, stack := [], endBound := some (s.work.pos + n), items := []
        phase := .header .value } }) ∧
    (s.work.entry = .pdu ∨ s.work.entry = .frame → s.work.pdu.numDatSetEntries ≠ 0#32 →
      exec (.pduAllData s.cfg.ptagAllData 0) s = .next (s.failed .entryCountMismatch s.work.tagPos)) ∧
    (s.work.entry = .pdu → s.work.pdu.numDatSetEntries = 0#32 →
      exec (.pduAllData s.cfg.ptagAllData 0) s =
        .next (endTransaction (.pdu (.ok (s.work.pduEnd, { s.work.pdu with allData := [] }))) s)) ∧
    (s.work.entry = .frame → s.work.pdu.numDatSetEntries = 0#32 →
      (trailerPresent s.cfg s.buf s.work.pduEnd = .ok false →
        exec (.pduAllData s.cfg.ptagAllData 0) s = .next (endTransaction
          (.decode (some (.ok ⟨s.work.eth, s.work.goose, { s.work.pdu with allData := [] }, none⟩))) s)) ∧
      (trailerPresent s.cfg s.buf s.work.pduEnd = .ok true →
        exec (.pduAllData s.cfg.ptagAllData 0) s = .next { s with
          work := { s.work with
            allDataPos := s.work.tagPos, stack := [], endBound := some s.work.pos, items := []
            pdu := { s.work.pdu with allData := [] }, pos := s.work.pduEnd, phase := .trailer } })) ∧
    (∀ tag, tag ≠ s.cfg.ptagAllData → exec (.pduAllData tag n) s = .next (s.failed .allDataTagMismatch s.work.tagPos))

/-- The last element of AllData (R180), any value that any row delivers, with every container it stands in closed by it:
where the entry count is not the number of top-level elements, EntryCountMismatch is raised at the AllData tag. Where
it is, an exposed DECODE_PDU returns the record with the list and the PDU's declared end (R181), and a frame goes on
to its trailer where there is one, else ends with the record. -/
def Obligations.EntryCountIsChecked : Prop :=
  ∀ (s : State) (n e : Nat) (x : Value), s.work.entry = .pdu ∨ s.work.entry = .frame →
    leaves (s.work.pos + n) s.work.endBound s.work.stack (some e) → e ≤ s.work.pos + n →
    let xs := gathered s.work.stack (s.work.items ++ [x])
    (s.work.pdu.numDatSetEntries.toNat ≠ xs.length →
      commit s (deliver n x s) = .next (s.failed .entryCountMismatch s.work.allDataPos)) ∧
    (s.work.pdu.numDatSetEntries.toNat = xs.length →
      (s.work.entry = .pdu → commit s (deliver n x s) = .next (endTransaction
        (.pdu (.ok (s.work.pduEnd, { s.work.pdu with allData := xs }))) s)) ∧
      (s.work.entry = .frame → trailerPresent s.cfg s.buf s.work.pduEnd = .ok false →
        commit s (deliver n x s) = .next (endTransaction
          (.decode (some (.ok ⟨s.work.eth, s.work.goose, { s.work.pdu with allData := xs }, none⟩))) s)) ∧
      (s.work.entry = .frame → trailerPresent s.cfg s.buf s.work.pduEnd = .ok true →
        commit s (deliver n x s) = .next { s with
          work := { s.work with
            stack := [], endBound := some e, items := xs, pdu := { s.work.pdu with allData := xs }
            pos := s.work.pduEnd, phase := .trailer } }))

/-- The end of AllData in a frame (R207): exactly where six bytes remain after the PDU's declared end and they end in
the PRP marker, the trailer is read next; else DECODE ends with a packet without one. -/
def Obligations.TrailerIsLookedFor : Prop :=
  ∀ (s : State) (m1 m0 : Byte), s.work.entry = .frame →
    (memRead s.buf (s.work.pduEnd + 4) 2 = .ok [m1, m0] → s.work.pduEnd + 6 = s.buf.len →
      (word16 m1 m0 = s.cfg.prpSuffix →
        finishPdu s = .ok { s with work := { s.work with phase := .trailer, pos := s.work.pduEnd } }) ∧
      (word16 m1 m0 ≠ s.cfg.prpSuffix → finishPdu s = .ok (finishFrame s none))) ∧
    (s.work.pduEnd + 6 ≠ s.buf.len → finishPdu s = .ok (finishFrame s none))

/-! ### Frame rows (R203 to R208) -/

/-- ETH_VLAN_MARKER, ETH_GOOSE_ETHERTYPE and ETH_OTHER_ETHERTYPE: the VLAN id is the TCI's low 12 bits and the word 4
bytes on is read next; the GOOSE header is stored as read and the PDU comes next; other traffic ends DECODE with
`None`. -/
def Obligations.EthertypeRowsDispatch : Prop :=
  ∀ s : State,
    (∀ tci inner : BitVec 16, ∃ vid : BitVec 12, vid.toNat = tci.toNat % 0x1000 ∧
      exec (.ethVlanMarker tci inner) s = .next { s with
        work := { s.work with
          eth := { s.work.eth with vlan := some vid }, pos := s.work.pos + 4, phase := .innerEthertype } }) ∧
    (∀ h : GooseHeader, exec (.ethGooseEthertype h) s = .next { s with
      work := { s.work with goose := h, pos := s.work.pos + 10, phase := .header .pdu } }) ∧
    (∀ w : BitVec 16, exec (.ethOtherEthertype w) s = .next (endTransaction (.decode none) s))

/-- A buffer with fewer than 14 bytes from the offset gives BufferTooShort at the offset (R202). A VLAN tag or a GOOSE
header cut off by the buffer's end raises BufferTooShort two bytes after the ethertype word, at the first byte of the
read that fails (R203, R205). -/
def Obligations.CutHeadersRaise : Prop :=
  (∀ (s : State) (start : Nat), s.work.phase = .idle → s.buf.len < start + 14 →
    exec (.decode none start) s =
      .next (endTransaction (.decode (some (.error ⟨.bufferTooShort, start⟩))) s)) ∧
  ∀ (s : State) (hi lo : Byte), memRead s.buf s.work.pos 2 = .ok [hi, lo] →
    (s.work.phase = .ethertype → word16 hi lo = s.cfg.ethertypeVlan → s.buf.len < s.work.pos + 6 →
      step s = .next (s.failed .bufferTooShort (s.work.pos + 2))) ∧
    (s.work.phase = .ethertype ∧ word16 hi lo ≠ s.cfg.ethertypeVlan ∨ s.work.phase = .innerEthertype →
      word16 hi lo = s.cfg.ethertypeGoose → s.buf.len < s.work.pos + 10 →
      step s = .next (s.failed .bufferTooShort (s.work.pos + 2)))

/-- PRP_TRAILER (R208): LAN A and LAN B end DECODE with the packet and its trailer, the size stored as read; any other
designator raises MalformedPrpLan at the LAN/size word. -/
def Obligations.PrpTrailerEndsTheFrame : Prop :=
  ∀ (s : State) (seq : BitVec 16) (size : BitVec 12),
    exec (.prpTrailer seq s.cfg.prpLanA size) s = .next (endTransaction
      (.decode (some (.ok ⟨s.work.eth, s.work.goose, s.work.pdu, some ⟨seq, .A, size⟩⟩))) s) ∧
    (s.cfg.prpLanB ≠ s.cfg.prpLanA → exec (.prpTrailer seq s.cfg.prpLanB size) s = .next (endTransaction
      (.decode (some (.ok ⟨s.work.eth, s.work.goose, s.work.pdu, some ⟨seq, .B, size⟩⟩))) s)) ∧
    (∀ id, id ≠ s.cfg.prpLanA → id ≠ s.cfg.prpLanB →
      exec (.prpTrailer seq id size) s = .next (s.failed .malformedPrpLan (s.work.pos + 2)))

/-! ### Whole transactions (R200, R210) -/

/-- DECODE between transactions always completes, in one step: an outcome of DECODE stands, nothing of the transaction
is left, and nothing else changes; the buffer is the one handed over. -/
def Obligations.DecodeAlwaysAnswers : Prop :=
  ∀ (s : State) (hand : Option Memory) (start : Nat), s.work.phase = .idle →
    ∃ r, exec (.decode hand start) s = .next (endTransaction (.decode r) (handOver hand s)) ∧
      ((∃ p, decodeFrame s.cfg (handOver hand s).buf start = .ok (some p) ∧ r = some (.ok p)) ∨
        (∃ e, decodeFrame s.cfg (handOver hand s).buf start = .error (.raised e) ∧ r = some (.error e)) ∨
        (decodeFrame s.cfg (handOver hand s).buf start = .ok none ∧ r = none))

/-- R53: DECODE never writes the buffer, whatever its outcome. -/
def Obligations.DecodeNeverWrites : Prop :=
  ∀ (s t : State) (start : Nat), exec (.decode none start) s = .next t → t.buf = s.buf

/-- R201: DECODE answers `None` exactly when the header reads succeed and the resolved ethertype is not GOOSE. The
header reads need 14 bytes, and 18 where the word at s+12 is the VLAN marker. -/
def Obligations.NoneMeansOtherTraffic : Prop :=
  ∀ (s : State) (start : Nat), s.work.phase = .idle →
    (exec (.decode none start) s = .next (endTransaction (.decode none) s) ↔
      start + 14 ≤ s.buf.len ∧ ∃ hi lo, memRead s.buf (start + 12) 2 = .ok [hi, lo] ∧
        (word16 hi lo ≠ s.cfg.ethertypeVlan ∧ word16 hi lo ≠ s.cfg.ethertypeGoose ∨
          word16 hi lo = s.cfg.ethertypeVlan ∧ start + 18 ≤ s.buf.len ∧
            ∃ hi' lo', memRead s.buf (start + 16) 2 = .ok [hi', lo'] ∧ word16 hi' lo' ≠ s.cfg.ethertypeGoose))

/-- A decoded PRP trailer is the buffer's last six bytes: they end in the marker, begin with the sequence number, and the
word between holds the LAN designator above the 12-bit size (R207, R208). -/
def Obligations.TrailerIsTheLastSixBytes : Prop :=
  ∀ (cfg : Cfg) (m : Memory) (start : Nat) (k : GoosePacket) (r : PrpTrailer),
    decodeFrame cfg m start = .ok (some k) → k.prp = some r →
    ∃ w : BitVec 16, 6 ≤ m.len ∧ memRead16 m (m.len - 6) = .ok r.seq ∧ memRead16 m (m.len - 4) = .ok w ∧
      memRead16 m (m.len - 2) = .ok cfg.prpSuffix ∧ w = lanId cfg r.lan ++ r.size

/-- ENCODE writes the whole frame or nothing (R54, R243, R280). Either it answers `Ok(n)`, the frame it computed stands
at the offset, `n` bytes, and every other byte is unchanged; or it answers an error, LengthOverflow or BufferTooSmall,
positioned at the offset (R216, R217, R251), and the buffer is unchanged. That the buffer stays in canonical form is
about the model's choice of form (log entry 1). -/
def Obligations.EncodeWritesExactlyTheFrame : Prop :=
  ∀ (s t : State) (k : GoosePacket) (hand : Option Memory) (start : Nat), (handOver hand s).buf.wf = true →
    exec (.encode k hand start) s = .next t →
    (∃ (n : Nat) (f : List Byte), t.outcome = some (.encode (.ok n)) ∧ encodeFrame s.cfg k start = .ok f ∧
      f.length = n ∧ start + n ≤ t.buf.len ∧ t.buf.len = (handOver hand s).buf.len ∧ t.buf.wf = true ∧
      memRead t.buf start n = .ok f ∧
      ∀ a, a < start ∨ start + n ≤ a → memByte? t.buf a = memByte? (handOver hand s).buf a) ∨
    (∃ e : Error, t.outcome = some (.encode (.error e)) ∧ (e.reason = .lengthOverflow ∨ e.reason = .bufferTooSmall) ∧
      e.pos = start ∧ t.buf = (handOver hand s).buf)

/-- What ENCODE answers: LengthOverflow at the offset where the GOOSE length or the PRP size does not fit its field
(R217), or, with a single length octet allowed, where ENCODE_PDU has a length that octet cannot hold and so raises
(R102, R182, R210); else BufferTooSmall at the offset where the frame does not fit the buffer (R216); else the frame is
written and the answer is its length. With two or more length octets allowed the sizes alone decide. An error leaves the
buffer as it was handed over. -/
def Obligations.EncodeAnswersBySize : Prop :=
  ∀ (s : State) (k : GoosePacket) (hand : Option Memory) (start : Nat), s.work.phase = .idle → s.cfg.Valid →
    let pl := pduSize s.cfg k.pdu
    let n := 14 + (if k.eth.vlan.isSome then 4 else 0) + 8 + pl + (if k.prp.isSome then 6 else 0)
    let overflows := exec (.encode k hand start) s =
      .next (endTransaction (.encode (.error ⟨.lengthOverflow, start⟩)) (handOver hand s))
    (0xFFFF < pl + 8 ∨ k.prp.isSome ∧ 0x0FFF < 8 + pl + 6 → overflows) ∧
    (s.cfg.maxLenOctets = 1 → (∃ e, encodePdu s.cfg start k.pdu = .error e) → overflows) ∧
    ((s.cfg.maxLenOctets = 1 → ∃ bs, encodePdu s.cfg start k.pdu = .ok bs) → pl + 8 ≤ 0xFFFF →
      (k.prp.isSome → 8 + pl + 6 ≤ 0x0FFF) →
      ((handOver hand s).buf.len < start + n →
        exec (.encode k hand start) s =
          .next (endTransaction (.encode (.error ⟨.bufferTooSmall, start⟩)) (handOver hand s))) ∧
      (start + n ≤ (handOver hand s).buf.len →
        ∃ (f : List Byte) (m : Memory), encodeFrame s.cfg k start = .ok f ∧ f.length = n ∧
          memWrite (handOver hand s).buf start f = .ok m ∧
          exec (.encode k hand start) s =
            .next (endTransaction (.encode (.ok n)) { handOver hand s with buf := m })))

/-- R218: two packets that differ only in the GOOSE length, the reserved words, the PRP size and the entry count
encode alike. -/
def Obligations.ComputedFieldsAreNotRead : Prop :=
  ∀ (s : State) (k : GoosePacket) (hand : Option Memory) (start : Nat) (l r1 r2 : BitVec 16) (count : BitVec 32)
    (size : BitVec 12),
    exec (.encode { k with
        goose := { k.goose with length := l, reserved1 := r1, reserved2 := r2 }
        pdu := { k.pdu with numDatSetEntries := count }
        prp := k.prp.map fun r => { r with size := size } } hand start) s =
      exec (.encode k hand start) s

/-- R219: with a VLAN id the same packet takes exactly 4 bytes more. -/
def Obligations.VlanAddsFourBytes : Prop :=
  ∀ (cfg : Cfg) (k : GoosePacket) (vid : BitVec 12) (start : Nat) (f f' : List Byte), k.eth.vlan = none →
    encodeFrame cfg k start = .ok f → encodeFrame cfg { k with eth := { k.eth with vlan := some vid } } start = .ok f' →
    f'.length = f.length + 4 ∧ f'.take 12 = f.take 12 ∧ f'.drop 16 = f.drop 12 ∧
      (f'.drop 12).take 4 = word16Bytes cfg.ethertypeVlan ++ word16Bytes (vid.setWidth 16)

/-- R215, R220: with a PRP trailer the same packet takes exactly 6 bytes more: the sequence number, the LAN designator
above the size of the GOOSE payload and trailer, and the marker. -/
def Obligations.PrpAddsSixBytes : Prop :=
  ∀ (cfg : Cfg) (k : GoosePacket) (r : PrpTrailer) (start : Nat) (f f' : List Byte),
    k.prp = none → encodeFrame cfg k start = .ok f →
    encodeFrame cfg { k with prp := some r } start = .ok f' →
    f' = f ++ word16Bytes r.seq ++ word16Bytes (lanId cfg r.lan ++ BitVec.ofNat 12 (8 + pduSize cfg k.pdu + 6)) ++
      word16Bytes cfg.prpSuffix

/-! ### Round trips (R160, R184, R221) -/

/-- R158: the encoded sizes are the ones computed without writing. -/
def Obligations.SizesAreKnownBeforeWriting : Prop :=
  (∀ (cfg : Cfg) (start : Nat) (x : Value) (bs : List Byte),
    encodeValue cfg start x = .ok bs → bs.length = valueSize cfg x) ∧
  (∀ (cfg : Cfg) (start : Nat) (d : GoosePdu) (bs : List Byte),
    encodePdu cfg start d = .ok bs → bs.length = pduSize cfg d)

/-- R160: DECODE_ELEMENT reads every encoded value back in its normal form and stops right after it, wherever the bytes
stand; a value comes back equivalent to what it was, and equal exactly when it is in normal form. -/
def Obligations.ValuesRoundTrip : Prop :=
  ∀ (cfg : Cfg) (m : Memory) (x : Value) (start p : Nat) (bs : List Byte), cfg.Valid →
    encodeValue cfg start x = .ok bs → memRead m p bs.length = .ok bs →
    decodeElement cfg m (decodeFuel m p) p = .ok (p + valueSize cfg x, norm x) ∧
    norm (norm x) = norm x ∧
    (decodeElement cfg m (decodeFuel m p) p = .ok (p + valueSize cfg x, x) ↔ norm x = x)

/-- R159: normalising twice is normalising once, and a value and its normal form have the same encoding. -/
def Obligations.NormalFormsAreStable : Prop :=
  ∀ (cfg : Cfg) (start : Nat) (x : Value),
    norm (norm x) = norm x ∧ encodeValue cfg start (norm x) = encodeValue cfg start x

/-- R184: DECODE_PDU of ENCODE_PDU gives every field back, the entry count as the number of elements and the elements in
normal form and so equivalent to the caller's, whatever count the caller gave. -/
def Obligations.PdusRoundTrip : Prop :=
  ∀ (cfg : Cfg) (m : Memory) (d : GoosePdu) (start p : Nat) (bs : List Byte), cfg.Valid →
    d.allData.length < 2 ^ 32 → encodePdu cfg start d = .ok bs → memRead m p bs.length = .ok bs →
    decodePdu cfg m p = .ok (p + pduSize cfg d,
      { d with numDatSetEntries := BitVec.ofNat 32 d.allData.length, allData := d.allData.map norm }) ∧
    (d.allData.map norm).map norm = d.allData.map norm

/-- R221: DECODE of what ENCODE wrote, the buffer cut to end at the frame, gives the packet back but for the fields
ENCODE computes and the normal form of its elements. -/
def Obligations.FramesRoundTrip : Prop :=
  ∀ (s t : State) (k : GoosePacket) (hand : Option Memory) (start n : Nat), s.cfg.Valid →
    (handOver hand s).buf.wf = true →
    exec (.encode k hand start) s = .next t → t.outcome = some (.encode (.ok n)) →
    exec (.decode (some (memCut t.buf (start + n))) start) t = .next (endTransaction (.decode (some (.ok
      { k with
        goose := { k.goose with
          length := BitVec.ofNat 16 (pduSize s.cfg k.pdu + 8), reserved1 := 0#16, reserved2 := 0#16 }
        pdu := { k.pdu with
          numDatSetEntries := BitVec.ofNat 32 k.pdu.allData.length, allData := k.pdu.allData.map norm }
        prp := k.prp.map fun r => { r with size := BitVec.ofNat 12 (8 + pduSize s.cfg k.pdu + 6) } })))
      { t with buf := memCut t.buf (start + n) })

/-! ### The machine -/

/-- R155: decoding an element always ends, and a decoded element moves the cursor forward by at least two bytes and
stays inside the buffer; a decoded sequence has at most one element for every two bytes. -/
def Obligations.DecodingMakesProgress : Prop :=
  ∀ (cfg : Cfg) (m : Memory) (pos bound : Nat),
    (∀ f, decodeElement cfg m (decodeFuel m pos) pos ≠ .error (.broken f)) ∧
    (∀ f, decodeSequence cfg m (decodeFuel m pos) pos bound ≠ .error (.broken f)) ∧
    (∀ q x, decodeElement cfg m (decodeFuel m pos) pos = .ok (q, x) → pos + 2 ≤ q ∧ q ≤ m.len) ∧
    (∀ q xs, decodeSequence cfg m (decodeFuel m pos) pos bound = .ok (q, xs) →
      pos + 2 * xs.length ≤ q ∧ bound ≤ q ∧ (pos ≤ m.len → q ≤ m.len))

/-- The step runs the decoded instruction: at a word or a length octet the instruction its bytes decode to; at a tag the
one the held header and the content select; and an external request as it stands, taken off the queue (log entries 3
and 7). -/
def Obligations.StepRunsTheDecodedInstruction : Prop :=
  ∀ (s : State) (i : Instr),
    (s.work.phase = .ethertype → decode s.cfg .ethertype (bytesFrom s.buf s.work.pos) = .ok i → step s = exec i s) ∧
    (s.work.phase = .innerEthertype → decode s.cfg .innerEthertype (bytesFrom s.buf s.work.pos) = .ok i →
      step s = exec i s) ∧
    (s.work.phase = .trailer → decode s.cfg .trailer (bytesFrom s.buf s.work.pos) = .ok i → step s = exec i s) ∧
    (∀ ctx, s.work.phase = .header ctx → decode s.cfg .length (bytesFrom s.buf (s.work.pos + 1)) = .ok i →
      step s = exec i s) ∧
    (∀ ctx c, s.work.phase = .tag ctx → memRead s.buf s.work.pos s.work.len = .ok c →
      step s = exec (tagInstr s.cfg ctx s.work.tag s.work.len c) s) ∧
    (∀ r rs, s.work.phase = .idle → s.requests = r :: rs → r.instr = some i → step s = exec i { s with requests := rs })

/-- The held header is the one the bytes give: after a length row has run at an element whose bytes decode, as a whole,
to an instruction, the next step runs that instruction. -/
def Obligations.HeldHeaderIsTheElement : Prop :=
  ∀ (s t : State) (ctx : TagContext) (i : Instr), s.work.phase = .header ctx → s.work.entry ≠ .tagLength →
    decode s.cfg (.tag ctx) (bytesFrom s.buf s.work.pos) = .ok i → step s = .next t → t.work.phase = .tag ctx →
    step t = exec i t

/-- A DECODE run one table row a step, the model's form of R6 and R22 (log entry 3), ends in the outcome the atomic
DECODE gives, with the block idle and the buffer as handed over. -/
def Obligations.StepwiseDecodeAgrees : Prop :=
  ∀ (s : State) (hand : Option Memory) (start : Nat) (rs : List Request), s.work.phase = .idle →
    s.requests = .expose .frame hand start :: rs →
    ∃ n t, Host.Core.run Sys2Proof.core n s = .next t ∧ exec (.decode hand start) { s with requests := rs } = .next t

/-- Every step keeps the invariant. -/
def Obligations.StepKeepsInv : Prop :=
  ∀ s t : State, s.Inv → step s = .next t → t.Inv

/-- The state after reset has the invariant; the values of its working fields are the model's choice (log entries 1 and 2). -/
def Obligations.ResetHasInv : Prop := State.reset.Inv

/-- R52, R155: from a state with the invariant no step faults and none is refused. -/
def Obligations.StepNeverStops : Prop :=
  ∀ s : State, s.Inv → ∃ t, step s = .next t

/-- R21: no instruction and no step changes the configuration. -/
def Obligations.ConfigurationIsStatic : Prop :=
  (∀ (i : Instr) (s t : State), exec i s = .next t → t.cfg = s.cfg) ∧ (∀ s t : State, step s = .next t → t.cfg = s.cfg)

/-- R53, R54: no instruction but ENCODE and DECODE touches the buffer or the request queue, whatever the state. -/
def Obligations.OnlyRequestsTouchTheBuffer : Prop :=
  ∀ (i : Instr) (s t : State), (∀ k h a, i ≠ .encode k h a) → (∀ h a, i ≠ .decode h a) → exec i s = .next t →
    t.buf = s.buf ∧ t.requests = s.requests

/-- R244: when a step of a transaction in progress ends it, whether by an error or by its result, no working value is
left and an outcome stands. The values that 'nothing left' stands for are the model's choice (log entry 2). -/
def Obligations.EndedTransactionsLeaveNothing : Prop :=
  ∀ s t : State, s.work.phase ≠ .idle → step s = .next t → t.work.phase = .idle →
    t.work = Work.idle ∧ t.outcome.isSome ∧ t.buf = s.buf

/-- R23: while a transaction goes on, a step never moves the cursor back, except to a PRP trailer, which stands at the
PDU's declared end (R181; the exception is the model's reading of R23, log entry 12). -/
def Obligations.CursorMovesForward : Prop :=
  ∀ s t : State, s.work.phase ≠ .idle → step s = .next t → t.work.phase ≠ .idle →
    s.work.pos ≤ t.work.pos ∨ t.work.phase = .trailer ∧ t.work.pos = s.work.pduEnd

/-- R20, R252, R272: the outcome of a request depends on the request, the configuration and the buffer only, not on
what came before. A request that hands over its own buffer does not depend on the buffer the block holds. -/
def Obligations.OutcomesIgnoreThePast : Prop :=
  ∀ (s s' t t' : State) (i : Instr) (hand : Option Memory),
    (∃ k a, i = .encode k hand a) ∨ (∃ a, i = .decode hand a) →
    s.cfg = s'.cfg → (hand = none → s.buf = s'.buf) → exec i s = .next t → exec i s' = .next t' →
    t.outcome = t'.outcome ∧ t.buf = t'.buf ∧ t.work = t'.work ∧ t.work.phase = .idle

/-- R63: an ENCODE or DECODE while a transaction is in progress is refused; the refusal's form is the model's (log
entry 8). -/
def Obligations.RequestsMidTransactionAreRefused : Prop :=
  ∀ s : State, s.work.phase ≠ .idle →
    (∀ k hand start, exec (.encode k hand start) s = .refused .transactionInProgress) ∧
    (∀ hand start, exec (.decode hand start) s = .refused .transactionInProgress)

/-- After reset no transaction is in progress and no outcome stands (R39, R270). The model's choices: no byte of a
buffer exists (log entry 1), and with no request the block stays as it is (log entry 7). -/
def Obligations.ResetIsIdle : Prop :=
  State.reset.work.phase = .idle ∧ State.reset.outcome = none ∧ (∀ a, memByte? State.reset.buf a = none) ∧
    (∀ s : State, s.work.phase = .idle → s.requests = [] → step s = .next s)

/-- R272: a stepwise transaction starts with the cursor at the offset (after the MAC addresses in a frame, R202), no
enclosing container, empty lists and records, and no outcome; only an exposed DECODE_SEQUENCE has an end bound, its
own. A frame with fewer than 14 bytes raises BufferTooShort at the offset; a DECODE_SEQUENCE that starts at or past its
bound is over at once with the offset and no element (R154). The field values of an empty record are the model's choice
(log entry 2). -/
def Obligations.TransactionsStartClean : Prop :=
  ∀ (s : State) (start : Nat),
    openTransaction .pdu start s =
      .ok { s with work := { Work.idle with entry := .pdu, phase := .header .pdu, pos := start }, outcome := none } ∧
    openTransaction .element start s =
      .ok { s with
        work := { Work.idle with entry := .element, phase := .header .value, pos := start }, outcome := none } ∧
    openTransaction .tagLength start s =
      .ok { s with
        work := { Work.idle with entry := .tagLength, phase := .header .value, pos := start }, outcome := none } ∧
    (∀ bound, start < bound → openTransaction (.sequence bound) start s =
      .ok { s with
        work := { Work.idle with
          entry := .sequence bound, phase := .header .value, pos := start, endBound := some bound }
        outcome := none }) ∧
    (∀ bound, bound ≤ start → openTransaction (.sequence bound) start s =
      .ok { s with work := Work.idle, outcome := some (.sequence (.ok (start, []))) }) ∧
    (s.buf.len < start + 14 → openTransaction .frame start s = raise .bufferTooShort start) ∧
    (start + 14 ≤ s.buf.len → ∃ dst src : Octets 6, memRead s.buf start 6 = .ok dst.toList ∧
      memRead s.buf (start + 6) 6 = .ok src.toList ∧
      openTransaction .frame start s = .ok { s with
        work := { Work.idle with phase := .ethertype, pos := start + 12, eth := ⟨dst, src, none⟩ }, outcome := none })

/-! ### The buffer (20_memory.md) -/

/-- A write of bytes inside the buffer is read back and leaves every other byte alone (R10, R50); a read past the end
faults (R52). The model's choices: the canonical form, which a write keeps (log entry 1), and that a write past the end
faults (log entry 13). -/
def Obligations.BufferReadsBackWrites : Prop :=
  ∀ (m : Memory) (a : Nat) (bs : List Byte), m.wf = true →
    (a + bs.length ≤ m.len → ∃ m', memWrite m a bs = .ok m' ∧ m'.wf = true ∧ m'.len = m.len ∧
      memRead m' a bs.length = .ok bs ∧ ∀ k, k < a ∨ a + bs.length ≤ k → memByte? m' k = memByte? m k) ∧
    (m.len < a + bs.length → memWrite m a bs = .error (.broken .writeOutOfBounds) ∧
      memRead m a bs.length = .error (.broken .readOutOfBounds))
end

