-- ==== Sys2Proof/Laws/Bytes.lean ====
section
/-! SUPPORT. Laws of the byte-string helpers. -/

namespace Sys2Proof.Machine

/-! ### Big-endian numbers -/

@[simp] theorem be_nil : be [] = 0 := rfl

theorem foldl_be (a : List Byte) (n : Nat) :
    a.foldl (fun acc b => acc * 256 + b.toNat) n = n * 256 ^ a.length + be a := by
  induction a generalizing n with
  | nil => simp
  | cons b bs ih =>
    rw [be, List.foldl_cons, List.foldl_cons, ih, ih (0 * 256 + b.toNat)]
    simp only [List.length_cons, pow_succ]
    ring

theorem be_append (a b : List Byte) : be (a ++ b) = be a * 256 ^ b.length + be b := by
  rw [be, List.foldl_append, foldl_be, ← be]

theorem be_cons (b : Byte) (bs : List Byte) : be (b :: bs) = b.toNat * 256 ^ bs.length + be bs := by
  rw [be, List.foldl_cons, foldl_be]; simp

theorem be_lt (a : List Byte) : be a < 256 ^ a.length := by
  induction a with
  | nil => simp
  | cons b bs ih =>
    rw [be_cons, List.length_cons, pow_succ]
    have := b.isLt
    nlinarith

@[simp] theorem bytesBE_length (v n : Nat) : (bytesBE v n).length = n := by
  induction n with
  | zero => rfl
  | succ n ih => simp [bytesBE, ih]

@[simp] theorem be_bytesBE (v n : Nat) : be (bytesBE v n) = v % 256 ^ n := by
  induction n with
  | zero => simp [bytesBE, Nat.mod_one]
  | succ n ih =>
    have h : v % 256 ^ (n + 1) = v % 256 ^ n + 256 ^ n * (v / 256 ^ n % 256) := by rw [pow_succ, Nat.mod_mul]
    rw [bytesBE, be_cons, ih, bytesBE_length, BitVec.toNat_ofNat, h, Nat.add_comm, Nat.mul_comm]

theorem be_bytesBE_of_lt {v n : Nat} (h : v < 256 ^ n) : be (bytesBE v n) = v := by
  rw [be_bytesBE, Nat.mod_eq_of_lt h]

theorem be_inj {a b : List Byte} (hl : a.length = b.length) (h : be a = be b) : a = b := by
  induction a generalizing b with
  | nil => simpa using hl.symm
  | cons x xs ih =>
    cases b with
    | nil => simp at hl
    | cons y ys =>
      simp only [List.length_cons, Nat.add_right_cancel_iff] at hl
      rw [be_cons, be_cons, hl] at h
      have h1 := be_lt xs
      have h2 := be_lt ys
      rw [hl] at h1
      have hp : 0 < 256 ^ ys.length := by positivity
      have hxy : x.toNat = y.toNat := by
        have e1 : (x.toNat * 256 ^ ys.length + be xs) / 256 ^ ys.length = x.toNat := by
          rw [Nat.add_comm, Nat.add_mul_div_right _ _ hp, Nat.div_eq_of_lt h1, Nat.zero_add]
        have e2 : (y.toNat * 256 ^ ys.length + be ys) / 256 ^ ys.length = y.toNat := by
          rw [Nat.add_comm, Nat.add_mul_div_right _ _ hp, Nat.div_eq_of_lt h2, Nat.zero_add]
        rw [← e1, h, e2]
      rw [hxy] at h
      exact List.cons_eq_cons.mpr ⟨BitVec.eq_of_toNat_eq hxy, ih hl (by omega)⟩

theorem bytesBE_be (a : List Byte) : bytesBE (be a) a.length = a :=
  be_inj (by simp) (by rw [be_bytesBE, Nat.mod_eq_of_lt (be_lt a)])

/-! ### 16-bit words -/

@[simp] theorem word16_toNat (hi lo : Byte) : (word16 hi lo).toNat = hi.toNat * 256 + lo.toNat := by
  rw [word16, BitVec.toNat_append, Nat.shiftLeft_eq, Nat.mul_comm, ← Nat.two_pow_add_eq_or_of_lt lo.isLt]

theorem word16_eq_ofNat_be (hi lo : Byte) : BitVec.ofNat 16 (be [hi, lo]) = word16 hi lo := by
  apply BitVec.eq_of_toNat_eq
  have h1 := hi.isLt
  have h2 := lo.isLt
  simp [be_cons]
  omega

theorem word16Bytes_eq (w : BitVec 16) :
    word16Bytes w = [BitVec.ofNat 8 (w.toNat / 256), BitVec.ofNat 8 w.toNat] := by
  simp [word16Bytes, bytesBE]

@[simp] theorem word16Bytes_length (w : BitVec 16) : (word16Bytes w).length = 2 := by simp [word16Bytes]

@[simp] theorem word16_of_bytes (w : BitVec 16) :
    word16 (BitVec.ofNat 8 (w.toNat / 256)) (BitVec.ofNat 8 w.toNat) = w := by
  apply BitVec.eq_of_toNat_eq
  have := w.isLt
  simp only [word16_toNat, BitVec.toNat_ofNat]
  omega

/-! ### Length octets -/

/-- What the length octets of a length are (R74, R102). -/
theorem lengthOctets_eq_some {cfg : Cfg} {len : Nat} {o : List Byte} (h : lengthOctets cfg len = some o) :
    len < 0x80 ∧ o = [BitVec.ofNat 8 len] ∨
      0x80 ≤ len ∧ ∃ n, 1 ≤ n ∧ n ≤ cfg.maxLenOctets ∧ len < 256 ^ n ∧ (∀ k, 1 ≤ k → k < n → 256 ^ k ≤ len) ∧
        o = BitVec.ofNat 8 (0x80 + n) :: bytesBE len n := by
  unfold lengthOctets at h
  split at h
  · exact .inl ⟨‹_›, by simpa using h.symm⟩
  · refine .inr ⟨by omega, ?_⟩
    split at h
    · rename_i n hn
      rw [List.find?_range'_eq_some] at hn
      obtain ⟨h1, h2, h3⟩ := hn
      simp only [List.mem_range'_1, decide_eq_true_eq, Bool.not_eq_true', decide_eq_false_iff_not, not_lt] at h1 h2 h3
      exact ⟨n, h2.1, by omega, h1, fun k hk hkn => h3 k hk hkn, by simpa using h.symm⟩
    · exact absurd h (by simp)

/-- A length has no octets exactly where not even `MAX_LEN_OCTETS` of them hold it. -/
theorem lengthOctets_eq_none {cfg : Cfg} {len : Nat} :
    lengthOctets cfg len = none ↔ 0x80 ≤ len ∧ ∀ n, 1 ≤ n → n ≤ cfg.maxLenOctets → 256 ^ n ≤ len := by
  unfold lengthOctets
  split
  · simp; omega
  · split
    · rename_i n hn
      have h1 := List.find?_some hn
      have h2 := List.mem_of_find?_eq_some hn
      simp only [List.mem_range'_1, decide_eq_true_eq] at h1 h2
      simp only [reduceCtorEq, false_iff, not_and, not_forall, not_le]
      exact fun _ => ⟨n, h2.1, by omega, h1⟩
    · rename_i hn
      simp only [List.find?_eq_none, List.mem_range'_1, decide_eq_true_eq, not_lt, and_imp] at hn
      simp only [true_iff]
      exact ⟨by omega, fun n h1 h2 => hn n h1 (by omega)⟩

/-! ### Minimal widths -/

/-- `sw` (R112): within 1 to 8, and the first width that holds the number where one does. -/
theorem signedWidth_spec {v : Int} (h1 : -(2 ^ 63) ≤ v) (h2 : v < 2 ^ 63) :
    1 ≤ signedWidth v ∧ signedWidth v ≤ 8 ∧
      -(2 ^ (8 * signedWidth v - 1) : Nat) ≤ v ∧ v ≤ (2 ^ (8 * signedWidth v - 1) : Nat) - 1 := by
  unfold signedWidth
  cases hf : (List.range' 1 8).find? fun n => -(2 ^ (8 * n - 1) : Nat) ≤ v ∧ v ≤ (2 ^ (8 * n - 1) : Nat) - 1 with
  | none =>
    rw [List.find?_eq_none] at hf
    have := hf 8 (by decide)
    norm_num at this
    omega
  | some n =>
    have a := List.find?_some hf
    have b := List.mem_of_find?_eq_some hf
    simp only [List.mem_range'_1, decide_eq_true_eq] at a b
    simp only [Option.getD_some]
    exact ⟨b.1, by omega, a.1, a.2⟩

/-- `uw` (R113): within 1 to 5, and a width that holds the number. -/
theorem unsignedWidth_spec {v : Nat} (h : v < 2 ^ 32) :
    1 ≤ unsignedWidth v ∧ unsignedWidth v ≤ 5 ∧ v ≤ 2 ^ (8 * unsignedWidth v - 1) - 1 := by
  unfold unsignedWidth
  cases hf : (List.range' 1 5).find? fun n => v ≤ 2 ^ (8 * n - 1) - 1 with
  | none =>
    rw [List.find?_eq_none] at hf
    have := hf 5 (by decide)
    norm_num at this
    omega
  | some n =>
    have a := List.find?_some hf
    have b := List.mem_of_find?_eq_some hf
    simp only [List.mem_range'_1, decide_eq_true_eq] at a b
    simp only [Option.getD_some]
    exact ⟨b.1, by omega, a⟩

@[simp] theorem encSigned_length (v : Int) : (encSigned v).length = signedWidth v := by simp [encSigned]

@[simp] theorem encUnsigned_length (v : Nat) : (encUnsigned v).length = unsignedWidth v := by simp [encUnsigned]

@[simp] theorem encFloat32_length (cfg : Cfg) (w : BitVec 32) : (encFloat32 cfg w).length = 5 := by simp [encFloat32]

@[simp] theorem encFloat64_length (cfg : Cfg) (w : BitVec 64) : (encFloat64 cfg w).length = 9 := by simp [encFloat64]

@[simp] theorem encBoolean_length (cfg : Cfg) (b : Bool) : (encBoolean cfg b).length = 1 := by
  cases b <;> rfl

@[simp] theorem encString_eq (s : List Byte) : encString s = s := rfl

@[simp] theorem encUtcTime_length (u : Octets 8) : (encUtcTime u).length = 8 := by simp [encUtcTime]

@[simp] theorem encBitString_length (p : Fin 8) (b : List Byte) : (encBitString p b).length = b.length + 1 := rfl

@[simp] theorem octets_toList (n : Nat) (u : Octets n) : octets n u.toList = u := by
  unfold octets
  rw [dif_pos (by simp)]
  rfl

theorem toList_octets {n : Nat} {c : List Byte} (h : c.length = n) : (octets n c).toList = c := by
  unfold octets
  rw [dif_pos h]
  rfl

end Sys2Proof.Machine
end

