-- ==== Sys2Proof/Laws/Memory.lean ====
section
/-! SUPPORT. Laws of the buffer: every operation keeps the canonical form, and what a byte reads as after each. -/

namespace Sys2Proof.Machine

/-! ### Listed bytes -/

/-- A canonical list stays canonical from a lower address on. -/
theorem cellsWf_mono {len lo lo' : Nat} {cs : List Host.Cell} (h : Memory.cellsWf len lo cs = true) (hl : lo' ≤ lo) :
    Memory.cellsWf len lo' cs = true := by
  cases cs with
  | nil => rfl
  | cons c cs =>
    obtain ⟨k, b⟩ := c
    simp only [Memory.cellsWf, Bool.and_eq_true, decide_eq_true_eq] at h ⊢
    exact ⟨⟨⟨by omega, h.1.1.2⟩, h.1.2⟩, h.2⟩

/-- No byte is listed below a canonical list's start. -/
theorem lookupCell_below {len lo a : Nat} {cs : List Host.Cell} (h : Memory.cellsWf len lo cs = true) (ha : a < lo) :
    lookupCell a cs = Memory.fill := by
  induction cs generalizing lo with
  | nil => rfl
  | cons c cs ih =>
    obtain ⟨k, b⟩ := c
    simp only [Memory.cellsWf, Bool.and_eq_true, decide_eq_true_eq] at h
    rw [lookupCell, if_neg (by omega), ih h.2 (by omega)]

/-- Setting a byte keeps the canonical form. -/
theorem setCell_wf {len lo a : Nat} {b : Byte} {cs : List Host.Cell} (h : Memory.cellsWf len lo cs = true)
    (h1 : lo ≤ a) (h2 : a < len) : Memory.cellsWf len lo (setCell a b cs) = true := by
  induction cs generalizing lo with
  | nil =>
    simp only [setCell]
    split
    · rfl
    · simp_all [Memory.cellsWf]
  | cons c cs ih =>
    obtain ⟨k, d⟩ := c
    have h' := h
    simp only [Memory.cellsWf, Bool.and_eq_true, decide_eq_true_eq] at h
    obtain ⟨⟨⟨k1, k2⟩, k3⟩, k4⟩ := h
    simp only [setCell]
    split
    · split
      · exact h'
      · simp only [Memory.cellsWf, Bool.and_eq_true, decide_eq_true_eq]
        exact ⟨⟨⟨h1, h2⟩, by assumption⟩, ⟨⟨⟨by omega, k2⟩, k3⟩, k4⟩⟩
    · split
      · split
        · exact cellsWf_mono k4 (by omega)
        · simp only [Memory.cellsWf, Bool.and_eq_true, decide_eq_true_eq]
          subst_vars
          exact ⟨⟨⟨h1, h2⟩, by assumption⟩, k4⟩
      · simp only [Memory.cellsWf, Bool.and_eq_true, decide_eq_true_eq]
        exact ⟨⟨⟨k1, k2⟩, k3⟩, ih k4 (by omega)⟩

/-- After setting a byte, its address reads as that byte and every other address as before. -/
theorem lookupCell_setCell {len lo a k : Nat} {b : Byte} {cs : List Host.Cell} (h : Memory.cellsWf len lo cs = true) :
    lookupCell k (setCell a b cs) = if k = a then b else lookupCell k cs := by
  induction cs generalizing lo with
  | nil =>
    simp only [setCell]
    split
    · simp_all [lookupCell]
    · simp only [lookupCell]; split <;> split <;> first | rfl | omega
  | cons c cs ih =>
    obtain ⟨j, d⟩ := c
    simp only [Memory.cellsWf, Bool.and_eq_true, decide_eq_true_eq] at h
    obtain ⟨⟨⟨j1, j2⟩, j3⟩, j4⟩ := h
    simp only [setCell]
    split
    · split
      · rename_i hb
        split
        · subst_vars
          rw [lookupCell, if_neg (by omega), lookupCell_below j4 (by omega)]
        · rfl
      · simp only [lookupCell, eq_comm]
    · split
      · split
        · subst_vars
          split
          · subst_vars; rw [lookupCell_below j4 (by omega)]
          · rw [lookupCell, if_neg (by omega)]
        · subst_vars
          simp only [lookupCell]
          split <;> split <;> first | rfl | omega
      · simp only [lookupCell, ih j4]
        split <;> split <;> first | rfl | omega

/-- Writing bytes keeps the canonical form. -/
theorem setCells_wf {len a : Nat} {bs : List Byte} {cs : List Host.Cell} (h : Memory.cellsWf len 0 cs = true)
    (hl : a + bs.length ≤ len) : Memory.cellsWf len 0 (setCells a bs cs) = true := by
  induction bs generalizing a cs with
  | nil => exact h
  | cons b bs ih =>
    simp only [List.length_cons] at hl
    exact ih (setCell_wf h (by omega) (by omega)) (by omega)

/-- After writing bytes, each written address reads as its byte and every other address as before. -/
theorem lookupCell_setCells {len a k : Nat} {bs : List Byte} {cs : List Host.Cell}
    (h : Memory.cellsWf len 0 cs = true) (hl : a + bs.length ≤ len) :
    lookupCell k (setCells a bs cs) = if a ≤ k ∧ k < a + bs.length then bs.getD (k - a) 0#8 else lookupCell k cs := by
  induction bs generalizing a cs with
  | nil => rw [if_neg (by simp only [List.length_nil]; omega)]; rfl
  | cons b bs ih =>
    simp only [List.length_cons] at hl
    rw [setCells, ih (setCell_wf h (by omega) (by omega)) (by omega), lookupCell_setCell h]
    simp only [List.length_cons]
    split
    · rw [if_pos (by omega)]
      obtain ⟨j, hj⟩ : ∃ j, k - a = j + 1 := ⟨k - a - 1, by omega⟩
      rw [hj, List.getD_cons_succ, show k - (a + 1) = j by omega]
    · split
      · subst_vars
        rw [if_pos (by omega), Nat.sub_self, List.getD_cons_zero]
      · rw [if_neg (by omega)]

/-- Keeping the bytes below an address keeps the canonical form. -/
theorem filter_wf {len lo n : Nat} {cs : List Host.Cell} (h : Memory.cellsWf len lo cs = true) :
    Memory.cellsWf (min n len) lo (cs.filter fun c => decide (c.1 < n)) = true := by
  induction cs generalizing lo with
  | nil => rfl
  | cons c cs ih =>
    obtain ⟨k, b⟩ := c
    simp only [Memory.cellsWf, Bool.and_eq_true, decide_eq_true_eq] at h
    obtain ⟨⟨⟨k1, k2⟩, k3⟩, k4⟩ := h
    rw [List.filter_cons]
    split
    · rename_i hk
      simp only [decide_eq_true_eq] at hk
      simp only [Memory.cellsWf, Bool.and_eq_true, decide_eq_true_eq]
      exact ⟨⟨⟨k1, by omega⟩, k3⟩, ih k4⟩
    · exact cellsWf_mono (ih k4) (by omega)

/-- Keeping the bytes below an address changes no byte below it. -/
theorem lookupCell_filter {n k : Nat} {cs : List Host.Cell} (hk : k < n) :
    lookupCell k (cs.filter fun c => decide (c.1 < n)) = lookupCell k cs := by
  induction cs with
  | nil => rfl
  | cons c cs ih =>
    obtain ⟨j, b⟩ := c
    rw [List.filter_cons]
    split
    · simp only [lookupCell, ih]
    · rename_i hj
      simp only [decide_eq_true_eq] at hj
      rw [ih, lookupCell, if_neg (by omega)]

/-! ### The canonical form -/

/-- The buffer after reset is in canonical form. -/
theorem reset_buf_wf : State.reset.buf.wf = true := rfl

/-- What a write answers: the same length, the bytes set, the canonical form kept. -/
theorem memWrite_eq_ok {m m' : Memory} {a : Nat} {bs : List Byte} (h : memWrite m a bs = .ok m') :
    a + bs.length ≤ m.len ∧ m' = ⟨m.len, setCells a bs m.cells⟩ ∧ (m.wf = true → m'.wf = true) := by
  unfold memWrite at h
  split at h
  · obtain rfl : _ = m' := by simpa using h
    exact ⟨by assumption, rfl, fun hw => setCells_wf hw (by assumption)⟩
  · cases h

/-- A buffer made of bytes is in canonical form. -/
theorem memOfBytes_wf (bs : List Byte) : (memOfBytes bs).wf = true :=
  setCells_wf (len := bs.length) rfl (by simp)

@[simp] theorem memOfBytes_len (bs : List Byte) : (memOfBytes bs).len = bs.length := rfl

/-- A cut buffer is in canonical form. -/
theorem memCut_wf {m : Memory} (n : Nat) (h : m.wf = true) : (memCut m n).wf = true := filter_wf h

@[simp] theorem memCut_len (m : Memory) (n : Nat) : (memCut m n).len = min n m.len := rfl

/-- A handed-over buffer keeps the form. -/
theorem handOver_buf_wf {hand : Option Memory} {s : State} (h : handWf hand = true) (hs : s.buf.wf = true) :
    (handOver hand s).buf.wf = true := by
  cases hand with
  | none => exact hs
  | some m => exact h

/-! ### Reads -/

/-- What `MemRead` answers (R52). -/
theorem memRead_eq_ok {m : Memory} {a n : Nat} {c : List Byte} :
    memRead m a n = .ok c ↔ a + n ≤ m.len ∧ c = (List.range' a n).map fun k => lookupCell k m.cells := by
  unfold memRead
  split
  · simp_all [eq_comm]
  · simp_all

theorem memRead_of_le {m : Memory} {a n : Nat} (h : a + n ≤ m.len) :
    memRead m a n = .ok ((List.range' a n).map fun k => lookupCell k m.cells) := if_pos h

theorem memRead_length {m : Memory} {a n : Nat} {c : List Byte} (h : memRead m a n = .ok c) : c.length = n := by
  rw [(memRead_eq_ok.mp h).2]; simp

/-- Only a read past the end fails, and it faults. -/
theorem memRead_eq_error {m : Memory} {a n : Nat} {e : Stop} (h : memRead m a n = .error e) :
    m.len < a + n ∧ e = .broken .readOutOfBounds := by
  unfold memRead at h
  split at h
  · cases h
  · exact ⟨by omega, by cases h; rfl⟩

theorem memReadByte_of_lt {m : Memory} {a : Nat} (h : a < m.len) : memReadByte m a = .ok (lookupCell a m.cells) := by
  rw [memReadByte, memRead_of_le (by omega)]; rfl

theorem memRead16_of_le {m : Memory} {a : Nat} (h : a + 2 ≤ m.len) :
    memRead16 m a = .ok (word16 (lookupCell a m.cells) (lookupCell (a + 1) m.cells)) := by
  rw [memRead16, memRead_of_le h, ← word16_eq_ofNat_be]; rfl

theorem memByte?_eq_some {m : Memory} {a : Nat} {b : Byte} :
    memByte? m a = some b ↔ a < m.len ∧ lookupCell a m.cells = b := by
  unfold memByte?
  split <;> simp_all

@[simp] theorem bytesFrom_length (m : Memory) (a : Nat) : (bytesFrom m a).length = m.len - a := by simp [bytesFrom]

/-- A read takes the first bytes of the buffer's rest. -/
theorem bytesFrom_take {m : Memory} {a n : Nat} {c : List Byte} (h : memRead m a n = .ok c) :
    (bytesFrom m a).take n = c := by
  obtain ⟨h1, rfl⟩ := memRead_eq_ok.mp h
  have hr : List.range' a (m.len - a) = List.range' a n ++ List.range' (a + n) (m.len - a - n) := by
    rw [List.range'_append_1, Nat.add_sub_cancel' (by omega)]
  rw [bytesFrom, hr, List.map_append, List.take_left' (by simp)]

/-- Dropping bytes moves the start. -/
theorem bytesFrom_drop (m : Memory) (a n : Nat) : (bytesFrom m a).drop n = bytesFrom m (a + n) := by
  rw [bytesFrom, bytesFrom, ← List.map_drop, List.drop_range']
  simp only [Nat.mul_one, Nat.sub_sub]

/-- The first byte of the buffer's rest. -/
theorem bytesFrom_cons {m : Memory} {a : Nat} (h : a < m.len) :
    bytesFrom m a = lookupCell a m.cells :: bytesFrom m (a + 1) := by
  obtain ⟨n, hn⟩ : ∃ n, m.len - a = n + 1 := ⟨m.len - a - 1, by omega⟩
  rw [bytesFrom, bytesFrom, hn, List.range'_succ, List.map_cons, show m.len - (a + 1) = n by omega]

theorem bytesFrom_of_le {m : Memory} {a : Nat} (h : m.len ≤ a) : bytesFrom m a = [] := by
  rw [bytesFrom, Nat.sub_eq_zero_of_le h]; rfl

/-- A buffer made of bytes holds them. -/
theorem memBytes_memOfBytes (bs : List Byte) : memBytes (memOfBytes bs) = bs := by
  apply List.ext_getElem
  · simp [memBytes]
  · intro i h1 h2
    simp only [memBytes, bytesFrom, List.getElem_map, List.getElem_range']
    rw [memOfBytes, lookupCell_setCells (len := bs.length) rfl (by simp), if_pos (by omega)]
    simp [List.getD_eq_getElem?_getD, h2]

/-- Reading inside a cut buffer is reading in the whole one. -/
theorem memRead_memCut {m : Memory} {n a k : Nat} (h1 : a + k ≤ n) (h2 : n ≤ m.len) :
    memRead (memCut m n) a k = memRead m a k := by
  rw [memRead_of_le (by simp; omega), memRead_of_le (by omega)]
  congr 1
  apply List.map_congr_left
  intro j hj
  rw [List.mem_range'_1] at hj
  exact lookupCell_filter (by omega)

end Sys2Proof.Machine
end

