-- ==== Sys2Proof/Laws/Operands.lean ====
section
/-! SUPPORT. What each operand form and each header operation can answer, said once. -/

namespace Sys2Proof.Machine

@[simp] theorem raise_eq_error {α : Type} {r : ErrorReason} {p : Nat} {e : Stop} :
    (raise r p : Codec α) = .error e ↔ e = .raised ⟨r, p⟩ := by simp [raise, eq_comm]

@[simp] theorem raise_ne_ok {α : Type} {r : ErrorReason} {p : Nat} {a : α} : (raise r p : Codec α) ≠ .ok a := by
  simp [raise]

/-- A computation in two parts answers only where both do. -/
theorem bind_eq_ok {α β : Type} {x : Codec α} {f : α → Codec β} {b : β} :
    (x >>= f) = .ok b ↔ ∃ a, x = .ok a ∧ f a = .ok b := by
  cases x <;> simp [bind, Except.bind]

/-- A computation in two parts stops where either does. -/
theorem bind_eq_error {α β : Type} {x : Codec α} {f : α → Codec β} {e : Stop} :
    (x >>= f) = .error e ↔ x = .error e ∨ ∃ a, x = .ok a ∧ f a = .error e := by
  cases x <;> simp [bind, Except.bind]

/-! ### Scalar decoders -/

theorem decBoolean_cases (p : Nat) (c : List Byte) :
    c.length ≠ 1 ∧ decBoolean p c = raise .unsupportedWidth p ∨
      ∃ b, c = [b] ∧ decBoolean p c = .ok (decide (b ≠ 0x00#8)) := by
  unfold decBoolean
  split
  · exact .inl ⟨by assumption, rfl⟩
  · rename_i h
    obtain ⟨b, rfl⟩ := List.length_eq_one_iff.mp (not_not.mp h)
    exact .inr ⟨b, rfl, rfl⟩

theorem decSigned_cases (p : Nat) (c : List Byte) :
    (c.length = 0 ∨ 8 < c.length) ∧ decSigned p c = raise .unsupportedWidth p ∨
      c.length = 1 ∧ decSigned p c = .ok (.int8 (BitVec.ofInt 8 (sext c))) ∨
      c.length = 2 ∧ decSigned p c = .ok (.int16 (BitVec.ofInt 16 (sext c))) ∨
      3 ≤ c.length ∧ c.length ≤ 4 ∧ decSigned p c = .ok (.int32 (BitVec.ofInt 32 (sext c))) ∨
      5 ≤ c.length ∧ c.length ≤ 8 ∧ decSigned p c = .ok (.int64 (BitVec.ofInt 64 (sext c))) := by
  unfold decSigned
  by_cases h0 : c.length = 0 ∨ c.length > 8
  · exact .inl ⟨h0, if_pos h0⟩
  rw [if_neg h0]
  by_cases h1 : c.length = 1
  · exact .inr (.inl ⟨h1, if_pos h1⟩)
  rw [if_neg h1]
  by_cases h2 : c.length = 2
  · exact .inr (.inr (.inl ⟨h2, if_pos h2⟩))
  rw [if_neg h2]
  by_cases h4 : c.length ≤ 4
  · exact .inr (.inr (.inr (.inl ⟨by omega, h4, if_pos h4⟩)))
  · exact .inr (.inr (.inr (.inr ⟨by omega, by omega, if_neg h4⟩)))

theorem decUnsigned_cases (p : Nat) (c : List Byte) :
    c.length = 0 ∧ decUnsigned p c = raise .unsupportedWidth p ∨
      (c.length = 5 ∧ c.headD 0#8 ≠ 0x00#8 ∨ 6 ≤ c.length) ∧ decUnsigned p c = raise .oversizeUnsigned p ∨
      c.length = 1 ∧ decUnsigned p c = .ok (.uint8 (BitVec.ofNat 8 (be c))) ∨
      c.length = 2 ∧ decUnsigned p c = .ok (.uint16 (BitVec.ofNat 16 (be c))) ∨
      3 ≤ c.length ∧ c.length ≤ 4 ∧ decUnsigned p c = .ok (.uint32 (BitVec.ofNat 32 (be c))) ∨
      c.length = 5 ∧ c.headD 0#8 = 0x00#8 ∧ decUnsigned p c = .ok (.uint32 (BitVec.ofNat 32 (be c.tail))) := by
  unfold decUnsigned
  by_cases h0 : c.length = 0
  · exact .inl ⟨h0, if_pos h0⟩
  rw [if_neg h0]
  by_cases h5 : c.length = 5
  · rw [if_pos h5]
    by_cases hz : c.headD 0#8 = 0x00#8
    · exact .inr (.inr (.inr (.inr (.inr ⟨h5, hz, if_neg (not_not.mpr hz)⟩))))
    · exact .inr (.inl ⟨.inl ⟨h5, hz⟩, if_pos hz⟩)
  rw [if_neg h5]
  by_cases h6 : c.length > 5
  · exact .inr (.inl ⟨.inr (by omega), if_pos h6⟩)
  rw [if_neg h6]
  by_cases h1 : c.length = 1
  · exact .inr (.inr (.inl ⟨h1, if_pos h1⟩))
  rw [if_neg h1]
  by_cases h2 : c.length = 2
  · exact .inr (.inr (.inr (.inl ⟨h2, if_pos h2⟩)))
  · exact .inr (.inr (.inr (.inr (.inl ⟨by omega, by omega, if_neg h2⟩))))

theorem decFloat_cases (p : Nat) (c : List Byte) :
    c.length ≠ 5 ∧ c.length ≠ 9 ∧ decFloat p c = raise .unsupportedWidth p ∨
      c.length = 5 ∧ decFloat p c = .ok (.float32 (BitVec.ofNat 32 (be c.tail))) ∨
      c.length = 9 ∧ decFloat p c = .ok (.float64 (BitVec.ofNat 64 (be c.tail))) := by
  unfold decFloat
  split_ifs <;> simp_all

theorem decTime_cases (p : Nat) (c : List Byte) :
    c.length ≠ 8 ∧ decTime p c = raise .unsupportedWidth p ∨ ∃ u : Octets 8, c = u.toList ∧ decTime p c = .ok u := by
  unfold decTime
  split
  · exact .inl ⟨by assumption, rfl⟩
  · exact .inr ⟨octets 8 c, (toList_octets (by omega)).symm, rfl⟩

theorem decBitString_cases (p : Nat) (c : List Byte) :
    c = [] ∧ decBitString p c = raise .unsupportedWidth p ∨
      ∃ b bits, c = b :: bits ∧
        (7 < b.toNat ∧ decBitString p c = raise .invalidBitStringPadding p ∨
          b.toNat ≤ 7 ∧ decBitString p c = .ok (.bitString (Fin.ofNat 8 b.toNat) bits)) := by
  cases c with
  | nil => exact .inl ⟨rfl, rfl⟩
  | cons b bits =>
    refine .inr ⟨b, bits, rfl, ?_⟩
    by_cases h : 7 < b.toNat
    · exact .inl ⟨h, by simp [decBitString, h]⟩
    · exact .inr ⟨by omega, by simp [decBitString, h]⟩

/-- A u32 field (R175): the number its legal content is, else an error at the tag. -/
theorem decU32_cases (p : Nat) (c : List Byte) :
    c.length = 0 ∧ decU32 p c = raise .unsupportedWidth p ∨
      (c.length = 5 ∧ c.headD 0#8 ≠ 0x00#8 ∨ 6 ≤ c.length) ∧ decU32 p c = raise .oversizeUnsigned p ∨
      legalUnsigned c ∧ ∃ x, decU32 p c = .ok x ∧ x.toNat = be c := by
  have hlt := be_lt c
  rcases decUnsigned_cases p c with ⟨h, e⟩ | ⟨h, e⟩ | ⟨h, e⟩ | ⟨h, e⟩ | ⟨h, h', e⟩ | ⟨h, h', e⟩
  · exact .inl ⟨h, by rw [decU32, e]; rfl⟩
  · exact .inr (.inl ⟨h, by rw [decU32, e]; rfl⟩)
  · refine .inr (.inr ⟨.inl (by omega), _, by rw [decU32, e]; rfl, ?_⟩)
    rw [h] at hlt
    simp only [unsignedValue, BitVec.toNat_setWidth, BitVec.toNat_ofNat]
    omega
  · refine .inr (.inr ⟨.inl (by omega), _, by rw [decU32, e]; rfl, ?_⟩)
    rw [h] at hlt
    simp only [unsignedValue, BitVec.toNat_setWidth, BitVec.toNat_ofNat]
    omega
  · refine .inr (.inr ⟨.inl (by omega), _, by rw [decU32, e]; rfl, ?_⟩)
    have : 256 ^ c.length ≤ 256 ^ 4 := Nat.pow_le_pow_right (by decide) h'
    simp only [unsignedValue, BitVec.toNat_ofNat]
    omega
  · refine .inr (.inr ⟨.inr ⟨h, h'⟩, _, by rw [decU32, e]; rfl, ?_⟩)
    cases c with
    | nil => simp at h
    | cons b bs =>
      have h2 := be_lt bs
      simp only [List.length_cons] at h
      simp only [List.headD_cons] at h'
      rw [show bs.length = 4 by omega] at h2
      subst h'
      simp only [unsignedValue, BitVec.toNat_ofNat, List.tail_cons, be_cons]
      simp
      omega

/-! ### Header operations -/

theorem contentInBuffer_eq_ok {m : Memory} {pos hdr len : Nat} {u : Unit} :
    contentInBuffer m pos hdr len = .ok u ↔ pos + hdr + len ≤ m.len := by
  unfold contentInBuffer
  split <;> simp_all

theorem contentInBuffer_eq_error {m : Memory} {pos hdr len : Nat} {e : Stop} :
    contentInBuffer m pos hdr len = .error e ↔ m.len < pos + hdr + len ∧ e = .raised ⟨.bufferTooShort, pos⟩ := by
  unfold contentInBuffer
  split <;> simp_all

/-- The long form of a length: its octets as a number, or BufferTooShort at the tag. -/
theorem longLength_cases (m : Memory) (pos n : Nat) :
    m.len < pos + 2 + n ∧ longLength m pos n = raise .bufferTooShort pos ∨
      ∃ o, memRead m (pos + 2) n = .ok o ∧ longLength m pos n = .ok (be o) := by
  unfold longLength
  split
  · exact .inl ⟨by omega, rfl⟩
  · have h := memRead_of_le (m := m) (a := pos + 2) (n := n) (by omega)
    exact .inr ⟨_, h, by rw [h]; rfl⟩

/-- DECODE_TAG_LENGTH (R101) by its cases: an element cut off before its length octet; the short form; the malformed
forms; the long form, its octets cut off or not. -/
theorem decodeTagLength_cases (cfg : Cfg) (m : Memory) (pos : Nat) :
    m.len < pos + 2 ∧ decodeTagLength cfg m pos = raise .bufferTooShort pos ∨
      ∃ tag l0, memByte? m pos = some tag ∧ memByte? m (pos + 1) = some l0 ∧
        (l0.toNat < 0x80 ∧ decodeTagLength cfg m pos =
            (contentInBuffer m pos 2 l0.toNat >>= fun _ => .ok (tag, l0.toNat, pos + 2)) ∨
          (l0.toNat = 0x80 ∨ 0x80 + cfg.maxLenOctets < l0.toNat) ∧ 0x80 ≤ l0.toNat ∧
            decodeTagLength cfg m pos = raise .malformedLength pos ∨
          0x80 < l0.toNat ∧ l0.toNat ≤ 0x80 + cfg.maxLenOctets ∧ decodeTagLength cfg m pos =
            (longLength m pos (l0.toNat - 0x80) >>= fun len =>
              contentInBuffer m pos (2 + (l0.toNat - 0x80)) len >>= fun _ =>
                .ok (tag, len, pos + (2 + (l0.toNat - 0x80))))) := by
  unfold decodeTagLength
  by_cases h : pos + 2 > m.len
  · exact .inl ⟨h, if_pos h⟩
  refine .inr ⟨_, _, memByte?_eq_some.mpr ⟨by omega, rfl⟩, memByte?_eq_some.mpr ⟨by omega, rfl⟩, ?_⟩
  rw [if_neg h, memReadByte_of_lt (a := pos) (by omega), memReadByte_of_lt (a := pos + 1) (by omega)]
  generalize lookupCell (pos + 1) m.cells = l0
  simp only [bind, Except.bind, pure, Except.pure]
  by_cases h1 : l0.toNat < 0x80
  · exact .inl ⟨h1, if_pos h1⟩
  rw [if_neg h1]
  by_cases h2 : l0.toNat = 0x80 ∨ l0.toNat > 0x80 + cfg.maxLenOctets
  · exact .inr (.inl ⟨h2, by omega, if_pos h2⟩)
  · exact .inr (.inr ⟨by omega, by omega, if_neg h2⟩)

/-- What DECODE_TAG_LENGTH answers (R101): the content lies in the buffer, after the tag and the length octets, and the
length is the short form's octet or the number of the long form's octets. -/
theorem decodeTagLength_eq_ok {cfg : Cfg} {m : Memory} {pos : Nat} {tag : Byte} {len v : Nat}
    (h : decodeTagLength cfg m pos = .ok (tag, len, v)) :
    memByte? m pos = some tag ∧ pos + 2 ≤ v ∧ v + len ≤ m.len ∧ ∃ l0, memByte? m (pos + 1) = some l0 ∧
      (l0.toNat < 0x80 ∧ len = l0.toNat ∧ v = pos + 2 ∨
        0x80 < l0.toNat ∧ l0.toNat ≤ 0x80 + cfg.maxLenOctets ∧ v = pos + (2 + (l0.toNat - 0x80)) ∧
          ∃ o, memRead m (pos + 2) (l0.toNat - 0x80) = .ok o ∧ len = be o) := by
  rcases decodeTagLength_cases cfg m pos with ⟨-, e⟩ | ⟨t, l0, ht, hl, ⟨h1, e⟩ | ⟨-, -, e⟩ | ⟨h1, h2, e⟩⟩
  · simp [e] at h
  · simp only [e, bind_eq_ok, contentInBuffer_eq_ok, exists_const, Except.ok.injEq, Prod.mk.injEq] at h
    obtain ⟨h3, rfl, rfl, rfl⟩ := h
    exact ⟨ht, by omega, by omega, l0, hl, .inl ⟨h1, rfl, rfl⟩⟩
  · simp [e] at h
  · simp only [e, bind_eq_ok, contentInBuffer_eq_ok, exists_const, Except.ok.injEq, Prod.mk.injEq] at h
    obtain ⟨n, hn, h3, rfl, rfl, rfl⟩ := h
    rcases longLength_cases m pos (l0.toNat - 0x80) with ⟨-, e'⟩ | ⟨o, ho, e'⟩
    · simp [e'] at hn
    · obtain rfl : be o = n := by simpa [e'] using hn
      exact ⟨ht, by omega, by omega, l0, hl, .inr ⟨h1, h2, rfl, o, ho, rfl⟩⟩

/-- How DECODE_TAG_LENGTH stops: at the tag byte, with one of two reasons; it never faults. -/
theorem decodeTagLength_eq_error {cfg : Cfg} {m : Memory} {pos : Nat} {e : Stop}
    (h : decodeTagLength cfg m pos = .error e) :
    e = .raised ⟨.bufferTooShort, pos⟩ ∨ e = .raised ⟨.malformedLength, pos⟩ := by
  rcases decodeTagLength_cases cfg m pos with ⟨-, e'⟩ | ⟨t, l0, -, -, ⟨-, e'⟩ | ⟨-, -, e'⟩ | ⟨-, -, e'⟩⟩
  · exact .inl (by simpa [e'] using h)
  · simp only [e', bind_eq_error, contentInBuffer_eq_error, reduceCtorEq, and_false, exists_false, or_false] at h
    exact .inl h.2
  · exact .inr (by simpa [e'] using h)
  · simp only [e', bind_eq_error, contentInBuffer_eq_error, reduceCtorEq, and_false, exists_false, or_false] at h
    rcases longLength_cases m pos (l0.toNat - 0x80) with ⟨-, e''⟩ | ⟨o, -, e''⟩
    · simp [e''] at h; exact .inl h
    · simp [e''] at h; exact .inl h.2

/-! ### Encoders -/

theorem encodeLength_eq_ok {cfg : Cfg} {start len : Nat} {o : List Byte} :
    encodeLength cfg start len = .ok o ↔ lengthOctets cfg len = some o := by
  unfold encodeLength
  split <;> simp_all

/-- ENCODE_LENGTH stops only with LengthOverflow at the start offset (R102). -/
theorem encodeLength_eq_error {cfg : Cfg} {start len : Nat} {e : Stop} :
    encodeLength cfg start len = .error e ↔ lengthOctets cfg len = none ∧ e = .raised ⟨.lengthOverflow, start⟩ := by
  unfold encodeLength
  split <;> simp_all

/-- What ENCODE_TLV answers (R103): the tag, the length octets and the content. -/
theorem encodeTlv_eq_ok {cfg : Cfg} {start : Nat} {tag : Byte} {c bs : List Byte} :
    encodeTlv cfg start tag c = .ok bs ↔ ∃ o, lengthOctets cfg c.length = some o ∧ bs = tag :: (o ++ c) := by
  simp only [encodeTlv, bind_eq_ok, encodeLength_eq_ok, pure, Except.pure, Except.ok.injEq, eq_comm (b := bs)]

theorem encodeTlv_eq_error {cfg : Cfg} {start : Nat} {tag : Byte} {c : List Byte} {e : Stop} :
    encodeTlv cfg start tag c = .error e ↔
      lengthOctets cfg c.length = none ∧ e = .raised ⟨.lengthOverflow, start⟩ := by
  simp [encodeTlv, bind_eq_error, encodeLength_eq_error, pure, Except.pure]

/-- An element is as long as `tlvSize` says (R103). -/
theorem encodeTlv_length {cfg : Cfg} {start : Nat} {tag : Byte} {c bs : List Byte}
    (h : encodeTlv cfg start tag c = .ok bs) : bs.length = tlvSize cfg c.length := by
  obtain ⟨o, ho, rfl⟩ := encodeTlv_eq_ok.mp h
  simp only [tlvSize, lenOctets, ho, Option.getD_some, List.length_cons, List.length_append]
  omega

end Sys2Proof.Machine
end

