-- ==== Sys2Proof/Laws/State.lean ====
section
/-! SUPPORT. One lemma for each field after each named update of the state: no later proof unfolds a record update. -/

namespace Sys2Proof.Machine

/-! ### Ending a transaction -/

@[simp] theorem endTransaction_cfg (r : Response) (s : State) : (endTransaction r s).cfg = s.cfg := rfl
@[simp] theorem endTransaction_buf (r : Response) (s : State) : (endTransaction r s).buf = s.buf := rfl
@[simp] theorem endTransaction_requests (r : Response) (s : State) : (endTransaction r s).requests = s.requests := rfl
@[simp] theorem endTransaction_work (r : Response) (s : State) : (endTransaction r s).work = Work.idle := rfl
@[simp] theorem endTransaction_outcome (r : Response) (s : State) : (endTransaction r s).outcome = some r := rfl

@[simp] theorem takeError_cfg (e : Error) (s : State) : (takeError e s).cfg = s.cfg := rfl
@[simp] theorem takeError_buf (e : Error) (s : State) : (takeError e s).buf = s.buf := rfl
@[simp] theorem takeError_requests (e : Error) (s : State) : (takeError e s).requests = s.requests := rfl
@[simp] theorem takeError_work (e : Error) (s : State) : (takeError e s).work = Work.idle := rfl
@[simp] theorem takeError_outcome (e : Error) (s : State) :
    (takeError e s).outcome = some (s.work.entry.raised e) := rfl

@[simp] theorem failed_cfg (s : State) (r : ErrorReason) (p : Nat) : (s.failed r p).cfg = s.cfg := rfl
@[simp] theorem failed_buf (s : State) (r : ErrorReason) (p : Nat) : (s.failed r p).buf = s.buf := rfl
@[simp] theorem failed_requests (s : State) (r : ErrorReason) (p : Nat) : (s.failed r p).requests = s.requests := rfl
@[simp] theorem failed_work (s : State) (r : ErrorReason) (p : Nat) : (s.failed r p).work = Work.idle := rfl
@[simp] theorem failed_outcome (s : State) (r : ErrorReason) (p : Nat) :
    (s.failed r p).outcome = some (s.work.entry.raised ⟨r, p⟩) := rfl

@[simp] theorem finishFrame_cfg (s : State) (r : Option PrpTrailer) : (finishFrame s r).cfg = s.cfg := rfl
@[simp] theorem finishFrame_buf (s : State) (r : Option PrpTrailer) : (finishFrame s r).buf = s.buf := rfl
@[simp] theorem finishFrame_requests (s : State) (r : Option PrpTrailer) :
    (finishFrame s r).requests = s.requests := rfl
@[simp] theorem finishFrame_work (s : State) (r : Option PrpTrailer) : (finishFrame s r).work = Work.idle := rfl
@[simp] theorem finishFrame_outcome (s : State) (r : Option PrpTrailer) :
    (finishFrame s r).outcome = some (.decode (some (.ok (packetOf s.work r)))) := rfl

/-! ### Opening a transaction -/

@[simp] theorem withWork_cfg (s : State) (w : Work) : (s.withWork w).cfg = s.cfg := rfl
@[simp] theorem withWork_buf (s : State) (w : Work) : (s.withWork w).buf = s.buf := rfl
@[simp] theorem withWork_requests (s : State) (w : Work) : (s.withWork w).requests = s.requests := rfl
@[simp] theorem withWork_work (s : State) (w : Work) : (s.withWork w).work = w := rfl
@[simp] theorem withWork_outcome (s : State) (w : Work) : (s.withWork w).outcome = none := rfl

@[simp] theorem handOver_none (s : State) : handOver none s = s := rfl
@[simp] theorem handOver_some_buf (m : Memory) (s : State) : (handOver (some m) s).buf = m := rfl
@[simp] theorem handOver_cfg (h : Option Memory) (s : State) : (handOver h s).cfg = s.cfg := by cases h <;> rfl
@[simp] theorem handOver_requests (h : Option Memory) (s : State) : (handOver h s).requests = s.requests := by
  cases h <;> rfl
@[simp] theorem handOver_work (h : Option Memory) (s : State) : (handOver h s).work = s.work := by cases h <;> rfl
@[simp] theorem handOver_outcome (h : Option Memory) (s : State) : (handOver h s).outcome = s.outcome := by
  cases h <;> rfl

/-! ### Going on -/

@[simp] theorem appended_cfg (s : State) (n : Nat) (x : Value) : (s.appended n x).cfg = s.cfg := rfl
@[simp] theorem appended_buf (s : State) (n : Nat) (x : Value) : (s.appended n x).buf = s.buf := rfl
@[simp] theorem appended_requests (s : State) (n : Nat) (x : Value) : (s.appended n x).requests = s.requests := rfl
@[simp] theorem appended_outcome (s : State) (n : Nat) (x : Value) : (s.appended n x).outcome = s.outcome := rfl
@[simp] theorem appended_pos (s : State) (n : Nat) (x : Value) : (s.appended n x).work.pos = s.work.pos + n := rfl
@[simp] theorem appended_phase (s : State) (n : Nat) (x : Value) : (s.appended n x).work.phase = .header .value := rfl
@[simp] theorem appended_items (s : State) (n : Nat) (x : Value) :
    (s.appended n x).work.items = s.work.items ++ [x] := rfl

@[simp] theorem fielded_cfg (s : State) (f : PduField) (n : Nat) (d : GoosePdu) : (s.fielded f n d).cfg = s.cfg := rfl
@[simp] theorem fielded_buf (s : State) (f : PduField) (n : Nat) (d : GoosePdu) : (s.fielded f n d).buf = s.buf := rfl
@[simp] theorem fielded_requests (s : State) (f : PduField) (n : Nat) (d : GoosePdu) :
    (s.fielded f n d).requests = s.requests := rfl
@[simp] theorem fielded_outcome (s : State) (f : PduField) (n : Nat) (d : GoosePdu) :
    (s.fielded f n d).outcome = s.outcome := rfl
@[simp] theorem fielded_pos (s : State) (f : PduField) (n : Nat) (d : GoosePdu) :
    (s.fielded f n d).work.pos = s.work.pos + n := rfl
@[simp] theorem fielded_phase (s : State) (f : PduField) (n : Nat) (d : GoosePdu) :
    (s.fielded f n d).work.phase = .header f.next := rfl
@[simp] theorem fielded_pdu (s : State) (f : PduField) (n : Nat) (d : GoosePdu) :
    (s.fielded f n d).work.pdu = d := rfl

@[simp] theorem headed_cfg (s : State) (ctx : TagContext) (t : Byte) (h n : Nat) : (s.headed ctx t h n).cfg = s.cfg := rfl
@[simp] theorem headed_buf (s : State) (ctx : TagContext) (t : Byte) (h n : Nat) : (s.headed ctx t h n).buf = s.buf := rfl
@[simp] theorem headed_requests (s : State) (ctx : TagContext) (t : Byte) (h n : Nat) :
    (s.headed ctx t h n).requests = s.requests := rfl
@[simp] theorem headed_outcome (s : State) (ctx : TagContext) (t : Byte) (h n : Nat) :
    (s.headed ctx t h n).outcome = s.outcome := rfl
@[simp] theorem headed_pos (s : State) (ctx : TagContext) (t : Byte) (h n : Nat) :
    (s.headed ctx t h n).work.pos = s.work.pos + h := rfl
@[simp] theorem headed_phase (s : State) (ctx : TagContext) (t : Byte) (h n : Nat) :
    (s.headed ctx t h n).work.phase = .tag ctx := rfl
@[simp] theorem headed_tag (s : State) (ctx : TagContext) (t : Byte) (h n : Nat) :
    (s.headed ctx t h n).work.tag = t := rfl
@[simp] theorem headed_len (s : State) (ctx : TagContext) (t : Byte) (h n : Nat) :
    (s.headed ctx t h n).work.len = n := rfl
@[simp] theorem headed_tagPos (s : State) (ctx : TagContext) (t : Byte) (h n : Nat) :
    (s.headed ctx t h n).work.tagPos = s.work.pos := rfl

/-! ### Outcomes of a step -/

@[simp] theorem commit_ok (s t : State) : commit s (.ok t) = .next t := rfl
@[simp] theorem commit_raised (s : State) (e : Error) : commit s (.error (.raised e)) = .next (takeError e s) := rfl
@[simp] theorem commit_broken (s : State) (f : Fault) : commit s (.error (.broken f)) = .fault f := rfl
@[simp] theorem commit_raise (s : State) (r : ErrorReason) (p : Nat) :
    commit s (raise r p) = .next (s.failed r p) := rfl

end Sys2Proof.Machine
end

