-- ==== Sys2Proof/Laws/Ops.lean ====
section
/-! SUPPORT. What each operation that the instructions of a stepwise transaction share can do, said once: later proofs
cite these and do not unfold the operations. -/

namespace Sys2Proof.Machine

/-- Configuration, buffer and requests are the same. -/
def SameBlock (s t : State) : Prop := t.cfg = s.cfg ∧ t.buf = s.buf ∧ t.requests = s.requests

theorem SameBlock.rfl' {s : State} : SameBlock s s := ⟨rfl, rfl, rfl⟩

theorem SameBlock.of_work {s : State} {w : Work} {o : Option Response} :
    SameBlock s { s with work := w, outcome := o } := ⟨rfl, rfl, rfl⟩

/-- The transaction has ended with `r`. -/
theorem SameBlock.ended (r : Response) (s : State) : SameBlock s (endTransaction r s) := ⟨rfl, rfl, rfl⟩

/-! ### Committing -/

/-- A meaning's result is the next state, or an error taken. -/
theorem commit_eq_next {s t : State} {r : Codec State} :
    commit s r = .next t ↔ r = .ok t ∨ ∃ e, r = .error (.raised e) ∧ t = takeError e s := by
  cases r with
  | ok u => simp
  | error e => cases e <;> simp [eq_comm]

/-- A meaning faults only where its result is broken. -/
theorem commit_eq_fault {s : State} {r : Codec State} {f : Fault} : commit s r = .fault f ↔ r = .error (.broken f) := by
  cases r with
  | ok u => simp
  | error e => cases e <;> simp

/-- A meaning is never a refusal. -/
theorem commit_ne_refused {s : State} {r : Codec State} {x : Refusal} : commit s r ≠ .refused x := by
  cases r with
  | ok u => simp
  | error e => cases e <;> simp

/-! ### Containers and sequences -/

/-- Nothing is left while the cursor is before the end bound. -/
theorem unwind_of_lt {pos e : Nat} (h : pos < e) (stack : List Frame) (items : List Value) :
    unwind pos stack (some e) items = (stack, some e, items) := by
  cases stack with
  | nil => rfl
  | cons f fs => rw [unwind, if_pos h]

@[simp] theorem unwind_none (pos : Nat) (stack : List Frame) (items : List Value) :
    unwind pos stack none items = (stack, none, items) := by cases stack <;> rfl

@[simp] theorem unwind_nil (pos : Nat) (b : Option Nat) (items : List Value) :
    unwind pos [] b items = ([], b, items) := by cases b <;> rfl

/-- The container that ends is left: its list is one element of the sequence around it. -/
theorem unwind_of_le {pos e : Nat} (h : e ≤ pos) (f : Frame) (fs : List Frame) (items : List Value) :
    unwind pos (f :: fs) (some e) items = unwind pos fs f.endBound (f.items ++ [wrapItems f.kind items]) := by
  rw [unwind, if_neg (by omega)]

/-- Containers that all end by `pos` are left together. -/
theorem unwind_of_leaves {pos : Nat} {b b' : Option Nat} {fs : List Frame} (h : leaves pos b fs b') (rest : List Frame)
    (items : List Value) : unwind pos (fs ++ rest) b items = unwind pos rest b' (gathered fs items) := by
  induction fs generalizing b items with
  | nil => rw [show b = b' from h]; rfl
  | cons f fs ih =>
    cases b with
    | none => exact h.elim
    | some e => rw [List.cons_append, unwind_of_le h.1, ih h.2, gathered]

/-- Leaving containers stops in a sequence that goes on, in the outermost one, or outside every sequence; what encloses
the rest is unchanged, and a list is never left empty by it. -/
theorem unwind_spec (pos : Nat) (stack : List Frame) (bound : Option Nat) (items : List Value) :
    let r := unwind pos stack bound items
    r.1 <:+ stack ∧ ((∃ e, r.2.1 = some e ∧ pos < e) ∨ r.1 = [] ∨ r.2.1 = none) ∧
      (stackWf bound stack = true → stackWf r.2.1 r.1 = true) ∧
      (r = (stack, bound, items) ∨ r.2.2 ≠ []) := by
  induction stack generalizing bound items with
  | nil => cases bound <;> simp
  | cons f fs ih =>
    cases bound with
    | none => simp
    | some e =>
      by_cases h : pos < e
      · simp [unwind_of_lt h, h]
      · rw [unwind_of_le (by omega)]
        obtain ⟨h1, h2, h3, h4⟩ := ih f.endBound (f.items ++ [wrapItems f.kind items])
        refine ⟨h1.trans (List.suffix_cons f fs), h2, h3, .inr ?_⟩
        rcases h4 with h4 | h4
        · rw [h4]; simp
        · exact h4

/-- The state in which the containers the cursor has passed are left. -/
def State.unwound (s : State) : State :=
  let r := unwind s.work.pos s.work.stack s.work.endBound s.work.items
  { s with work := { s.work with stack := r.1, endBound := r.2.1, items := r.2.2 } }

@[simp] theorem unwound_cfg (s : State) : s.unwound.cfg = s.cfg := rfl
@[simp] theorem unwound_buf (s : State) : s.unwound.buf = s.buf := rfl
@[simp] theorem unwound_requests (s : State) : s.unwound.requests = s.requests := rfl
@[simp] theorem unwound_outcome (s : State) : s.unwound.outcome = s.outcome := rfl
@[simp] theorem unwound_pos (s : State) : s.unwound.work.pos = s.work.pos := rfl
@[simp] theorem unwound_entry (s : State) : s.unwound.work.entry = s.work.entry := rfl
@[simp] theorem unwound_pdu (s : State) : s.unwound.work.pdu = s.work.pdu := rfl
@[simp] theorem unwound_pduEnd (s : State) : s.unwound.work.pduEnd = s.work.pduEnd := rfl
@[simp] theorem unwound_allDataPos (s : State) : s.unwound.work.allDataPos = s.work.allDataPos := rfl

/-- The loop test after an element (R154): the next header of the sequence that goes on; the end of the outermost
sequence; or the element decoded alone. -/
theorem closeSequences_eq (s : State) :
    closeSequences s =
      match s.unwound.work.endBound with
      | some e =>
        if s.work.pos < e then
          .ok { s.unwound with work := { s.unwound.work with phase := .header .value } }
        else finishSequence s.unwound
      | none =>
        match s.unwound.work.items.getLast? with
        | some x => .ok (endTransaction (.element (.ok (s.work.pos, x))) s.unwound)
        | none => .error (.broken .noProgress) := by
  rfl

/-- In a sequence that goes on nothing is closed. -/
theorem closeSequences_of_lt {s : State} {e : Nat} (h : s.work.endBound = some e) (hp : s.work.pos < e) :
    closeSequences s = .ok { s with work := { s.work with phase := .header .value } } := by
  have hu : s.unwound = s := by
    rw [State.unwound, h, unwind_of_lt hp]
    simp only [← h]
  rw [closeSequences_eq, hu, h]
  simp only [if_pos hp]

/-- In a sequence that goes on a value joins it. -/
theorem deliver_of_more {s : State} {n : Nat} (x : Value) (h : s.more n) : deliver n x s = .ok (s.appended n x) := by
  obtain ⟨e, he, hp⟩ := h
  exact closeSequences_of_lt
    (s := { s with work := { s.work with pos := s.work.pos + n, items := s.work.items ++ [x] } }) he hp

/-- After an element, the containers it ends are left. -/
theorem deliver_unwound {s : State} {n : Nat} {x : Value} {fs rest : List Frame} {b : Option Nat}
    (hs : s.work.stack = fs ++ rest) (h : leaves (s.work.pos + n) s.work.endBound fs b) :
    deliver n x s = closeSequences { s with
      work := { s.work with
        pos := s.work.pos + n, stack := rest, endBound := b, items := gathered fs (s.work.items ++ [x]) } } := by
  simp only [deliver, closeSequences_eq, State.unwound, hs, unwind_of_leaves h]

/-- With the outermost sequence at its end, the loop test ends it. -/
theorem closeSequences_of_le {s : State} {e : Nat} (hs : s.work.stack = []) (he : s.work.endBound = some e)
    (hp : e ≤ s.work.pos) : closeSequences s = finishSequence s := by
  have hu : s.unwound = s := by
    rw [State.unwound, hs, unwind_nil]
    simp only [← hs]
  rw [closeSequences_eq, hu, he]
  simp only [if_neg (Nat.not_lt.mpr hp)]

/-! ### The end of the PDU and of the frame -/

/-- What the marker test answers (R207): it never stops. -/
theorem trailerPresent_eq (cfg : Cfg) (m : Memory) (e : Nat) :
    trailerPresent cfg m e = .ok (decide (e + 6 = m.len) &&
      decide (word16 (lookupCell (e + 4) m.cells) (lookupCell (e + 5) m.cells) = cfg.prpSuffix)) := by
  unfold trailerPresent
  split
  · rename_i h
    simp only [Cfg.prpTrailerBytes] at h
    rw [memRead16_of_le (by omega), decide_eq_true (show e + 6 = m.len by omega)]
    rfl
  · rename_i h
    simp only [Cfg.prpTrailerBytes] at h
    rw [decide_eq_false (show ¬ e + 6 = m.len by omega)]
    rfl

/-- The end of the PDU (R206, R207): an exposed DECODE_PDU returns, a trailer is read next, or the frame is complete. -/
theorem finishPdu_cases (s : State) :
    s.work.entry = .pdu ∧ finishPdu s = .ok (endTransaction (.pdu (.ok (s.work.pduEnd, s.work.pdu))) s) ∨
      s.work.entry ≠ .pdu ∧
        (trailerPresent s.cfg s.buf s.work.pduEnd = .ok true ∧
            finishPdu s = .ok { s with work := { s.work with phase := .trailer, pos := s.work.pduEnd } } ∨
          trailerPresent s.cfg s.buf s.work.pduEnd = .ok false ∧ finishPdu s = .ok (finishFrame s none)) := by
  cases he : s.work.entry with
  | pdu => exact .inl ⟨rfl, by rw [finishPdu, he]⟩
  | frame | element | sequence | tagLength =>
    refine .inr ⟨by simp, ?_⟩
    cases hb : (decide (s.work.pduEnd + 6 = s.buf.len) &&
      decide (word16 (lookupCell (s.work.pduEnd + 4) s.buf.cells) (lookupCell (s.work.pduEnd + 5) s.buf.cells) =
        s.cfg.prpSuffix)) with
    | true =>
      have h : trailerPresent s.cfg s.buf s.work.pduEnd = .ok true := by rw [trailerPresent_eq, hb]
      exact .inl ⟨h, by rw [finishPdu, he]; simp only [h]; rfl⟩
    | false =>
      have h : trailerPresent s.cfg s.buf s.work.pduEnd = .ok false := by rw [trailerPresent_eq, hb]
      exact .inr ⟨h, by rw [finishPdu, he]; simp only [h]; rfl⟩

/-- The end of AllData (R180): the count is wrong, or the PDU ends with the list in its record. -/
theorem finishAllData_cases (s : State) :
    s.work.pdu.numDatSetEntries.toNat ≠ s.work.items.length ∧
        finishAllData s = raise .entryCountMismatch s.work.allDataPos ∨
      s.work.pdu.numDatSetEntries.toNat = s.work.items.length ∧
        finishAllData s =
          finishPdu { s with work := { s.work with pdu := { s.work.pdu with allData := s.work.items } } } := by
  by_cases h : s.work.pdu.numDatSetEntries.toNat = s.work.items.length
  · exact .inr ⟨h, if_neg (not_not.mpr h)⟩
  · exact .inl ⟨h, if_pos h⟩

/-- The end of the outermost sequence: an exposed DECODE_SEQUENCE returns, or AllData is complete. -/
theorem finishSequence_cases (s : State) :
    (∃ b, s.work.entry = .sequence b) ∧
        finishSequence s = .ok (endTransaction (.sequence (.ok (s.work.pos, s.work.items))) s) ∨
      (∀ b, s.work.entry ≠ .sequence b) ∧ finishSequence s = finishAllData s := by
  cases he : s.work.entry with
  | sequence b => exact .inl ⟨⟨b, rfl⟩, by rw [finishSequence, he]⟩
  | frame | pdu | element | tagLength => exact .inr ⟨by simp, by rw [finishSequence, he]⟩

/-- How a transaction that ends goes on: it is over with its outcome, or a trailer is read next, which then stands at
the PDU's declared end; nothing outside the working values changes. -/
def Finished (s t : State) : Prop :=
  SameBlock s t ∧
    ((∃ r, t.work = Work.idle ∧ t.outcome = some r) ∨
      t.work.phase = .trailer ∧ t.work.pos = s.work.pduEnd ∧ t.work.entry = s.work.entry ∧
        t.work.endBound = s.work.endBound ∧ t.work.stack = s.work.stack ∧
        trailerPresent s.cfg s.buf s.work.pduEnd = .ok true)

theorem finishPdu_spec (s : State) : ∃ t, finishPdu s = .ok t ∧ Finished s t := by
  rcases finishPdu_cases s with ⟨-, h⟩ | ⟨-, ⟨hp, h⟩ | ⟨-, h⟩⟩
  · exact ⟨_, h, .ended _ _, .inl ⟨_, rfl, rfl⟩⟩
  · exact ⟨_, h, ⟨rfl, rfl, rfl⟩, .inr ⟨rfl, rfl, rfl, rfl, rfl, hp⟩⟩
  · exact ⟨_, h, ⟨rfl, rfl, rfl⟩, .inl ⟨_, rfl, rfl⟩⟩

/-- Everything the end of the outermost sequence can do. -/
theorem finishSequence_spec (s : State) :
    finishSequence s = raise .entryCountMismatch s.work.allDataPos ∨
      ∃ t, finishSequence s = .ok t ∧ Finished s t := by
  rcases finishSequence_cases s with ⟨-, h⟩ | ⟨-, h⟩
  · exact .inr ⟨_, h, .ended _ _, .inl ⟨_, rfl, rfl⟩⟩
  · rcases finishAllData_cases s with ⟨-, h'⟩ | ⟨-, h'⟩
    · exact .inl (h.trans h')
    · obtain ⟨t, ht, hf⟩ := finishPdu_spec
        { s with work := { s.work with pdu := { s.work.pdu with allData := s.work.items } } }
      exact .inr ⟨t, h.trans (h'.trans ht), hf⟩

/-- Everything the loop test can do: the next header in what is left of the containers, the end of the transaction, the
trailer, a wrong entry count, or, outside every sequence with nothing decoded, the bug R155 excludes. -/
theorem closeSequences_spec (s : State) :
    (∃ e, s.unwound.work.endBound = some e ∧ s.work.pos < e ∧
        closeSequences s = .ok { s.unwound with work := { s.unwound.work with phase := .header .value } }) ∨
      closeSequences s = raise .entryCountMismatch s.work.allDataPos ∨
      (∃ t, closeSequences s = .ok t ∧ Finished s.unwound t) ∨
      s.unwound.work.endBound = none ∧ s.unwound.work.items = [] ∧ closeSequences s = .error (.broken .noProgress) := by
  rw [closeSequences_eq]
  cases hb : s.unwound.work.endBound with
  | some e =>
    simp only
    split
    · exact .inl ⟨e, rfl, by assumption, rfl⟩
    · rcases finishSequence_spec s.unwound with h | h
      · exact .inr (.inl h)
      · exact .inr (.inr (.inl h))
  | none =>
    simp only
    cases hi : s.unwound.work.items.getLast? with
    | some x => exact .inr (.inr (.inl ⟨_, rfl, .ended _ _, .inl ⟨_, rfl, rfl⟩⟩))
    | none => exact .inr (.inr (.inr ⟨trivial, List.getLast?_eq_none_iff.mp hi, rfl⟩))

/-- The loop test changes nothing outside the working values. -/
theorem closeSequences_block {s t : State} (h : closeSequences s = .ok t) : SameBlock s t := by
  rcases closeSequences_spec s with ⟨e, -, -, h'⟩ | h' | ⟨u, h', hf⟩ | ⟨-, -, h'⟩
  · cases h'.symm.trans h; exact ⟨rfl, rfl, rfl⟩
  · simp [h'] at h
  · cases h'.symm.trans h; exact hf.1
  · simp [h'] at h

theorem deliver_block {s t : State} {n : Nat} {x : Value} (h : deliver n x s = .ok t) : SameBlock s t :=
  closeSequences_block
    (s := { s with work := { s.work with pos := s.work.pos + n, items := s.work.items ++ [x] } }) h

theorem enterContainer_block {s t : State} {k : ContainerKind} {n : Nat} (h : enterContainer k n s = .ok t) :
    SameBlock s t :=
  closeSequences_block
    (s := { s with
      work := { s.work with
        stack := ⟨k, s.work.endBound, s.work.items⟩ :: s.work.stack, endBound := some (s.work.pos + n)
        items := [] } }) h

/-- The content of a container that is not empty: the sequence around it waits on the stack. -/
theorem enterContainer_of_pos {s : State} {n : Nat} (k : ContainerKind) (hn : 0 < n) :
    enterContainer k n s = .ok { s with
      work := { s.work with
        stack := ⟨k, s.work.endBound, s.work.items⟩ :: s.work.stack, endBound := some (s.work.pos + n), items := []
        phase := .header .value } } := by
  rw [enterContainer, closeSequences_of_lt (e := s.work.pos + n) rfl (by simp only; omega)]

/-! ### Headers and fields -/

/-- What holding a header answers (R101): the content lies in the buffer; the exposed operation returns, or the tag is
dispatched next. -/
theorem latchHeader_eq_ok {s t : State} {hdr n : Nat} (h : latchHeader hdr n s = .ok t) :
    s.work.pos + hdr + n ≤ s.buf.len ∧ ∃ tag, memByte? s.buf s.work.pos = some tag ∧
      (s.work.entry = .tagLength ∧ t = endTransaction (.tagLength (.ok (tag, n, s.work.pos + hdr))) s ∨
        s.work.entry ≠ .tagLength ∧ t = { s with
          work := { s.work with
            phase := headerDone s.work.phase, tagPos := s.work.pos, tag := tag, len := n
            pos := s.work.pos + hdr } }) := by
  simp only [latchHeader, bind_eq_ok, contentInBuffer_eq_ok, exists_const] at h
  obtain ⟨h1, tag, ht, h2⟩ := h
  by_cases hl : s.work.pos < s.buf.len
  · rw [memReadByte_of_lt hl] at ht
    refine ⟨h1, tag, memByte?_eq_some.mpr ⟨hl, by simpa using ht⟩, ?_⟩
    split at h2
    · exact .inl ⟨by assumption, by simpa [pure, Except.pure] using h2.symm⟩
    · exact .inr ⟨by assumption, by simpa [pure, Except.pure] using h2.symm⟩
  · rw [memReadByte, memRead, if_neg (by omega)] at ht
    cases ht

/-- Content past the buffer's end raises BufferTooShort at the tag. -/
theorem latchHeader_of_lt {s : State} {hdr n : Nat} (h : s.buf.len < s.work.pos + hdr + n) :
    latchHeader hdr n s = raise .bufferTooShort s.work.pos := by
  rw [latchHeader, contentInBuffer, if_pos h]
  rfl

/-- Content inside the buffer: the header is held. -/
theorem latchHeader_of_le {s : State} {hdr n : Nat} {ctx : TagContext} {tag : Byte}
    (h : s.work.pos + hdr + n ≤ s.buf.len) (hp : s.work.phase = .header ctx) (he : s.work.entry ≠ .tagLength)
    (ht : memByte? s.buf s.work.pos = some tag) : latchHeader hdr n s = .ok (s.headed ctx tag hdr n) := by
  obtain ⟨hl, rfl⟩ := memByte?_eq_some.mp ht
  rw [latchHeader, contentInBuffer, if_neg (by omega), memReadByte_of_lt hl, hp]
  simp only [bind, Except.bind, pure, Except.pure]
  cases hw : s.work.entry with
  | tagLength => exact absurd hw he
  | frame | pdu | element | sequence => simp only [State.headed, headerDone, hw]

@[simp] theorem fieldDone_eq (f : PduField) (n : Nat) (d : GoosePdu) (s : State) :
    fieldDone f n d s = .ok (s.fielded f n d) := rfl

/-! ### Opening a transaction -/

/-- What opening a transaction answers (R272): the block goes on with clean working values and no outcome, or an
exposed DECODE_SEQUENCE with nothing to decode is over at once (R154). -/
theorem openTransaction_eq_ok {entry : Entry} {start : Nat} {s t : State} (h : openTransaction entry start s = .ok t) :
    SameBlock s t ∧
      (t.work = Work.idle ∧ t.outcome = some (.sequence (.ok (start, []))) ∨
        t.outcome = none ∧ t.work.entry = entry ∧ t.work.phase ≠ .idle ∧ t.work.stack = [] ∧ t.work.items = [] ∧
          t.work.pdu = emptyPdu ∧ t.work.goose = emptyGoose ∧
          (entry = .frame ∧ t.work.phase = .ethertype ∧ t.work.pos = start + 12 ∧ start + 14 ≤ s.buf.len ∨
            entry ≠ .frame ∧ (∃ ctx, t.work.phase = .header ctx) ∧ t.work.pos = start)) := by
  cases entry with
  | frame =>
    unfold openTransaction at h
    by_cases hl : start + 14 > s.buf.len
    · simp [hl] at h
    · simp only [if_neg hl, bind_eq_ok] at h
      obtain ⟨d, -, e, -, h⟩ := h
      obtain rfl := Except.ok.inj h
      exact ⟨⟨rfl, rfl, rfl⟩, .inr ⟨rfl, rfl, by simp, rfl, rfl, rfl, rfl, .inl ⟨rfl, rfl, rfl, by omega⟩⟩⟩
  | pdu =>
    obtain rfl := Except.ok.inj h
    exact ⟨⟨rfl, rfl, rfl⟩, .inr ⟨rfl, rfl, by simp, rfl, rfl, rfl, rfl, .inr ⟨by simp, ⟨_, rfl⟩, rfl⟩⟩⟩
  | element =>
    obtain rfl := Except.ok.inj h
    exact ⟨⟨rfl, rfl, rfl⟩, .inr ⟨rfl, rfl, by simp, rfl, rfl, rfl, rfl, .inr ⟨by simp, ⟨_, rfl⟩, rfl⟩⟩⟩
  | tagLength =>
    obtain rfl := Except.ok.inj h
    exact ⟨⟨rfl, rfl, rfl⟩, .inr ⟨rfl, rfl, by simp, rfl, rfl, rfl, rfl, .inr ⟨by simp, ⟨_, rfl⟩, rfl⟩⟩⟩
  | sequence bound =>
    unfold openTransaction at h
    by_cases hb : start < bound
    · simp only [if_pos hb] at h
      obtain rfl := Except.ok.inj h
      exact ⟨⟨rfl, rfl, rfl⟩, .inr ⟨rfl, rfl, by simp, rfl, rfl, rfl, rfl, .inr ⟨by simp, ⟨_, rfl⟩, rfl⟩⟩⟩
    · simp only [if_neg hb] at h
      obtain rfl := Except.ok.inj h
      exact ⟨⟨rfl, rfl, rfl⟩, .inl ⟨rfl, rfl⟩⟩

/-! ### Fetching -/

/-- What fetching at an address answers: the decoded instruction. -/
theorem fetchAt_eq_ok {s : State} {p : Position} {a at' : Nat} {i : Instr} :
    fetchAt s p a at' = .ok i ↔ decode s.cfg p (bytesFrom s.buf a) = .ok i := by
  unfold fetchAt
  split <;> simp_all

/-- Whether an instruction is one of the two requests. -/
def isRequestInstr : Instr → Bool
  | .encode _ _ _ => true
  | .decode _ _ => true
  | _ => false

/-- A tag at its position selects an instruction that is no request. -/
theorem tagInstr_not_request (cfg : Cfg) (ctx : TagContext) (tag : Byte) (n : Nat) (c : List Byte) :
    isRequestInstr (tagInstr cfg ctx tag n c) = false := by
  cases ctx with
  | value =>
    simp only [tagInstr, valueInstr]
    repeat' split
    all_goals rfl
  | pdu => rfl
  | field f => cases f <;> rfl
  | allData => rfl

/-- The instruction of a request is an ENCODE or a DECODE. -/
theorem instr_request {r : Request} {i : Instr} (h : r.instr = some i) :
    (∃ k hd a, i = .encode k hd a) ∨ (∃ hd a, i = .decode hd a) := by
  cases r <;> simp_all [Request.instr, eq_comm]

end Sys2Proof.Machine
end

