-- ==== Sys2Proof/Laws/PerInstr.lean ====
section
/-! SUPPORT. A law of every instruction, one lemma each: an instruction that stands at a position other than the request
port has bytes. -/

namespace Sys2Proof.Laws

/-- Well-formed at a position that is read from bytes, the instruction has an encoding. -/
def Encodes.Statement (i : Instr) : Prop :=
  ∀ (cfg : Cfg) (p : Position), i.wf cfg p = true → p ≠ .request → ∃ bs, encode cfg i = some bs

/-- A length that fits has length octets, so the element has bytes. -/
theorem encodeWith_of_lengthFits {cfg : Cfg} {len : Nat} (h : lengthFits cfg len = true) (tag : Byte)
    (body : List Byte) : ∃ bs, encodeWith cfg tag len body = some bs := by
  simp only [lengthFits, Bool.and_eq_true] at h
  obtain ⟨o, ho⟩ := Option.isSome_iff_exists.mp h.1
  exact ⟨_, by rw [encodeWith, ho]; rfl⟩

theorem Encodes.boolean (content : List Byte) : Encodes.Statement (.boolean content) := by
  intro cfg p h _
  simp only [Instr.wf, Bool.and_eq_true] at h
  exact encodeWith_of_lengthFits h.2 _ _

theorem Encodes.bitString (content : List Byte) : Encodes.Statement (.bitString content) := by
  intro cfg p h _
  simp only [Instr.wf, Bool.and_eq_true] at h
  exact encodeWith_of_lengthFits h.2 _ _

theorem Encodes.integer (content : List Byte) : Encodes.Statement (.integer content) := by
  intro cfg p h _
  simp only [Instr.wf, Bool.and_eq_true] at h
  exact encodeWith_of_lengthFits h.2 _ _

theorem Encodes.unsigned (content : List Byte) : Encodes.Statement (.unsigned content) := by
  intro cfg p h _
  simp only [Instr.wf, Bool.and_eq_true] at h
  exact encodeWith_of_lengthFits h.2 _ _

theorem Encodes.float (content : List Byte) : Encodes.Statement (.float content) := by
  intro cfg p h _
  simp only [Instr.wf, Bool.and_eq_true] at h
  exact encodeWith_of_lengthFits h.2 _ _

theorem Encodes.octetString (content : List Byte) : Encodes.Statement (.octetString content) := by
  intro cfg p h _
  simp only [Instr.wf, Bool.and_eq_true] at h
  exact encodeWith_of_lengthFits h.2 _ _

theorem Encodes.visibleString (content : List Byte) : Encodes.Statement (.visibleString content) := by
  intro cfg p h _
  simp only [Instr.wf, Bool.and_eq_true] at h
  exact encodeWith_of_lengthFits h.2 _ _

theorem Encodes.mmsString (content : List Byte) : Encodes.Statement (.mmsString content) := by
  intro cfg p h _
  simp only [Instr.wf, Bool.and_eq_true] at h
  exact encodeWith_of_lengthFits h.2 _ _

theorem Encodes.utcTime (content : List Byte) : Encodes.Statement (.utcTime content) := by
  intro cfg p h _
  simp only [Instr.wf, Bool.and_eq_true] at h
  exact encodeWith_of_lengthFits h.2 _ _

theorem Encodes.array (len : Nat) : Encodes.Statement (.array len) := by
  intro cfg p h _
  simp only [Instr.wf, Bool.and_eq_true] at h
  exact encodeWith_of_lengthFits h.2 _ _

theorem Encodes.struct (len : Nat) : Encodes.Statement (.struct len) := by
  intro cfg p h _
  simp only [Instr.wf, Bool.and_eq_true] at h
  exact encodeWith_of_lengthFits h.2 _ _

theorem Encodes.unknownTag (tag : Byte) (content : List Byte) : Encodes.Statement (.unknownTag tag content) := by
  intro cfg p h _
  simp only [Instr.wf, Bool.and_eq_true] at h
  exact encodeWith_of_lengthFits h.2 _ _

theorem Encodes.pdu (tag : Byte) (len : Nat) : Encodes.Statement (.pdu tag len) := by
  intro cfg p h _
  simp only [Instr.wf, Bool.and_eq_true] at h
  exact encodeWith_of_lengthFits h.2 _ _

theorem Encodes.pduGocbRef (tag : Byte) (content : List Byte) : Encodes.Statement (.pduGocbRef tag content) := by
  intro cfg p h _
  simp only [Instr.wf, Bool.and_eq_true] at h
  exact encodeWith_of_lengthFits h.2 _ _

theorem Encodes.pduTimeAllowedToLive (tag : Byte) (content : List Byte) :
    Encodes.Statement (.pduTimeAllowedToLive tag content) := by
  intro cfg p h _
  simp only [Instr.wf, Bool.and_eq_true] at h
  exact encodeWith_of_lengthFits h.2 _ _

theorem Encodes.pduDatSet (tag : Byte) (content : List Byte) : Encodes.Statement (.pduDatSet tag content) := by
  intro cfg p h _
  simp only [Instr.wf, Bool.and_eq_true] at h
  exact encodeWith_of_lengthFits h.2 _ _

theorem Encodes.pduGoId (tag : Byte) (content : List Byte) : Encodes.Statement (.pduGoId tag content) := by
  intro cfg p h _
  simp only [Instr.wf, Bool.and_eq_true] at h
  exact encodeWith_of_lengthFits h.2 _ _

theorem Encodes.pduT (tag : Byte) (content : List Byte) : Encodes.Statement (.pduT tag content) := by
  intro cfg p h _
  simp only [Instr.wf, Bool.and_eq_true] at h
  exact encodeWith_of_lengthFits h.2 _ _

theorem Encodes.pduStNum (tag : Byte) (content : List Byte) : Encodes.Statement (.pduStNum tag content) := by
  intro cfg p h _
  simp only [Instr.wf, Bool.and_eq_true] at h
  exact encodeWith_of_lengthFits h.2 _ _

theorem Encodes.pduSqNum (tag : Byte) (content : List Byte) : Encodes.Statement (.pduSqNum tag content) := by
  intro cfg p h _
  simp only [Instr.wf, Bool.and_eq_true] at h
  exact encodeWith_of_lengthFits h.2 _ _

theorem Encodes.pduSimulation (tag : Byte) (content : List Byte) :
    Encodes.Statement (.pduSimulation tag content) := by
  intro cfg p h _
  simp only [Instr.wf, Bool.and_eq_true] at h
  exact encodeWith_of_lengthFits h.2 _ _

theorem Encodes.pduConfRev (tag : Byte) (content : List Byte) : Encodes.Statement (.pduConfRev tag content) := by
  intro cfg p h _
  simp only [Instr.wf, Bool.and_eq_true] at h
  exact encodeWith_of_lengthFits h.2 _ _

theorem Encodes.pduNdsCom (tag : Byte) (content : List Byte) : Encodes.Statement (.pduNdsCom tag content) := by
  intro cfg p h _
  simp only [Instr.wf, Bool.and_eq_true] at h
  exact encodeWith_of_lengthFits h.2 _ _

theorem Encodes.pduNumDatSetEntries (tag : Byte) (content : List Byte) :
    Encodes.Statement (.pduNumDatSetEntries tag content) := by
  intro cfg p h _
  simp only [Instr.wf, Bool.and_eq_true] at h
  exact encodeWith_of_lengthFits h.2 _ _

theorem Encodes.pduAllData (tag : Byte) (len : Nat) : Encodes.Statement (.pduAllData tag len) := by
  intro cfg p h _
  simp only [Instr.wf, Bool.and_eq_true] at h
  exact encodeWith_of_lengthFits h.2 _ _

theorem Encodes.lenShort (len : BitVec 7) : Encodes.Statement (.lenShort len) :=
  fun _ _ _ _ => ⟨_, rfl⟩

theorem Encodes.lenLong1 (len : BitVec 8) : Encodes.Statement (.lenLong1 len) :=
  fun _ _ _ _ => ⟨_, rfl⟩

theorem Encodes.lenLong2 (len : BitVec 16) : Encodes.Statement (.lenLong2 len) :=
  fun _ _ _ _ => ⟨_, rfl⟩

theorem Encodes.lenLong3 (len : BitVec 24) : Encodes.Statement (.lenLong3 len) :=
  fun _ _ _ _ => ⟨_, rfl⟩

theorem Encodes.lenLong4 (len : BitVec 32) : Encodes.Statement (.lenLong4 len) :=
  fun _ _ _ _ => ⟨_, rfl⟩

theorem Encodes.lenMalformedIndefinite : Encodes.Statement .lenMalformedIndefinite :=
  fun _ _ _ _ => ⟨_, rfl⟩

theorem Encodes.lenMalformedTooLong (first : Byte) : Encodes.Statement (.lenMalformedTooLong first) :=
  fun _ _ _ _ => ⟨_, rfl⟩

theorem Encodes.ethVlanMarker (tci : BitVec 16) (inner : BitVec 16) : Encodes.Statement (.ethVlanMarker tci inner) :=
  fun _ _ _ _ => ⟨_, rfl⟩

theorem Encodes.ethGooseEthertype (header : GooseHeader) : Encodes.Statement (.ethGooseEthertype header) :=
  fun _ _ _ _ => ⟨_, rfl⟩

theorem Encodes.ethOtherEthertype (word : BitVec 16) : Encodes.Statement (.ethOtherEthertype word) :=
  fun _ _ _ _ => ⟨_, rfl⟩

theorem Encodes.prpTrailer (seq : BitVec 16) (lanId : BitVec 4) (size : BitVec 12) :
    Encodes.Statement (.prpTrailer seq lanId size) :=
  fun _ _ _ _ => ⟨_, rfl⟩

theorem Encodes.encode (packet : GoosePacket) (hand : Option Memory) (start : Nat) :
    Encodes.Statement (.encode packet hand start) := by
  intro cfg p h hp
  simp only [Instr.wf, Bool.and_eq_true, decide_eq_true_eq] at h
  exact absurd h.1 hp

theorem Encodes.decode (hand : Option Memory) (start : Nat) : Encodes.Statement (.decode hand start) := by
  intro cfg p h hp
  simp only [Instr.wf, Bool.and_eq_true, decide_eq_true_eq] at h
  exact absurd h.1 hp

end Sys2Proof.Laws
end

