-- ==== Sys2Proof/Tests/Slice0.lean ====
section
/-! SUPPORT. The model's own tests: ill-formed terms that `Instr.wf` refuses, words written out from the spec's
encodings, single steps on the vectors of 95_test_vectors.md, and a witness for the hypotheses of every statement. -/

set_option maxRecDepth 20000

namespace Sys2Proof.Tests

open Sys2Proof Sys2Proof.Machine

/-- Bytes from their numbers. -/
def bytes (l : List Nat) : List Byte := l.map (BitVec.ofNat 8)

/-- A block with the default configuration, these bytes in its buffer and these working values. -/
def blockWith (bs : List Byte) (w : Work) : State := ⟨Cfg.default, memOfBytes bs, [], w, none⟩

/-- An idle block with these bytes in its buffer. -/
def idleBlock (bs : List Byte) : State := blockWith bs Work.idle

/-- A block inside a sequence that ends at 100, at the content of an element whose tag is at 2. -/
def inSequence : State :=
  blockWith [] { Work.idle with entry := .sequence 100, phase := .tag .value, pos := 4, tagPos := 2, endBound := some 100 }

/-- A block at the content of an element decoded alone. -/
def atElement (bs : List Byte) : State :=
  blockWith bs { Work.idle with entry := .element, phase := .tag .value, pos := 2 }

/-- A block at the tag byte of an element decoded alone, at offset 0. -/
def atHeader (bs : List Byte) : State := blockWith bs { Work.idle with entry := .element, phase := .header .value }

/-- A block at the content of a PDU element whose tag is at 2. -/
def inPdu (ctx : TagContext) : State :=
  blockWith [] { Work.idle with entry := .pdu, phase := .tag ctx, pos := 4, tagPos := 2 }

/-- A block of an exposed DECODE_TAG_LENGTH at offset 0. -/
def atLoneHeader (bs : List Byte) : State :=
  blockWith bs { Work.idle with entry := .tagLength, phase := .header .value }

/-- The next state's outcome. -/
def outcomeOf : Host.Outcome State Fault Refusal → Option Response
  | .next t => t.outcome
  | _ => none

/-- The next state's current list. -/
def itemsOf : Host.Outcome State Fault Refusal → Option (List Value)
  | .next t => some t.work.items
  | _ => none

/-- The next state's PDU record. -/
def pduOf : Host.Outcome State Fault Refusal → Option GoosePdu
  | .next t => some t.work.pdu
  | _ => none

/-- The next state's phase and cursor. -/
def cursorOf : Host.Outcome State Fault Refusal → Option (Phase × Nat)
  | .next t => some (t.work.phase, t.work.pos)
  | _ => none

/-- The next state's buffer. -/
def bytesOf : Host.Outcome State Fault Refusal → Option (List Byte)
  | .next t => some (memBytes t.buf)
  | _ => none

/-- Whether a state comes next. -/
def goesOn : Host.Outcome State Fault Refusal → Bool
  | .next _ => true
  | _ => false

/-! ### Well-formedness refuses -/

/-- A packet for requests. -/
def somePacket : GoosePacket := ⟨emptyEth, emptyGoose, emptyPdu, none⟩

/-- Value elements stand at a value tag position only (R84). -/
theorem test_wf_value_elsewhere :
    [Instr.boolean [], .bitString [], .integer [], .unsigned [], .float [], .octetString [], .visibleString [],
      .mmsString [], .utcTime [], .array 0, .struct 0, .unknownTag 0x8B#8 []].all
        (fun i => i.wf Cfg.default (.tag .value) && !i.wf Cfg.default (.tag .pdu)) = true := by decide

/-- PDU elements stand at their own position only (R84, R178). -/
theorem test_wf_pdu_elsewhere :
    [Instr.pdu 0x61#8 0, .pduGocbRef 0x80#8 [], .pduTimeAllowedToLive 0x81#8 [], .pduDatSet 0x82#8 [],
      .pduGoId 0x83#8 [], .pduT 0x84#8 [], .pduStNum 0x85#8 [], .pduSqNum 0x86#8 [], .pduSimulation 0x87#8 [],
      .pduConfRev 0x88#8 [], .pduNdsCom 0x89#8 [], .pduNumDatSetEntries 0x8A#8 [], .pduAllData 0xAB#8 0].all
        (fun i => !i.wf Cfg.default (.tag .value)) = true := by decide

/-- Length rows stand at a length octet only (R72). -/
theorem test_wf_length_elsewhere :
    [Instr.lenShort 0#7, .lenLong1 0#8, .lenLong2 0#16, .lenLong3 0#24, .lenLong4 0#32, .lenMalformedIndefinite,
      .lenMalformedTooLong 0x85#8].all
        (fun i => i.wf Cfg.default .length && !i.wf Cfg.default (.tag .value)) = true := by decide

/-- Frame rows stand at their own word only (R203, R207): no VLAN marker behind a VLAN tag. -/
theorem test_wf_frame_elsewhere :
    [Instr.ethVlanMarker 5#16 0x88B8#16, .prpTrailer 7#16 0xA#4 75#12].all
      (fun i => !i.wf Cfg.default .innerEthertype) = true ∧
    (Instr.ethGooseEthertype emptyGoose).wf Cfg.default .trailer = false ∧
    (Instr.ethOtherEthertype 0x0800#16).wf Cfg.default .trailer = false := by decide

/-- A content length of 2^32 has no length octets (R102). -/
theorem test_wf_length_too_large :
    [Instr.array (2 ^ 32), .struct (2 ^ 32)].all (fun i => !i.wf Cfg.default (.tag .value)) = true ∧
    (Instr.pdu 0x61#8 (2 ^ 32)).wf Cfg.default (.tag .pdu) = false ∧
    (Instr.pduAllData 0xAB#8 (2 ^ 32)).wf Cfg.default (.tag .allData) = false ∧
    (Instr.array (2 ^ 32 - 1)).wf Cfg.default (.tag .value) = true := by decide

/-- With one length octet at most, 256 content bytes do not fit, whatever the element. -/
theorem test_wf_content_too_long :
    let c := List.replicate 256 0#8
    let cfg := { Cfg.default with maxLenOctets := 1 }
    [Instr.boolean c, .bitString c, .integer c, .unsigned c, .float c, .octetString c, .visibleString c, .mmsString c,
      .utcTime c, .unknownTag 0x8B#8 c].all (fun i => !i.wf cfg (.tag .value)) = true ∧
    (Instr.pduGocbRef 0x80#8 c).wf cfg (.tag (.field .gocbRef)) = false ∧
    (Instr.pduTimeAllowedToLive 0x81#8 c).wf cfg (.tag (.field .timeAllowedToLive)) = false ∧
    (Instr.pduDatSet 0x82#8 c).wf cfg (.tag (.field .datSet)) = false ∧
    (Instr.pduGoId 0x83#8 c).wf cfg (.tag (.field .goID)) = false ∧
    (Instr.pduT 0x84#8 c).wf cfg (.tag (.field .t)) = false ∧
    (Instr.pduStNum 0x85#8 c).wf cfg (.tag (.field .stNum)) = false ∧
    (Instr.pduSqNum 0x86#8 c).wf cfg (.tag (.field .sqNum)) = false ∧
    (Instr.pduSimulation 0x87#8 c).wf cfg (.tag (.field .simulation)) = false ∧
    (Instr.pduConfRev 0x88#8 c).wf cfg (.tag (.field .confRev)) = false ∧
    (Instr.pduNdsCom 0x89#8 c).wf cfg (.tag (.field .ndsCom)) = false ∧
    (Instr.pduNumDatSetEntries 0x8A#8 c).wf cfg (.tag (.field .numDatSetEntries)) = false := by decide

/-- A tag the table lists is no unknown tag (R77). -/
theorem test_wf_known_tag : (Instr.unknownTag 0x85#8 []).wf Cfg.default (.tag .value) = false := by decide

/-- A long form of more octets than `MAX_LEN_OCTETS` is no long form (R72). -/
theorem test_wf_too_many_octets :
    (Instr.lenLong1 0#8).wf { Cfg.default with maxLenOctets := 0 } .length = false ∧
    (Instr.lenLong2 0#16).wf { Cfg.default with maxLenOctets := 1 } .length = false ∧
    (Instr.lenLong3 0#24).wf { Cfg.default with maxLenOctets := 2 } .length = false ∧
    (Instr.lenLong4 0#32).wf { Cfg.default with maxLenOctets := 3 } .length = false := by decide

/-- 0x80 and the legal long forms are not too long (R73). -/
theorem test_wf_not_too_long :
    [0x00#8, 0x80#8, 0x81#8, 0x84#8].all
      (fun l0 => !(Instr.lenMalformedTooLong l0).wf Cfg.default .length) = true := by decide

/-- The GOOSE ethertype is not other traffic; nor is the VLAN marker at s+12 (R204). -/
theorem test_wf_not_other :
    (Instr.ethOtherEthertype 0x88B8#16).wf Cfg.default .innerEthertype = false ∧
    (Instr.ethOtherEthertype 0x8100#16).wf Cfg.default .ethertype = false ∧
    (Instr.ethOtherEthertype 0x8100#16).wf Cfg.default .innerEthertype = true := by decide

/-- Requests stand at the request port, with a buffer in canonical form. -/
theorem test_wf_request_buffer :
    (Instr.decode none 0).wf Cfg.default .ethertype = false ∧
    (Instr.encode somePacket none 0).wf Cfg.default .ethertype = false ∧
    (Instr.decode (some ⟨1, [(0, 0x00#8)]⟩) 0).wf Cfg.default .request = false ∧
    (Instr.encode somePacket (some ⟨1, [(1, 0x01#8)]⟩) 0).wf Cfg.default .request = false ∧
    (Instr.decode (some ⟨1, [(0, 0x01#8)]⟩) 0).wf Cfg.default .request = true := by decide

/-! ### Words written out from 30_encoding.md (R70 to R83) -/

/-- What the decoder reads at a value tag position. -/
def atValue (l : List Nat) : Option Instr := (decode Cfg.default (.tag .value) (bytes l)).toOption
/-- What the decoder reads at a PDU position. -/
def atPdu (ctx : TagContext) (l : List Nat) : Option Instr := (decode Cfg.default (.tag ctx) (bytes l)).toOption
/-- What the decoder reads at a first length octet. -/
def atLength (l : List Nat) : Option Instr := (decode Cfg.default .length (bytes l)).toOption
/-- What the decoder reads at the word at s+12. -/
def atEthertype (l : List Nat) : Option Instr := (decode Cfg.default .ethertype (bytes l)).toOption

/-- R75, with the elements of 95 section 2.2. -/
theorem test_decode_value_rows :
    atValue [0x83, 0x01, 0xFF] = some (.boolean [0xFF#8]) ∧
    atValue [0x84, 0x02, 0x03, 0xA0] = some (.bitString [0x03#8, 0xA0#8]) ∧
    atValue [0x85, 0x02, 0x00, 0x80] = some (.integer [0x00#8, 0x80#8]) ∧
    atValue [0x86, 0x01, 0xC8] = some (.unsigned [0xC8#8]) ∧
    atValue [0x87, 0x05, 0x08, 0x3F, 0x80, 0x00, 0x00] = some (.float [0x08#8, 0x3F#8, 0x80#8, 0x00#8, 0x00#8]) ∧
    atValue [0x89, 0x00] = some (.octetString []) ∧
    atValue [0x8A, 0x03, 0x61, 0x62, 0x63] = some (.visibleString [0x61#8, 0x62#8, 0x63#8]) ∧
    atValue [0x90, 0x02, 0xC3, 0xA9] = some (.mmsString [0xC3#8, 0xA9#8]) ∧
    atValue [0x91, 0x08, 0x5F, 0x00, 0x00, 0x01, 0x80, 0x00, 0x00, 0x0A] =
      some (.utcTime [0x5F#8, 0x00#8, 0x00#8, 0x01#8, 0x80#8, 0x00#8, 0x00#8, 0x0A#8]) ∧
    atValue [0xA1, 0x81, 0x03, 0x83, 0x01, 0x01] = some (.array 3) ∧
    atValue [0xA2, 0x12] = some (.struct 18) ∧
    atValue [0x8B, 0x01, 0x00] = some (.unknownTag 0x8B#8 [0x00#8]) := by decide

/-- R78, with the elements of P1. -/
theorem test_decode_pdu_rows :
    atPdu .pdu [0x61, 0x3B] = some (.pdu 0x61#8 59) ∧
    atPdu (.field .gocbRef) [0x80, 0x01, 0x67] = some (.pduGocbRef 0x80#8 [0x67#8]) ∧
    atPdu (.field .timeAllowedToLive) [0x81, 0x02, 0x07, 0xD0] = some (.pduTimeAllowedToLive 0x81#8 [0x07#8, 0xD0#8]) ∧
    atPdu (.field .datSet) [0x82, 0x02, 0x64, 0x73] = some (.pduDatSet 0x82#8 [0x64#8, 0x73#8]) ∧
    atPdu (.field .goID) [0x83, 0x02, 0x69, 0x64] = some (.pduGoId 0x83#8 [0x69#8, 0x64#8]) ∧
    atPdu (.field .t) [0x84, 0x08, 0, 0, 0, 0, 0, 0, 0, 0] = some (.pduT 0x84#8 (List.replicate 8 0#8)) ∧
    atPdu (.field .stNum) [0x85, 0x01, 0x0C] = some (.pduStNum 0x85#8 [0x0C#8]) ∧
    atPdu (.field .sqNum) [0x86, 0x01, 0x17] = some (.pduSqNum 0x86#8 [0x17#8]) ∧
    atPdu (.field .simulation) [0x87, 0x01, 0x00] = some (.pduSimulation 0x87#8 [0x00#8]) ∧
    atPdu (.field .confRev) [0x88, 0x01, 0x01] = some (.pduConfRev 0x88#8 [0x01#8]) ∧
    atPdu (.field .ndsCom) [0x89, 0x01, 0x00] = some (.pduNdsCom 0x89#8 [0x00#8]) ∧
    atPdu (.field .numDatSetEntries) [0x8A, 0x01, 0x02] = some (.pduNumDatSetEntries 0x8A#8 [0x02#8]) ∧
    atPdu .allData [0xAB, 0x06] = some (.pduAllData 0xAB#8 6) := by decide

/-- R72 and R73: the length octets of 95 section 2.1. -/
theorem test_decode_length_rows :
    atLength [0x7F] = some (.lenShort 127#7) ∧
    atLength [0x81, 0xFF] = some (.lenLong1 255#8) ∧
    atLength [0x82, 0x01, 0x00] = some (.lenLong2 256#16) ∧
    atLength [0x83, 0x01, 0x00, 0x00] = some (.lenLong3 65536#24) ∧
    atLength [0x84, 0x01, 0x00, 0x00, 0x00] = some (.lenLong4 16777216#32) ∧
    atLength [0x80] = some .lenMalformedIndefinite ∧
    atLength [0x85] = some (.lenMalformedTooLong 0x85#8) ∧
    atLength [0xFF] = some (.lenMalformedTooLong 0xFF#8) ∧
    atLength [0x82, 0x00] = none := by decide

/-- R79 to R83: the words of F1 and F2, and the ethertype of IPv4. -/
theorem test_decode_frame_rows :
    atEthertype [0x81, 0x00, 0xE0, 0x05, 0x88, 0xB8] = some (.ethVlanMarker 0xE005#16 0x88B8#16) ∧
    atEthertype [0x88, 0xB8, 0x00, 0x01, 0x00, 0x45, 0x00, 0x07, 0x00, 0x09] =
      some (.ethGooseEthertype ⟨1#16, 69#16, 7#16, 9#16⟩) ∧
    atEthertype [0x08, 0x00] = some (.ethOtherEthertype 0x0800#16) ∧
    (decode Cfg.default .innerEthertype (bytes [0x81, 0x00, 0x00, 0x06])).toOption =
      some (.ethOtherEthertype 0x8100#16) ∧
    (decode Cfg.default .trailer (bytes [0x00, 0x07, 0xA0, 0x4B, 0x88, 0xFB])).toOption =
      some (.prpTrailer 7#16 0xA#4 75#12) := by decide

/-- R25: ENCODE and DECODE are requests and no byte string. -/
theorem test_requests_are_no_bytes :
    encode Cfg.default (.decode none 0) = none ∧ encode Cfg.default (.encode somePacket none 0) = none ∧
    (decode Cfg.default .request [0x00#8]).toOption = none := by decide

/-- The decoder refuses by name. -/
theorem test_decode_refuses_by_name :
    (match decode Cfg.default .ethertype (bytes [0x81, 0x00, 0x00, 0x05]) with
      | .error e => decide (e = .tooShort 2) | .ok _ => false) = true ∧
    (match decode Cfg.default .trailer (bytes [0, 7, 0xA0, 0x4B, 0x88, 0xFC]) with
      | .error e => decide (e = .noPrpMarker) | .ok _ => false) = true ∧
    (match decode Cfg.default (.tag .value) (bytes [0x85, 0x80, 0x00]) with
      | .error e => decide (e = .malformedLength) | .ok _ => false) = true ∧
    (match decode Cfg.default (.tag .value) (bytes [0x85, 0x02, 0x01]) with
      | .error e => decide (e = .tooShort 0) | .ok _ => false) = true := by decide

/-- Table words: the row's instruction, and the step that runs it. -/
theorem test_table_words :
    decodeTableWord 8 0x85 = some (.integer []) ∧ decodeTableWord 8 0x61 = some (.pdu 0x61#8 0) ∧
    decodeTableWord 8 0x05 = some (.lenShort 5#7) ∧ decodeTableWord 8 0x8B = some (.unknownTag 0x8B#8 []) ∧
    decodeTableWord 16 0x8100 = some (.ethVlanMarker 0#16 0#16) ∧
    decodeTableWord 16 0x88FB = some (.prpTrailer 0#16 0#4 0#12) := by decide

/-- The step runs the word placed where it fetches. -/
theorem test_step_runs_table_word :
    step (State.reset.withFetchWord 8 0x85) = exec (.integer []) (State.reset.withFetchWord 8 0x85) := rfl

/-! ### Single steps: the vectors of 95 section 2 -/

theorem test_boolean : itemsOf (exec (.boolean [0xFF#8]) inSequence) = some [.boolean true] := by decide
theorem test_boolean_width :
    outcomeOf (exec (.boolean []) inSequence) = some (.sequence (.error ⟨.unsupportedWidth, 2⟩)) := by decide
theorem test_integer : itemsOf (exec (.integer [0xFF#8, 0xFF#8, 0xFF#8]) inSequence) = some [.int32 (-1)] := by decide
theorem test_integer_long :
    itemsOf (exec (.integer (bytes [0x00, 0x80, 0, 0, 0])) inSequence) = some [.int64 2147483648] := by decide
theorem test_unsigned_padded :
    itemsOf (exec (.unsigned (bytes [0, 0xFF, 0xFF, 0xFF, 0xFF])) inSequence) = some [.uint32 4294967295] := by decide
theorem test_unsigned_oversize :
    outcomeOf (exec (.unsigned (bytes [1, 0, 0, 0, 0])) inSequence) =
      some (.sequence (.error ⟨.oversizeUnsigned, 2⟩)) := by decide
theorem test_float :
    itemsOf (exec (.float (bytes [0x00, 0x7F, 0xC0, 0x00, 0x01])) inSequence) = some [.float32 0x7FC00001#32] := by decide
theorem test_float_wide :
    itemsOf (exec (.float (bytes [0x0B, 0x3F, 0xF0, 0, 0, 0, 0, 0, 0])) inSequence) =
      some [.float64 0x3FF0000000000000#64] := by decide
theorem test_bit_string :
    itemsOf (exec (.bitString [0x03#8, 0xA0#8]) inSequence) = some [.bitString 3 [0xA0#8]] := by decide
theorem test_bit_string_padding :
    outcomeOf (exec (.bitString [0x08#8, 0xFF#8]) inSequence) =
      some (.sequence (.error ⟨.invalidBitStringPadding, 2⟩)) := by decide
theorem test_strings :
    itemsOf (exec (.octetString []) inSequence) = some [.octetString []] ∧
    itemsOf (exec (.visibleString [0x61#8]) inSequence) = some [.visibleString [0x61#8]] ∧
    itemsOf (exec (.mmsString [0xC3#8, 0xA9#8]) inSequence) = some [.mmsString [0xC3#8, 0xA9#8]] := by decide
theorem test_utc_time :
    itemsOf (exec (.utcTime (bytes [0x5F, 0, 0, 1, 0x80, 0, 0, 0x0A])) inSequence) =
      some [.utcTime #v[0x5F#8, 0x00#8, 0x00#8, 0x01#8, 0x80#8, 0x00#8, 0x00#8, 0x0A#8]] := by decide
theorem test_unknown_tag :
    outcomeOf (exec (.unknownTag 0x8F#8 []) inSequence) = some (.sequence (.error ⟨.unknownDataType, 2⟩)) := by decide
theorem test_array_empty :
    outcomeOf (exec (.array 0) (atElement (bytes [0xA1, 0]))) = some (.element (.ok (2, .array .nil))) := by decide
theorem test_struct_enters :
    cursorOf (exec (.struct 18) (atElement (bytes [0xA2, 18]))) = some (.header .value, 2) := by decide
/-- `A1 02 85 01 05 83 01 01` (R156): the child ends past the container's end and closes it. -/
theorem test_container_overrun :
    outcomeOf (exec (.integer [0x05#8]) (blockWith []
      { Work.idle with
        entry := .element, phase := .tag .value, pos := 4, tagPos := 2, endBound := some 4
        stack := [⟨.array, none, []⟩] })) =
      some (.element (.ok (5, .array (.cons (.int8 5) .nil)))) := by decide

theorem test_len_short :
    outcomeOf (exec (.lenShort 1#7) (atLoneHeader (bytes [0x85, 1, 2]))) =
      some (.tagLength (.ok (0x85#8, 1, 2))) := by decide
theorem test_len_long_1 :
    outcomeOf (exec (.lenLong1 1#8) (atLoneHeader (bytes [0x85, 0x81, 1, 7]))) =
      some (.tagLength (.ok (0x85#8, 1, 3))) := by decide
theorem test_len_long_4 :
    outcomeOf (exec (.lenLong4 0#32) (atLoneHeader (bytes [0xA1, 0x84, 0, 0, 0, 0]))) =
      some (.tagLength (.ok (0xA1#8, 0, 6))) := by decide
theorem test_len_past_the_end :
    outcomeOf (step (atLoneHeader (bytes [0x85, 2, 1]))) = some (.tagLength (.error ⟨.bufferTooShort, 0⟩)) ∧
    outcomeOf (step (atLoneHeader (bytes [0x85, 0x82, 0]))) = some (.tagLength (.error ⟨.bufferTooShort, 0⟩)) ∧
    outcomeOf (step (atLoneHeader (bytes [0x85]))) = some (.tagLength (.error ⟨.bufferTooShort, 0⟩)) := by decide
theorem test_len_malformed :
    outcomeOf (step (atLoneHeader (bytes [0x85, 0x80, 0]))) = some (.tagLength (.error ⟨.malformedLength, 0⟩)) ∧
    outcomeOf (step (atLoneHeader (bytes [0x85, 0x85, 0, 0, 0, 0, 1, 0]))) =
      some (.tagLength (.error ⟨.malformedLength, 0⟩)) := by decide

theorem test_pdu_tag :
    cursorOf (exec (.pdu 0x61#8 59) (inPdu .pdu)) = some (.header (.field .gocbRef), 4) ∧
    outcomeOf (exec (.pdu 0x62#8 59) (inPdu .pdu)) = some (.pdu (.error ⟨.pduTagMismatch, 2⟩)) := by decide
theorem test_pdu_number_fields :
    (pduOf (exec (.pduTimeAllowedToLive 0x81#8 [0x07#8, 0xD0#8]) (inPdu (.field .timeAllowedToLive)))).map
      (·.timeAllowedToLive) = some 2000#32 ∧
    (pduOf (exec (.pduStNum 0x85#8 [0x0C#8]) (inPdu (.field .stNum)))).map (·.stNum) = some 12#32 ∧
    (pduOf (exec (.pduSqNum 0x86#8 [0x17#8]) (inPdu (.field .sqNum)))).map (·.sqNum) = some 23#32 ∧
    (pduOf (exec (.pduConfRev 0x88#8 [0x01#8]) (inPdu (.field .confRev)))).map (·.confRev) = some 1#32 ∧
    (pduOf (exec (.pduNumDatSetEntries 0x8A#8 [0x02#8]) (inPdu (.field .numDatSetEntries)))).map
      (·.numDatSetEntries) = some 2#32 := by decide
/-- The tag byte of a fixed field is not looked up (R178): 0x99 in place of 0x80. -/
theorem test_pdu_string_fields :
    (pduOf (exec (.pduGocbRef 0x99#8 [0x67#8]) (inPdu (.field .gocbRef)))).map (·.gocbRef) = some [0x67#8] ∧
    (pduOf (exec (.pduDatSet 0x82#8 [0x64#8]) (inPdu (.field .datSet)))).map (·.datSet) = some [0x64#8] ∧
    (pduOf (exec (.pduGoId 0x83#8 [0x69#8]) (inPdu (.field .goID)))).map (·.goID) = some [0x69#8] := by decide
theorem test_pdu_flag_and_time_fields :
    (pduOf (exec (.pduSimulation 0x87#8 [0x02#8]) (inPdu (.field .simulation)))).map (·.simulation) = some true ∧
    (pduOf (exec (.pduNdsCom 0x89#8 [0x01#8]) (inPdu (.field .ndsCom)))).map (·.ndsCom) = some true ∧
    outcomeOf (exec (.pduT 0x84#8 (List.replicate 7 0#8)) (inPdu (.field .t))) =
      some (.pdu (.error ⟨.unsupportedWidth, 2⟩)) := by decide
theorem test_pdu_all_data :
    cursorOf (exec (.pduAllData 0xAB#8 6) (inPdu .allData)) = some (.header .value, 4) ∧
    outcomeOf (exec (.pduAllData 0xAC#8 6) (inPdu .allData)) = some (.pdu (.error ⟨.allDataTagMismatch, 2⟩)) := by
  decide

theorem test_vlan_drops_priority :
    (match exec (.ethVlanMarker 0xE005#16 0x88B8#16) (idleBlock []) with
      | .next t => some (t.work.eth.vlan, t.work.phase, t.work.pos)
      | _ => none) = some (some 5#12, .innerEthertype, 4) := by decide
theorem test_prp_lan :
    outcomeOf (exec (.prpTrailer 7#16 0xC#4 75#12) (blockWith [] { Work.idle with phase := .trailer, pos := 87 })) =
      some (.decode (some (.error ⟨.malformedPrpLan, 89⟩))) := by decide

/-! ### Whole transactions: the frames of 95 section 2.6 -/

/-- P1 with the count the encoder writes. -/
def p1 : GoosePdu :=
  ⟨bytes [0x74, 0x65, 0x73, 0x74, 0x47, 0x6F, 0x6F, 0x73, 0x65], 2000#32, bytes [0x64, 0x73], bytes [0x69, 0x64],
    Vector.replicate 8 0#8, 12#32, 23#32, false, 1#32, false, 2#32, [.int8 2#8, .boolean true]⟩

/-- The addresses of F1 and F2. -/
def eth1 : EthernetFrameHeader :=
  ⟨#v[0x01#8, 0x0C#8, 0xCD#8, 0x01#8, 0x00#8, 0x01#8], #v[0x00#8, 0x11#8, 0x22#8, 0x33#8, 0x44#8, 0x55#8], none⟩

/-- The packet DECODE reads from F1. -/
def k1 : GoosePacket := ⟨eth1, ⟨1#16, 69#16, 0#16, 0#16⟩, p1, none⟩

/-- The packet DECODE reads from F2. -/
def k2 : GoosePacket := { k1 with eth := { eth1 with vlan := some 5#12 }, prp := some ⟨7#16, .A, 75#12⟩ }

/-- The bytes of P1, as 95 section 2.5 prints them. -/
def p1Bytes : List Nat :=
  [0x61, 0x3B, 0x80, 0x09, 0x74, 0x65, 0x73, 0x74, 0x47, 0x6F, 0x6F, 0x73, 0x65, 0x81, 0x02, 0x07, 0xD0, 0x82, 0x02,
    0x64, 0x73, 0x83, 0x02, 0x69, 0x64, 0x84, 0x08, 0x00, 0x00, 0x00, 0x00, 0x00, 0x00, 0x00, 0x00, 0x85, 0x01, 0x0C,
    0x86, 0x01, 0x17, 0x87, 0x01, 0x00, 0x88, 0x01, 0x01, 0x89, 0x01, 0x00, 0x8A, 0x01, 0x02, 0xAB, 0x06, 0x85, 0x01,
    0x02, 0x83, 0x01, 0x01]

/-- F1. -/
def f1 : List Byte :=
  bytes ([0x01, 0x0C, 0xCD, 0x01, 0x00, 0x01, 0x00, 0x11, 0x22, 0x33, 0x44, 0x55, 0x88, 0xB8, 0x00, 0x01, 0x00, 0x45,
    0x00, 0x00, 0x00, 0x00] ++ p1Bytes)

/-- F2. -/
def f2 : List Byte :=
  bytes ([0x01, 0x0C, 0xCD, 0x01, 0x00, 0x01, 0x00, 0x11, 0x22, 0x33, 0x44, 0x55, 0x81, 0x00, 0x00, 0x05, 0x88, 0xB8,
    0x00, 0x01, 0x00, 0x45, 0x00, 0x00, 0x00, 0x00] ++ p1Bytes ++ [0x00, 0x07, 0xA0, 0x4B, 0x88, 0xFB])

theorem test_decode_f1 : outcomeOf (exec (.decode none 0) (idleBlock f1)) = some (.decode (some (.ok k1))) := by decide +kernel

theorem test_decode_f2_lan :
    outcomeOf (exec (.decode none 0) (idleBlock (f2.set 89 0xC0#8))) =
      some (.decode (some (.error ⟨.malformedPrpLan, 89⟩))) := by decide +kernel

/-- PROG1, step 1: the counts the caller gives do not matter. -/
theorem test_encode_f1 :
    let r := exec (.encode { k1 with goose := ⟨1#16, 0#16, 7#16, 0#16⟩, pdu := { p1 with numDatSetEntries := 0#32 } } none 0)
      (idleBlock (List.replicate 83 0#8))
    outcomeOf r = some (.encode (.ok 83)) ∧ bytesOf r = some f1 := by decide +kernel

theorem test_encode_f2 :
    bytesOf (exec (.encode k2 none 0) (idleBlock (List.replicate 93 0#8))) = some f2 := by decide +kernel

/-! ### Witnesses: a concrete state and operands that meet all the hypotheses of each statement together -/

theorem eq_ok_of_toOption {ε α : Type} {x : Except ε α} {a : α} (h : x.toOption = some a) : x = .ok a := by
  cases x <;> simp_all [Except.toOption]

theorem exists_next {o : Host.Outcome State Fault Refusal} (h : goesOn o = true) : ∃ t, o = .next t := by
  cases o <;> simp_all [goesOn]

theorem exists_outcome {o : Host.Outcome State Fault Refusal} {r : Response} (h : outcomeOf o = some r) :
    ∃ t, o = .next t ∧ t.outcome = some r := by
  cases o <;> simp_all [outcomeOf]

/-- The sequence of `inSequence` goes on after up to 95 bytes. -/
theorem inSequence_more {n : Nat} (h : n ≤ 95) : inSequence.more n :=
  ⟨100, rfl, show 4 + n < 100 by omega⟩

/-- A block that holds the header of `85 01 02`, decoded alone: the invariant holds and the step comes next. -/
def heldHeader : State :=
  blockWith (bytes [0x85, 1, 2])
    { Work.idle with entry := .element, phase := .tag .value, pos := 2, tagPos := 0, tag := 0x85#8, len := 1 }

theorem heldHeader_inv : heldHeader.Inv where
  bufWf := by decide
  requestsWf := by simp [heldHeader, blockWith]
  idleClean := by simp [heldHeader, blockWith]
  contentInside := fun _ _ => by decide
  trailerThere := by simp [heldHeader, blockWith]
  cursorInside := by simp [heldHeader, blockWith]
  stackAgrees := rfl

theorem witness_DecodeInvertsEncode :
    Cfg.default.Valid ∧ Position.tag .value ≠ .request ∧
      (Instr.octetString (List.replicate 128 0xAA#8)).wf Cfg.default (.tag .value) = true := by decide

theorem witness_DecodedInstructionsAreWellFormed :
    decode Cfg.default .length [0x84#8, 0xFF#8, 0xFF#8, 0xFF#8, 0xFF#8] = .ok (.lenLong4 0xFFFFFFFF#32) := rfl

theorem witness_EncodeLengthIsShortest :
    Cfg.default.maxLenOctets = 4 ∧ 0x7F < 0x80 ∧ (0x80 ≤ 0x80 ∧ 0x80 < 2 ^ 32) ∧
      (0x80 ≤ 2 ^ 32 - 1 ∧ 2 ^ 32 - 1 < 2 ^ 32) ∧ 2 ^ 32 ≤ 2 ^ 32 := by decide

theorem witness_TagLengthReadsEncodedLength :
    let m : Memory := { memOfBytes (bytes [0x89, 0x81, 0x80]) with len := 131 }
    Cfg.default.Valid ∧ encodeLength Cfg.default 0 128 = .ok [0x81#8, 0x80#8] ∧
      memRead m 0 (1 + [0x81#8, 0x80#8].length) = .ok [0x89#8, 0x81#8, 0x80#8] ∧
      0 + 1 + [0x81#8, 0x80#8].length + 128 ≤ m.len :=
  ⟨by decide, rfl, rfl, by decide⟩

/-- Six bytes: each length form at the largest length that fits. -/
theorem witness_LengthRowsHoldTheHeader :
    let s := atHeader (bytes [0x89, 0, 0, 0, 0, 0])
    s.work.phase = .header .value ∧ s.work.entry ≠ .tagLength ∧ memByte? s.buf s.work.pos = some 0x89#8 ∧
      s.work.pos + 2 + (4#7).toNat = s.buf.len ∧ s.work.pos + 3 + (3#8).toNat = s.buf.len ∧
      s.work.pos + 4 + (2#16).toNat = s.buf.len ∧ s.work.pos + 5 + (1#24).toNat = s.buf.len ∧
      s.work.pos + 6 + (0#32).toNat = s.buf.len := by decide

theorem witness_LoneTagLengthIsReturned :
    let s := atLoneHeader (bytes [0x89, 0, 0, 0, 0, 0])
    s.work.entry = .tagLength ∧ memByte? s.buf s.work.pos = some 0x89#8 ∧
      s.work.pos + 2 + (4#7).toNat = s.buf.len ∧ s.work.pos + 3 + (3#8).toNat = s.buf.len ∧
      s.work.pos + 4 + (2#16).toNat = s.buf.len ∧ s.work.pos + 5 + (1#24).toNat = s.buf.len ∧
      s.work.pos + 6 + (0#32).toNat = s.buf.len := by decide

/-- Six bytes: each length form at the smallest length that does not fit. -/
theorem witness_LengthRowsStopAtTheBufferEnd :
    let s := atHeader (bytes [0x89, 0, 0, 0, 0, 0])
    s.buf.len < s.work.pos + 2 + (5#7).toNat ∧ s.buf.len < s.work.pos + 3 + (4#8).toNat ∧
      s.buf.len < s.work.pos + 4 + (3#16).toNat ∧ s.buf.len < s.work.pos + 5 + (2#24).toNat ∧
      s.buf.len < s.work.pos + 6 + (1#32).toNat := by decide

theorem witness_MalformedLengthsRaise :
    (atHeader (bytes [0x89, 0x80])).cfg.maxLenOctets = 4 ∧ 0x85 ≤ (0x85#8).toNat ∧ 0x85 ≤ (0xFF#8).toNat ∧
      memRead (atHeader (bytes [0x89, 0x80])).buf 0 2 = .ok [0x89#8, 0x80#8] ∧ (0x80#8).toNat = 0x80 ∧
      memRead (atHeader (bytes [0x89, 0x85])).buf 0 2 = .ok [0x89#8, 0x85#8] :=
  ⟨rfl, by decide, by decide, rfl, by decide, rfl⟩

theorem witness_SignedNumbersSurvive :
    (-(2 ^ 63) ≤ (-(2 ^ 63) : Int) ∧ (-(2 ^ 63) : Int) < 2 ^ 63) ∧
      (-(2 ^ 63) ≤ (2 ^ 63 - 1 : Int) ∧ (2 ^ 63 - 1 : Int) < 2 ^ 63) := by decide

theorem witness_UnsignedNumbersSurvive : 2 ^ 32 - 1 < 2 ^ 32 := by decide

theorem witness_EncodedWidthsAreMinimal :
    (1 ≤ 7 ∧ 7 < signedWidth (2 ^ 63 - 1)) ∧ (1 ≤ 1 ∧ 1 < signedWidth (-129)) ∧
      (1 ≤ 4 ∧ 4 < unsignedWidth (2 ^ 32 - 1)) := by decide

theorem witness_NumberElementsJoinTheSequence :
    inSequence.more 1 ∧
      (inSequence.more [0x80#8].length ∧ 1 ≤ [0x80#8].length ∧ [0x80#8].length ≤ 8) ∧
      (inSequence.more (List.replicate 8 0x80#8).length ∧ 1 ≤ (List.replicate 8 0x80#8).length ∧
        (List.replicate 8 0x80#8).length ≤ 8) ∧
      (inSequence.more [0xC8#8].length ∧ legalUnsigned [0xC8#8]) ∧
      (inSequence.more (List.replicate 4 0xFF#8).length ∧ legalUnsigned (List.replicate 4 0xFF#8)) ∧
      (inSequence.more (0x00#8 :: List.replicate 4 0xFF#8).length ∧ legalUnsigned (0x00#8 :: List.replicate 4 0xFF#8)) :=
  ⟨inSequence_more (by decide), ⟨inSequence_more (by decide), by decide, by decide⟩,
    ⟨inSequence_more (by decide), by decide, by decide⟩, ⟨inSequence_more (by decide), .inl (by decide)⟩,
    ⟨inSequence_more (by decide), .inl (by decide)⟩, ⟨inSequence_more (by decide), .inr (by decide)⟩⟩

/-- The longest content that leaves the sequence going on. -/
theorem witness_RawElementsJoinTheSequence :
    inSequence.more 5 ∧ inSequence.more 9 ∧ inSequence.more (List.replicate 95 0#8).length ∧ inSequence.more 8 ∧
      inSequence.more (1 + (List.replicate 94 0#8).length) :=
  ⟨inSequence_more (by decide), inSequence_more (by decide), inSequence_more (by decide), inSequence_more (by decide),
    inSequence_more (by decide)⟩

theorem witness_IllegalContentRaises :
    (bytes []).length ≠ 1 ∧ (bytes [0, 1]).length ≠ 1 ∧ (bytes []).length = 0 ∧ 8 < (List.replicate 9 1#8).length ∧
      ((bytes [1, 0, 0, 0, 0]).length = 5 ∧ (bytes [1, 0, 0, 0, 0]).headD 0#8 ≠ 0x00#8) ∧
      6 ≤ (List.replicate 6 0#8).length ∧
      ((List.replicate 4 0#8).length ≠ 5 ∧ (List.replicate 4 0#8).length ≠ 9) ∧ (List.replicate 7 0#8).length ≠ 8 ∧
      7 < (8#8).toNat := by decide

theorem witness_ContainersAreEntered : 0 < 1 ∧ inSequence.more 0 := ⟨by decide, inSequence_more (by decide)⟩

/-- An element that ends at 4: it closes an array, or a structure in an array, one byte before the end of the sequence
around; together with the outermost sequence; and in containers decoded alone. -/
theorem witness_LastElementClosesTheContainer :
    let s (b : Nat) (fs : List Frame) :=
      blockWith [] { Work.idle with entry := .sequence 4, pos := 3, endBound := some b, stack := fs }
    let outer (b : Option Nat) : Frame := ⟨.array, b, [.boolean true]⟩
    let inner (b : Option Nat) : Frame := ⟨.struct, b, []⟩
    ((s 4 [outer (some 5)]).work.stack = [] ++ outer (some 5) :: [] ∧
      leaves (3 + 1) (s 4 [outer (some 5)]).work.endBound [] (some 4) ∧ 4 ≤ 3 + 1 ∧
      (outer (some 5)).endBound = some 5 ∧ 3 + 1 < 5) ∧
    ((s 2 [inner (some 4), outer (some 5), inner none]).work.stack = [inner (some 4)] ++ outer (some 5) :: [inner none] ∧
      leaves (3 + 1) (s 2 [inner (some 4), outer (some 5), inner none]).work.endBound [inner (some 4)] (some 4)) ∧
    ((s 4 [inner (some 4), outer (some 4)]).work.stack = [inner (some 4)] ++ outer (some 4) :: [] ∧
      leaves (3 + 1) (s 4 [inner (some 4), outer (some 4)]).work.endBound [inner (some 4)] (some 4) ∧
      (outer (some 4)).endBound = some 4 ∧ 4 ≤ 3 + 1 ∧
      (s 4 [inner (some 4), outer (some 4)]).work.entry = .sequence 4) ∧
    ((s 4 [inner (some 4), outer none]).work.stack = [inner (some 4)] ++ outer none :: [] ∧
      leaves (3 + 1) (s 4 [inner (some 4), outer none]).work.endBound [inner (some 4)] (some 4) ∧
      (outer none).endBound = none) :=
  ⟨⟨rfl, rfl, by decide, rfl, by decide⟩, ⟨rfl, by decide, rfl⟩, ⟨rfl, ⟨by decide, rfl⟩, rfl, by decide, rfl⟩,
    ⟨rfl, ⟨by decide, rfl⟩, rfl⟩⟩

theorem witness_LastElementReturnsTheResult :
    (let s := blockWith [] { Work.idle with entry := .sequence 4, pos := 3, endBound := some 4 }
     s.work.stack = [] ∧ s.work.entry = .sequence 4 ∧ s.work.endBound = some 4 ∧ 4 ≤ s.work.pos + 1) ∧
    (let s := atElement []
     s.work.stack = [] ∧ s.work.endBound = none) := by decide

theorem witness_ValueRowsDeliverTheirValue :
    decBoolean 2 [0x01#8] = .ok true ∧ decSigned 2 [0xFF#8] = .ok (.int8 (-1)) ∧
      decUnsigned 2 [0xC8#8] = .ok (.uint8 200#8) ∧
      decFloat 2 (bytes [8, 0x3F, 0x80, 0, 0]) = .ok (.float32 0x3F800000#32) ∧
      decUtcTime 2 (List.replicate 8 0#8) = .ok (.utcTime (Vector.replicate 8 0#8)) ∧
      decBitString 2 [0x03#8, 0xA0#8] = .ok (.bitString 3 [0xA0#8]) :=
  ⟨rfl, rfl, rfl, rfl, rfl, rfl⟩

theorem witness_PduTagIsChecked : (0x62#8 : Byte) ≠ (inPdu .pdu).cfg.ptagPdu := by decide

theorem witness_NumberFieldsHoldTheirNumber :
    legalUnsigned [0x0C#8] ∧ legalUnsigned (List.replicate 4 0xFF#8) ∧
      legalUnsigned (0x00#8 :: List.replicate 4 0xFF#8) :=
  ⟨.inl (by decide), .inl (by decide), .inr (by decide)⟩

theorem witness_IllegalFieldsRaise :
    (bytes [0, 0]).length ≠ 1 ∧ (List.replicate 9 0#8).length ≠ 8 ∧ (bytes []).length = 0 ∧
      ((bytes [1, 0, 0, 0, 0]).length = 5 ∧ (bytes [1, 0, 0, 0, 0]).headD 0#8 ≠ 0x00#8) ∧
      6 ≤ (List.replicate 6 0#8).length := by decide

/-- A PRP trailer's bytes. -/
def trailerBytes : List Byte := bytes [0, 7, 0xA0, 0x4B, 0x88, 0xFB]

/-- At AllData, of an exposed DECODE_PDU and of a frame, with the entry counts 0 and 1; a frame's PDU ends at a trailer
or at the buffer's end. -/
theorem witness_AllDataTagIsChecked :
    let s (entry : Entry) (count : Nat) (bs : List Byte) := blockWith bs
      { Work.idle with
        entry := entry, phase := .tag .allData, pos := 4, tagPos := 2
        pdu := { emptyPdu with numDatSetEntries := BitVec.ofNat 32 count } }
    0 < 1 ∧
      ((s .pdu 1 []).work.entry = .pdu ∧ (s .pdu 1 []).work.pdu.numDatSetEntries ≠ 0#32) ∧
      ((s .frame 1 []).work.entry = .frame ∧ (s .frame 1 []).work.pdu.numDatSetEntries ≠ 0#32) ∧
      ((s .pdu 0 []).work.entry = .pdu ∧ (s .pdu 0 []).work.pdu.numDatSetEntries = 0#32) ∧
      ((s .frame 0 []).work.entry = .frame ∧ (s .frame 0 []).work.pdu.numDatSetEntries = 0#32 ∧
        trailerPresent Cfg.default (s .frame 0 []).buf (s .frame 0 []).work.pduEnd = .ok false) ∧
      trailerPresent Cfg.default (s .frame 0 trailerBytes).buf (s .frame 0 trailerBytes).work.pduEnd = .ok true ∧
      (0xAC#8 : Byte) ≠ (s .pdu 0 []).cfg.ptagAllData :=
  ⟨by decide, ⟨rfl, by decide⟩, ⟨rfl, by decide⟩, ⟨rfl, rfl⟩, ⟨rfl, rfl, rfl⟩, rfl, by decide⟩

/-- One element so far and an element that ends AllData, by itself or with the structure it stands in: a count of 2 is
right, 1 and 3 are wrong. -/
theorem witness_EntryCountIsChecked :
    let s (entry : Entry) (count : Nat) (bs : List Byte) := blockWith bs
      { Work.idle with
        entry := entry, pos := 9, endBound := some 10, items := [.boolean true]
        pdu := { emptyPdu with numDatSetEntries := BitVec.ofNat 32 count } }
    let s' : State := blockWith []
      { Work.idle with
        entry := .frame, pos := 9, endBound := some 10, stack := [⟨.struct, some 10, [.boolean true]⟩]
        pdu := { emptyPdu with numDatSetEntries := 2#32 } }
    let xs := gathered [] [.boolean true, .octetString []]
    let xs' := gathered s'.work.stack [.octetString []]
    ((s .pdu 2 []).work.entry = .pdu ∧
      leaves (9 + 1) (s .pdu 2 []).work.endBound (s .pdu 2 []).work.stack (some 10) ∧ 10 ≤ 9 + 1 ∧
      (s .pdu 2 []).work.pdu.numDatSetEntries.toNat = xs.length ∧
      (s .pdu 1 []).work.pdu.numDatSetEntries.toNat ≠ xs.length ∧
      (s .pdu 3 []).work.pdu.numDatSetEntries.toNat ≠ xs.length) ∧
    ((s .frame 2 []).work.entry = .frame ∧
      trailerPresent Cfg.default (s .frame 2 []).buf (s .frame 2 []).work.pduEnd = .ok false ∧
      trailerPresent Cfg.default (s .frame 2 trailerBytes).buf (s .frame 2 trailerBytes).work.pduEnd = .ok true) ∧
    (s'.work.entry = .frame ∧ leaves (9 + 1) s'.work.endBound s'.work.stack (some 10) ∧
      s'.work.pdu.numDatSetEntries.toNat = xs'.length) :=
  ⟨⟨rfl, rfl, by decide, by decide, by decide, by decide⟩, ⟨rfl, rfl, rfl⟩, ⟨rfl, ⟨by decide, rfl⟩, by decide⟩⟩

theorem witness_TrailerIsLookedFor :
    let s (m0 : Nat) := blockWith (bytes [0, 7, 0xA0, 0x4B, 0x88, m0]) { Work.idle with entry := .frame, pduEnd := 0 }
    (s 0xFB).work.entry = .frame ∧ memRead (s 0xFB).buf ((s 0xFB).work.pduEnd + 4) 2 = .ok [0x88#8, 0xFB#8] ∧
      (s 0xFB).work.pduEnd + 6 = (s 0xFB).buf.len ∧ word16 0x88#8 0xFB#8 = (s 0xFB).cfg.prpSuffix ∧
      memRead (s 0xFC).buf ((s 0xFC).work.pduEnd + 4) 2 = .ok [0x88#8, 0xFC#8] ∧
      (s 0xFC).work.pduEnd + 6 = (s 0xFC).buf.len ∧ word16 0x88#8 0xFC#8 ≠ (s 0xFC).cfg.prpSuffix ∧
      (idleBlock []).work.pduEnd + 6 ≠ (idleBlock []).buf.len :=
  ⟨rfl, rfl, rfl, by decide, rfl, rfl, by decide, by decide⟩

/-- 13 bytes of a frame; a VLAN tag cut after the TCI's first byte is missing its fourth; a GOOSE header missing its
last byte, at either ethertype word. -/
theorem witness_CutHeadersRaise :
    ((idleBlock (f1.take 13)).work.phase = .idle ∧ (idleBlock (f1.take 13)).buf.len < 0 + 14) ∧
    (let s := blockWith (bytes [0x81, 0, 0, 5, 0x88]) { Work.idle with phase := .ethertype }
     memRead s.buf s.work.pos 2 = .ok [0x81#8, 0x00#8] ∧ s.work.phase = .ethertype ∧
      word16 0x81#8 0x00#8 = s.cfg.ethertypeVlan ∧ s.buf.len < s.work.pos + 6) ∧
    (let s (p : Phase) := blockWith (bytes [0x88, 0xB8, 0, 1, 0, 69, 0, 0, 0]) { Work.idle with phase := p }
     memRead (s .ethertype).buf (s .ethertype).work.pos 2 = .ok [0x88#8, 0xB8#8] ∧
      word16 0x88#8 0xB8#8 ≠ (s .ethertype).cfg.ethertypeVlan ∧
      (s .ethertype).work.phase = .ethertype ∧ (s .innerEthertype).work.phase = .innerEthertype ∧
      word16 0x88#8 0xB8#8 = (s .ethertype).cfg.ethertypeGoose ∧
      (s .ethertype).buf.len < (s .ethertype).work.pos + 10) :=
  ⟨by decide, ⟨rfl, rfl, by decide, by decide⟩, ⟨rfl, by decide, rfl, rfl, by decide, by decide⟩⟩

theorem witness_PrpTrailerEndsTheFrame :
    (idleBlock []).cfg.prpLanB ≠ (idleBlock []).cfg.prpLanA ∧
      ((0xC#4 : BitVec 4) ≠ (idleBlock []).cfg.prpLanA ∧ (0xC#4 : BitVec 4) ≠ (idleBlock []).cfg.prpLanB) := by decide

theorem witness_DecodeAlwaysAnswers : (idleBlock f1).work.phase = .idle := rfl

theorem witness_DecodeNeverWrites : ∃ t, exec (.decode none 0) (idleBlock f1) = .next t := exists_next (by decide +kernel)

/-- An IPv4 frame, and a frame with two VLAN tags: both sides of the equivalence hold. -/
theorem witness_NoneMeansOtherTraffic :
    (idleBlock ((f1.set 12 0x08#8).set 13 0x00#8)).work.phase = .idle ∧
      outcomeOf (exec (.decode none 0) (idleBlock ((f1.set 12 0x08#8).set 13 0x00#8))) = some (.decode none) ∧
      outcomeOf (exec (.decode none 0) (idleBlock ((f2.set 16 0x81#8).set 17 0x00#8))) = some (.decode none) := by decide +kernel

theorem decode_f2 : decodeFrame Cfg.default (memOfBytes f2) 0 = .ok (some k2) := eq_ok_of_toOption (by decide +kernel)

theorem witness_TrailerIsTheLastSixBytes :
    decodeFrame Cfg.default (memOfBytes f2) 0 = .ok (some k2) ∧ k2.prp = some ⟨7#16, .A, 75#12⟩ := ⟨decode_f2, rfl⟩

/-- Once with room for the frame and once without: both alternatives are met. -/
theorem witness_EncodeWritesExactlyTheFrame :
    ((handOver (some (memOfBytes (List.replicate 85 0xEE#8))) (idleBlock [])).buf.wf = true ∧
      ∃ t, exec (.encode k1 (some (memOfBytes (List.replicate 85 0xEE#8))) 1) (idleBlock []) = .next t ∧
        t.outcome = some (.encode (.ok 83))) ∧
    ((handOver none (idleBlock [])).buf.wf = true ∧
      ∃ t, exec (.encode k1 none 1) (idleBlock []) = .next t ∧
        t.outcome = some (.encode (.error ⟨.bufferTooSmall, 1⟩))) :=
  ⟨⟨by decide +kernel, exists_outcome (by decide +kernel)⟩, ⟨rfl, exists_outcome (by decide +kernel)⟩⟩

/-- F1's packet with a goCBRef of `n` bytes. -/
def longPacket (n : Nat) : GoosePacket := { k1 with pdu := { p1 with gocbRef := List.replicate n 0x61#8 } }

theorem longPacket_size (n : Nat) :
    pduSize Cfg.default (longPacket n).pdu = tlvSize Cfg.default (tlvSize Cfg.default n + 48) := by
  simp only [longPacket, pduSize, List.length_replicate, Nat.add_assoc]
  rfl

/-- The largest PDU that fits the GOOSE length and the PRP size, and one byte more; F1 in 82 and in 83 bytes (95 section
2.6); and with one length octet at most, a PDU that has no length form and one that has. -/
theorem witness_EncodeAnswersBySize :
    let one : State := { idleBlock [] with cfg := { Cfg.default with maxLenOctets := 1 } }
    ((idleBlock []).work.phase = .idle ∧ (idleBlock []).cfg.Valid ∧ (idleBlock []).cfg.maxLenOctets ≠ 1) ∧
      (pduSize Cfg.default (longPacket 65471).pdu + 8 = 0xFFFF ∧ 0xFFFF < pduSize Cfg.default (longPacket 65472).pdu + 8) ∧
      (8 + pduSize Cfg.default (longPacket 4025).pdu + 6 = 0x0FFF ∧
        0x0FFF < 8 + pduSize Cfg.default (longPacket 4026).pdu + 6) ∧
      pduSize Cfg.default k1.pdu = 61 ∧
      (idleBlock (List.replicate 82 0#8)).buf.len < 0 + (14 + 0 + 8 + 61 + 0) ∧
      0 + (14 + 0 + 8 + 61 + 0) ≤ (idleBlock (List.replicate 83 0#8)).buf.len ∧
      (one.work.phase = .idle ∧ one.cfg.Valid ∧ one.cfg.maxLenOctets = 1 ∧
        (∃ e, encodePdu one.cfg 0 (longPacket 256).pdu = .error e) ∧ ∃ bs, encodePdu one.cfg 0 k1.pdu = .ok bs) :=
  ⟨by decide, by rw [longPacket_size, longPacket_size]; decide, by rw [longPacket_size, longPacket_size]; decide,
    by decide, by decide, by decide, ⟨rfl, by decide, rfl, ⟨_, rfl⟩, ⟨_, rfl⟩⟩⟩

theorem witness_VlanAddsFourBytes :
    k1.eth.vlan = none ∧ (∃ f, encodeFrame Cfg.default k1 0 = .ok f) ∧
      ∃ f', encodeFrame Cfg.default { k1 with eth := { k1.eth with vlan := some 5#12 } } 0 = .ok f' :=
  ⟨rfl, ⟨_, rfl⟩, ⟨_, rfl⟩⟩

theorem witness_PrpAddsSixBytes :
    k1.prp = none ∧ (∃ f, encodeFrame Cfg.default k1 0 = .ok f) ∧
      ∃ f', encodeFrame Cfg.default { k1 with prp := some ⟨7#16, .A, 0#12⟩ } 0 = .ok f' :=
  ⟨rfl, ⟨_, rfl⟩, ⟨_, rfl⟩⟩

theorem witness_SizesAreKnownBeforeWriting :
    encodeValue Cfg.default 0 (.int16 (-129)) = .ok (bytes [0x85, 0x02, 0xFF, 0x7F]) ∧
      encodePdu Cfg.default 0 p1 = .ok (bytes p1Bytes) :=
  ⟨rfl, eq_ok_of_toOption (by decide)⟩

/-- SX1: three levels, one value not in normal form. -/
theorem witness_ValuesRoundTrip :
    let x : Value := .struct (.cons (.int8 (-1)) (.cons (.array (.cons (.struct (.cons (.uint8 200#8) .nil)) .nil)) .nil))
    let bs := bytes [0xA2, 0x0B, 0x85, 0x01, 0xFF, 0xA1, 0x06, 0xA2, 0x04, 0x86, 0x02, 0x00, 0xC8]
    Cfg.default.Valid ∧ encodeValue Cfg.default 0 x = .ok bs ∧ memRead (memOfBytes bs) 0 bs.length = .ok bs ∧
      norm x ≠ x ∧ norm (norm x) = norm x :=
  ⟨by decide, eq_ok_of_toOption (by decide), eq_ok_of_toOption (by decide), by decide, by decide⟩

theorem witness_PdusRoundTrip :
    Cfg.default.Valid ∧ p1.allData.length < 2 ^ 32 ∧ encodePdu Cfg.default 0 p1 = .ok (bytes p1Bytes) ∧
      memRead (memOfBytes f1) 22 (bytes p1Bytes).length = .ok (bytes p1Bytes) :=
  ⟨by decide +kernel, by decide +kernel, eq_ok_of_toOption (by decide +kernel), eq_ok_of_toOption (by decide +kernel)⟩

theorem witness_FramesRoundTrip :
    (idleBlock []).cfg.Valid ∧ (handOver (some (memOfBytes (List.replicate 97 0xEE#8))) (idleBlock [])).buf.wf = true ∧
      ∃ t, exec (.encode k2 (some (memOfBytes (List.replicate 97 0xEE#8))) 2) (idleBlock []) = .next t ∧
        t.outcome = some (.encode (.ok 93)) :=
  ⟨by decide +kernel, by decide +kernel, exists_outcome (by decide +kernel)⟩

theorem witness_DecodingMakesProgress :
    let m := memOfBytes (bytes [0xA1, 0x00, 0xA2, 0x00])
    decodeElement Cfg.default m (decodeFuel m 2) 2 = .ok (4, .struct .nil) ∧
      decodeSequence Cfg.default m (decodeFuel m 0) 0 4 = .ok (4, [.array .nil, .struct .nil]) :=
  ⟨eq_ok_of_toOption (by decide), eq_ok_of_toOption (by decide)⟩

theorem witness_StepRunsTheDecodedInstruction :
    (let s := blockWith (bytes [0x08, 0x00]) { Work.idle with phase := .ethertype }
     s.work.phase = .ethertype ∧
      decode s.cfg .ethertype (bytesFrom s.buf s.work.pos) = .ok (.ethOtherEthertype 0x0800#16)) ∧
    (let s := blockWith (bytes [0x81, 0x00]) { Work.idle with phase := .innerEthertype }
     s.work.phase = .innerEthertype ∧
      decode s.cfg .innerEthertype (bytesFrom s.buf s.work.pos) = .ok (.ethOtherEthertype 0x8100#16)) ∧
    (let s := blockWith (bytes [0, 7, 0xA0, 0x4B, 0x88, 0xFB]) { Work.idle with phase := .trailer }
     s.work.phase = .trailer ∧
      decode s.cfg .trailer (bytesFrom s.buf s.work.pos) = .ok (.prpTrailer 7#16 0xA#4 75#12)) ∧
    (let s := atHeader (bytes [0x85, 1, 2])
     s.work.phase = .header .value ∧ decode s.cfg .length (bytesFrom s.buf (s.work.pos + 1)) = .ok (.lenShort 1#7)) ∧
    (heldHeader.work.phase = .tag .value ∧
      memRead heldHeader.buf heldHeader.work.pos heldHeader.work.len = .ok [0x02#8]) ∧
    (let s := { idleBlock f1 with requests := [.decode none 0] }
     s.work.phase = .idle ∧ s.requests = .decode none 0 :: [] ∧
      (Request.decode none 0).instr = some (.decode none 0)) :=
  ⟨⟨rfl, rfl⟩, ⟨rfl, rfl⟩, ⟨rfl, rfl⟩, ⟨rfl, rfl⟩, ⟨rfl, rfl⟩, ⟨rfl, rfl, rfl⟩⟩

theorem witness_HeldHeaderIsTheElement :
    let s := atHeader (bytes [0x85, 1, 2])
    s.work.phase = .header .value ∧ s.work.entry ≠ .tagLength ∧
      decode s.cfg (.tag .value) (bytesFrom s.buf s.work.pos) = .ok (.integer [0x02#8]) ∧
      step s = .next heldHeader ∧ heldHeader.work.phase = .tag .value :=
  ⟨rfl, by decide, rfl, rfl, rfl⟩

theorem witness_StepwiseDecodeAgrees :
    let s := { idleBlock f1 with requests := [.expose .frame none 0] }
    s.work.phase = .idle ∧ s.requests = .expose .frame none 0 :: [] := ⟨rfl, rfl⟩

theorem witness_StepKeepsInv : heldHeader.Inv ∧ ∃ t, step heldHeader = .next t :=
  ⟨heldHeader_inv, exists_next (by decide)⟩

theorem witness_StepNeverStops : heldHeader.Inv := heldHeader_inv

theorem witness_ConfigurationIsStatic :
    (∃ t, exec (.boolean [0x01#8]) inSequence = .next t) ∧ ∃ t, step heldHeader = .next t :=
  ⟨exists_next (by decide), exists_next (by decide)⟩

theorem witness_OnlyRequestsTouchTheBuffer :
    (∀ k h a, Instr.boolean [0x01#8] ≠ .encode k h a) ∧ (∀ h a, Instr.boolean [0x01#8] ≠ .decode h a) ∧
      ∃ t, exec (.boolean [0x01#8]) inSequence = .next t :=
  ⟨by simp, by simp, exists_next (by decide)⟩

/-- The element decoded alone is done. -/
theorem witness_EndedTransactionsLeaveNothing :
    heldHeader.work.phase ≠ .idle ∧ ∃ t, step heldHeader = .next t ∧ t.work.phase = .idle :=
  ⟨by decide, _, rfl, rfl⟩

/-- A header is held; and the last element of AllData brings a trailer that stands before the cursor. -/
theorem witness_CursorMovesForward :
    (let s := atHeader (bytes [0x85, 1, 2])
     s.work.phase ≠ .idle ∧ step s = .next heldHeader ∧ heldHeader.work.phase ≠ .idle) ∧
    (let s := blockWith (bytes [0, 7, 0xA0, 0x4B, 0x88, 0xFB])
      { Work.idle with phase := .tag .value, pos := 6, endBound := some 6, tag := 0x89#8
                       pdu := { emptyPdu with numDatSetEntries := 1#32 } }
     s.work.phase ≠ .idle ∧ ∃ t, step s = .next t ∧ t.work.phase = .trailer ∧ t.work.pos = 0) :=
  ⟨⟨by decide, rfl, by decide⟩, ⟨by decide, _, rfl, rfl, rfl⟩⟩

/-- A fresh block and one with an old outcome and a request waiting; with a buffer handed over, the bytes they hold
differ too. -/
theorem witness_OutcomesIgnoreThePast :
    let s := idleBlock f1
    let s' (bs : List Byte) := { idleBlock bs with outcome := some (.decode none), requests := [.decode none 3] }
    ((∃ a, Instr.decode none 0 = .decode none a) ∧ s.cfg = (s' f1).cfg ∧ s.buf = (s' f1).buf ∧
      (∃ t, exec (.decode none 0) s = .next t) ∧ ∃ t', exec (.decode none 0) (s' f1) = .next t') ∧
    ((∃ k a, Instr.encode k1 (some s.buf) 0 = .encode k (some s.buf) a) ∧ s.cfg = (s' []).cfg ∧ s.buf ≠ (s' []).buf ∧
      (∃ t, exec (.encode k1 (some s.buf) 0) s = .next t) ∧
      ∃ t', exec (.encode k1 (some s.buf) 0) (s' []) = .next t') :=
  ⟨⟨⟨_, rfl⟩, rfl, rfl, exists_next (by decide +kernel), exists_next (by decide +kernel)⟩,
    ⟨⟨_, _, rfl⟩, rfl, by decide +kernel, exists_next (by decide +kernel), exists_next (by decide +kernel)⟩⟩

theorem witness_RequestsMidTransactionAreRefused : heldHeader.work.phase ≠ .idle := by decide

theorem witness_ResetIsIdle : State.reset.work.phase = .idle ∧ State.reset.requests = [] := ⟨rfl, rfl⟩

/-- A DECODE_SEQUENCE one byte before its bound and at it; 13 and 14 bytes of a frame. -/
theorem witness_TransactionsStartClean :
    0 < 1 ∧ 0 ≤ 0 ∧ (idleBlock (f1.take 13)).buf.len < 0 + 14 ∧ 0 + 14 ≤ (idleBlock (f1.take 14)).buf.len := by decide

theorem witness_BufferReadsBackWrites :
    (memOfBytes (List.replicate 4 0xEE#8)).wf = true ∧
      2 + [0x00#8, 0x01#8].length = (memOfBytes (List.replicate 4 0xEE#8)).len ∧
      (memOfBytes (List.replicate 4 0xEE#8)).len < 3 + [0x00#8, 0x01#8].length := by decide

end Sys2Proof.Tests
end

section
/-! SUPPORT. What `MemWrite` does to the buffer, and the obligation that rests on it (20_memory.md). -/

namespace Sys2Proof.Machine

section
variable {m m' : Memory} {a k n : Nat} {bs : List Byte}

/-! ### When an access is inside the buffer -/

theorem memWrite_of_le (h : a + bs.length ≤ m.len) : memWrite m a bs = .ok ⟨m.len, setCells a bs m.cells⟩ := if_pos h

theorem memWrite_of_lt (h : m.len < a + bs.length) : memWrite m a bs = .error (.broken .writeOutOfBounds) :=
  if_neg (by omega)

theorem memRead_of_lt (h : m.len < a + n) : memRead m a n = .error (.broken .readOutOfBounds) := if_neg (by omega)

/-! ### What a write changes -/

theorem memWrite_len (h : memWrite m a bs = .ok m') : m'.len = m.len := by
  obtain ⟨-, rfl, -⟩ := memWrite_eq_ok h
  rfl

/-- A written address reads as the byte written there, every other address as before. -/
theorem lookupCell_memWrite (hw : m.wf = true) (h : memWrite m a bs = .ok m') :
    lookupCell k m'.cells = if a ≤ k ∧ k < a + bs.length then bs.getD (k - a) 0#8 else lookupCell k m.cells := by
  obtain ⟨hle, rfl, -⟩ := memWrite_eq_ok h
  exact lookupCell_setCells hw hle

/-- Reading where a write went gives the bytes written. -/
theorem memRead_memWrite_same (hw : m.wf = true) (h : memWrite m a bs = .ok m') : memRead m' a bs.length = .ok bs := by
  obtain ⟨hle, -, -⟩ := memWrite_eq_ok h
  have hlen : m'.len = m.len := memWrite_len h
  refine memRead_eq_ok.mpr ⟨by omega, List.ext_getElem (by simp) fun i hi _ => ?_⟩
  rw [List.getElem_map, List.getElem_range', lookupCell_memWrite hw h, if_pos (by omega)]
  simp [List.getD_eq_getElem?_getD, hi]

/-- A write leaves every byte outside its range alone. -/
theorem memByte?_memWrite_of_outside (hw : m.wf = true) (h : memWrite m a bs = .ok m')
    (hk : k < a ∨ a + bs.length ≤ k) : memByte? m' k = memByte? m k := by
  have hcell : lookupCell k m'.cells = lookupCell k m.cells := by rw [lookupCell_memWrite hw h, if_neg (by omega)]
  rw [memByte?, memByte?, memWrite_len h, hcell]

end

end Sys2Proof.Machine

open Sys2Proof Sys2Proof.Machine

/-- Settles O60: inside the buffer the write answers, and what is read afterwards follows from `lookupCell_memWrite`;
past its end both accesses fault. -/
theorem bufferReadsBackWrites : Obligations.BufferReadsBackWrites := by
  intro m a bs hw
  constructor
  · intro hle
    have h := memWrite_of_le hle
    obtain ⟨-, -, hwf⟩ := memWrite_eq_ok h
    exact ⟨_, h, hwf hw, memWrite_len h, memRead_memWrite_same hw h, fun _ => memByte?_memWrite_of_outside hw h⟩
  · intro hlt
    exact ⟨memWrite_of_lt hlt, memRead_of_lt hlt⟩

end

section
/-! SUPPORT. What an instruction can do to the block and what a step can do, each said once, and the obligations of
10_state.md that rest on it: the invariant, the static configuration, outcomes that ignore the past. -/

namespace Sys2Proof

/-- By how many bytes an instruction that goes on moves the cursor: past the content of a scalar or a fixed field, past
the VLAN tag, past the ethertype and the GOOSE header. A length row moves it by the header it reads instead. -/
def Instr.advance : Instr → Nat
  | .boolean c | .bitString c | .integer c | .unsigned c | .float c | .octetString c | .visibleString c
  | .mmsString c | .utcTime c => c.length
  | .pduGocbRef _ c | .pduTimeAllowedToLive _ c | .pduDatSet _ c | .pduGoId _ c | .pduT _ c | .pduStNum _ c
  | .pduSqNum _ c | .pduSimulation _ c | .pduConfRev _ c | .pduNdsCom _ c | .pduNumDatSetEntries _ c => c.length
  | .ethVlanMarker _ _ => 4
  | .ethGooseEthertype _ => 10
  | _ => 0

/-- Whether an instruction is a length row, which holds a header. -/
def Instr.isLengthRow : Instr → Bool
  | .lenShort _ | .lenLong1 _ | .lenLong2 _ | .lenLong3 _ | .lenLong4 _ | .lenMalformedIndefinite
  | .lenMalformedTooLong _ => true
  | _ => false

end Sys2Proof

namespace Sys2Proof.Machine

/-! ### What an instruction other than a request can do -/

/-- Everything an instruction of a stepwise transaction can make of the state `s`. -/
inductive Effect (s : State) (i : Instr) : State → Prop
  /-- the transaction is over: an error, other traffic, or the trailer read -/
  | ended (r : Response) : Effect s i (endTransaction r s)
  | delivered {x : Value} {t : State} (h : deliver i.advance x s = .ok t) : Effect s i t
  | entered {k : ContainerKind} {n : Nat} {t : State} (h : enterContainer k n s = .ok t) : Effect s i t
  | fielded (f : PduField) (d : GoosePdu) : Effect s i (s.fielded f i.advance d)
  | pduOpened (n : Nat) : Effect s i
      { s with work := { s.work with pduEnd := s.work.pos + n, phase := .header (.field .gocbRef) } }
  | allDataOpened {n : Nat} {t : State}
      (h : closeSequences
        { s with
          work := { s.work with
            allDataPos := s.work.tagPos, stack := [], endBound := some (s.work.pos + n), items := [] } } = .ok t) :
      Effect s i t
  | latched {hdr n : Nat} {t : State} (hi : i.isLengthRow = true) (h2 : 2 ≤ hdr) (h : latchHeader hdr n s = .ok t) :
      Effect s i t
  | vlanRead (tci : BitVec 16) : Effect s i
      { s with
        work := { s.work with
          eth := { s.work.eth with vlan := some (tci.extractLsb' 0 12) }, pos := s.work.pos + i.advance
          phase := .innerEthertype } }
  | gooseRead (g : GooseHeader) : Effect s i
      { s with work := { s.work with goose := g, pos := s.work.pos + i.advance, phase := .header .pdu } }

section
variable {s t : State} {i : Instr}

/-- An error taken is the end of the transaction, so only a meaning that answers needs a look. -/
theorem effect_of_commit {r : Codec State} (h : commit s r = .next t) (hr : ∀ u, r = .ok u → Effect s i u) :
    Effect s i t := by
  rcases commit_eq_next.mp h with h | ⟨e, -, rfl⟩
  · exact hr t h
  · exact .ended _

theorem effect_of_deliver {α : Type} {dec : Codec α} {f : α → Value}
    (h : commit s (dec >>= fun a => deliver i.advance (f a) s) = .next t) : Effect s i t :=
  effect_of_commit h fun _ hu => by
    obtain ⟨a, -, ha⟩ := bind_eq_ok.mp hu
    exact .delivered ha

theorem effect_of_fieldDone {α : Type} {dec : Codec α} {f : PduField} {d : α → GoosePdu}
    (h : commit s (dec >>= fun a => fieldDone f i.advance (d a) s) = .next t) : Effect s i t :=
  effect_of_commit h fun _ hu => by
    obtain ⟨a, -, ha⟩ := bind_eq_ok.mp hu
    obtain rfl := Except.ok.inj ha
    exact .fielded f _

theorem effect_of_latchHeader {hdr n : Nat} (hi : i.isLengthRow = true) (h2 : 2 ≤ hdr)
    (h : commit s (latchHeader hdr n s) = .next t) : Effect s i t :=
  effect_of_commit h fun _ hu => .latched hi h2 hu

theorem effect_of_ok {u : State} (h : commit s (.ok u) = .next t) (hu : Effect s i u) : Effect s i t :=
  effect_of_commit h fun _ hv => Except.ok.inj hv ▸ hu

/-- The inversion of `exec`: a case of `Effect` for each instruction that is no request. -/
theorem exec_effect (hi : isRequestInstr i = false) (h : exec i s = .next t) : Effect s i t := by
  cases i with
  | boolean c => exact effect_of_deliver (dec := decBoolean s.work.tagPos c) h
  | bitString c => exact effect_of_deliver (dec := decBitString s.work.tagPos c) (f := id) h
  | integer c => exact effect_of_deliver (dec := decSigned s.work.tagPos c) (f := id) h
  | unsigned c => exact effect_of_deliver (dec := decUnsigned s.work.tagPos c) (f := id) h
  | float c => exact effect_of_deliver (dec := decFloat s.work.tagPos c) (f := id) h
  | utcTime c => exact effect_of_deliver (dec := decUtcTime s.work.tagPos c) (f := id) h
  | octetString | visibleString | mmsString => exact effect_of_commit h fun _ hu => .delivered hu
  | array | struct => exact effect_of_commit h fun _ hu => .entered hu
  | unknownTag =>
    exact effect_of_commit (r := raise .unknownDataType s.work.tagPos) h fun _ hu => absurd hu raise_ne_ok
  | pdu tag n =>
    refine effect_of_commit h fun u hu => ?_
    split at hu
    · exact absurd hu raise_ne_ok
    · exact Except.ok.inj hu ▸ .pduOpened n
  | pduAllData tag n =>
    refine effect_of_commit h fun u hu => ?_
    split at hu
    · exact absurd hu raise_ne_ok
    · exact .allDataOpened hu
  | pduGocbRef | pduDatSet | pduGoId => exact effect_of_ok h (.fielded _ _)
  | pduT tag c => exact effect_of_fieldDone (dec := decTime s.work.tagPos c) h
  | pduSimulation tag c | pduNdsCom tag c => exact effect_of_fieldDone (dec := decBoolean s.work.tagPos c) h
  | pduTimeAllowedToLive tag c | pduStNum tag c | pduSqNum tag c | pduConfRev tag c | pduNumDatSetEntries tag c =>
    exact effect_of_fieldDone (dec := decU32 s.work.tagPos c) h
  | lenShort | lenLong1 | lenLong2 | lenLong3 | lenLong4 => exact effect_of_latchHeader rfl (by omega) h
  | lenMalformedIndefinite =>
    exact effect_of_commit (r := raise .malformedLength s.work.pos) h fun _ hu => absurd hu raise_ne_ok
  | lenMalformedTooLong first =>
    refine effect_of_commit h fun u hu => ?_
    split at hu
    · exact absurd hu raise_ne_ok
    · obtain ⟨n, -, hn⟩ := bind_eq_ok.mp hu
      exact .latched rfl (by omega) hn
  | ethVlanMarker tci => exact effect_of_ok h (.vlanRead tci)
  | ethGooseEthertype g => exact effect_of_ok h (.gooseRead g)
  | ethOtherEthertype => exact effect_of_ok h (.ended _)
  | prpTrailer seq id size =>
    refine effect_of_commit h fun u hu => ?_
    split at hu
    · exact Except.ok.inj hu ▸ .ended _
    · exact absurd hu raise_ne_ok
  | encode | decode => cases hi

/-- No instruction but a request changes anything outside the working values and the outcome. -/
theorem Effect.sameBlock (h : Effect s i t) : SameBlock s t := by
  cases h with
  | ended r => exact .ended r s
  | delivered h => exact deliver_block h
  | entered h => exact enterContainer_block h
  | allDataOpened h =>
    obtain ⟨hcfg, hbuf, hreq⟩ := closeSequences_block h
    exact ⟨hcfg, hbuf, hreq⟩
  | latched _ _ h =>
    obtain ⟨-, tag, -, ⟨-, rfl⟩ | ⟨-, rfl⟩⟩ := latchHeader_eq_ok h
    · exact .ended _ s
    · exact ⟨rfl, rfl, rfl⟩
  | fielded | pduOpened | vlanRead | gooseRead => exact ⟨rfl, rfl, rfl⟩

/-! ### What a request can do -/

/-- A DECODE that answers: its response is a function of the configuration and the buffer, and the buffer stays. -/
theorem execDecode_eq_next {hand : Option Memory} {a : Nat} (h : exec (.decode hand a) s = .next t) :
    ∃ r, decodeResponse (decodeFrame s.cfg (handOver hand s).buf a) = .ok r ∧
      t = endTransaction r (handOver hand s) := by
  change execDecode hand a s = .next t at h
  unfold execDecode at h
  split at h
  · split at h
    · exact ⟨_, by assumption, (Host.Outcome.next.inj h).symm⟩
    · cases h
  · cases h

/-- An ENCODE that answers: the frame written and its length, or an error and nothing written. -/
theorem execEncode_eq_next {k : GoosePacket} {hand : Option Memory} {a : Nat}
    (h : exec (.encode k hand a) s = .next t) :
    (∃ m n, encodeInto s.cfg (handOver hand s).buf k a = .ok (m, n) ∧
        t = endTransaction (.encode (.ok n)) { handOver hand s with buf := m }) ∨
      ∃ e, encodeInto s.cfg (handOver hand s).buf k a = .error (.raised e) ∧
        t = endTransaction (.encode (.error e)) (handOver hand s) := by
  change execEncode k hand a s = .next t at h
  unfold execEncode at h
  split at h
  · split at h
    · exact .inl ⟨_, _, by assumption, (Host.Outcome.next.inj h).symm⟩
    · exact .inr ⟨_, by assumption, (Host.Outcome.next.inj h).symm⟩
    · cases h
  · cases h

/-- ENCODE keeps the canonical form of the buffer it writes. -/
theorem encodeInto_wf {cfg : Cfg} {m m' : Memory} {k : GoosePacket} {a n : Nat}
    (h : encodeInto cfg m k a = .ok (m', n)) (hm : m.wf = true) : m'.wf = true := by
  obtain ⟨f, -, h⟩ := bind_eq_ok.mp h
  split at h
  · exact absurd h raise_ne_ok
  · obtain ⟨u, hu, h⟩ := bind_eq_ok.mp h
    obtain ⟨rfl, -⟩ := Prod.mk.inj (Except.ok.inj h)
    exact (memWrite_eq_ok hu).2.2 hm

/-- The end of a request: the configuration and the queue are as before, every working value is gone, and a buffer in
canonical form stays so. -/
theorem exec_request {r : Request} (hr : r.instr = some i) (h : exec i s = .next t) :
    t.cfg = s.cfg ∧ t.requests = s.requests ∧ t.work = Work.idle ∧
      (r.wf = true → s.buf.wf = true → t.buf.wf = true) := by
  cases r with
  | decode hand a =>
    obtain rfl := Option.some.inj hr
    obtain ⟨r, -, rfl⟩ := execDecode_eq_next h
    exact ⟨by simp, by simp, rfl, handOver_buf_wf⟩
  | encode k hand a =>
    obtain rfl := Option.some.inj hr
    rcases execEncode_eq_next h with ⟨m, n, hm, rfl⟩ | ⟨e, -, rfl⟩
    · exact ⟨by simp, by simp, rfl, fun hh hs => encodeInto_wf hm (handOver_buf_wf hh hs)⟩
    · exact ⟨by simp, by simp, rfl, handOver_buf_wf⟩
  | expose => cases hr

/-- No instruction at all changes the configuration (R21). -/
theorem exec_cfg (h : exec i s = .next t) : t.cfg = s.cfg := by
  cases i with
  | encode k hand a => exact (exec_request (r := .encode k hand a) rfl h).1
  | decode hand a => exact (exec_request (r := .decode hand a) rfl h).1
  | _ => exact (exec_effect rfl h).sameBlock.1

/-! ### What a step can do -/

/-- The inversion of `step`: the idle block waits, runs a request or opens a transaction; a transaction in progress runs
the instruction it fetches, or is ended by an error that fetching raises. -/
theorem step_cases (h : step s = .next t) :
    s.work.phase = .idle ∧ t = s ∨
      (∃ r rs i, s.requests = r :: rs ∧ r.instr = some i ∧ exec i { s with requests := rs } = .next t) ∨
      (∃ entry hand a rs, s.requests = .expose entry hand a :: rs ∧
        takeExposed entry hand a { s with requests := rs } = .next t) ∨
      s.work.phase ≠ .idle ∧ ((∃ i, fetch s = .ok i ∧ exec i s = .next t) ∨ ∃ e, t = takeError e s) := by
  unfold step at h
  split at h
  · rename_i hp
    split at h
    · exact .inl ⟨hp, (Host.Outcome.next.inj h).symm⟩
    · exact .inr (.inl ⟨_, _, _, by assumption, rfl, h⟩)
    · exact .inr (.inl ⟨_, _, _, by assumption, rfl, h⟩)
    · exact .inr (.inr (.inl ⟨_, _, _, _, by assumption, h⟩))
  · rename_i hp
    refine .inr (.inr (.inr ⟨hp, ?_⟩))
    split at h
    · exact .inl ⟨_, by assumption, h⟩
    · obtain h | ⟨e, -, rfl⟩ := commit_eq_next.mp h
      · cases h
      · exact .inr ⟨e, rfl⟩

/-- What taking an exposed operation can do: the transaction is opened, or over at once with an error. -/
theorem takeExposed_cases {entry : Entry} {hand : Option Memory} {a : Nat} (h : takeExposed entry hand a s = .next t) :
    openTransaction entry a (handOver hand s) = .ok t ∨
      SameBlock (handOver hand s) t ∧ t.work = Work.idle := by
  obtain h | ⟨e, -, rfl⟩ := commit_eq_next.mp h
  · exact .inl h
  · exact .inr ⟨⟨rfl, rfl, rfl⟩, rfl⟩

/-- No step changes the configuration (R21). -/
theorem step_cfg (h : step s = .next t) : t.cfg = s.cfg := by
  rcases step_cases h with ⟨-, rfl⟩ | ⟨r, rs, i, -, -, hx⟩ | ⟨entry, hand, a, rs, -, hx⟩ |
    ⟨-, ⟨i, -, hx⟩ | ⟨e, rfl⟩⟩
  · rfl
  · exact exec_cfg (s := { s with requests := rs }) hx
  · have hb : SameBlock (handOver hand { s with requests := rs }) t := by
      rcases takeExposed_cases hx with ho | ⟨hb, -⟩
      · exact (openTransaction_eq_ok ho).1
      · exact hb
    exact hb.1.trans (handOver_cfg hand _)
  · exact exec_cfg hx
  · rfl

/-! ### What is fetched -/

/-- What the invariant needs to know of a fetched instruction: it is no request, in a frame its bytes lie inside the
buffer, and a length row is fetched only at a header. -/
structure Fits (s : State) (i : Instr) : Prop where
  notRequest : isRequestInstr i = false
  inside : s.work.entry = .frame → s.work.pos + i.advance ≤ s.buf.len
  atHeader : i.isLengthRow = true → ∃ ctx, s.work.phase = .header ctx

/-- An instruction that is no request and no length row, and moves the cursor by at most `n` bytes. -/
structure Within (n : Nat) (i : Instr) : Prop where
  notRequest : isRequestInstr i = false
  notLengthRow : i.isLengthRow = false
  advance_le : i.advance ≤ n

/-- Fitting comes down to bytes that lie inside the buffer, away from the headers. -/
theorem Within.fits {n : Nat} (h : Within n i) (hn : s.work.entry = .frame → s.work.pos + n ≤ s.buf.len) :
    Fits s i where
  notRequest := h.notRequest
  inside he := Nat.le_trans (Nat.add_le_add_left h.advance_le _) (hn he)
  atHeader hi := absurd hi (by simp [h.notLengthRow])

theorem decodeEthertype_within {cfg : Cfg} {first : Bool} {bs : List Byte}
    (h : decodeEthertype cfg first bs = .ok i) : Within bs.length i := by
  unfold decodeEthertype at h
  split at h
  · split at h
    · split at h
      · obtain rfl := Except.ok.inj h
        exact ⟨rfl, rfl, by simp [Instr.advance]⟩
      · cases h
    · split at h
      · split at h
        · obtain rfl := Except.ok.inj h
          exact ⟨rfl, rfl, by simp [Instr.advance]⟩
        · cases h
      · obtain rfl := Except.ok.inj h
        exact ⟨rfl, rfl, Nat.zero_le _⟩
  · cases h

theorem decodeTrailer_within {cfg : Cfg} {bs : List Byte} (h : decodeTrailer cfg bs = .ok i) : Within 0 i := by
  unfold decodeTrailer at h
  repeat' split at h
  all_goals cases h
  exact ⟨rfl, rfl, Nat.le_refl _⟩

theorem decodeLength_advance {cfg : Cfg} {bs : List Byte} (h : decodeLength cfg bs = .ok i) :
    isRequestInstr i = false ∧ i.advance = 0 := by
  unfold decodeLength at h
  repeat' split at h
  all_goals cases h
  all_goals exact ⟨rfl, rfl⟩

/-- The instruction of a held header passes at most its content, of which a container passes nothing. -/
theorem tagInstr_within (cfg : Cfg) (ctx : TagContext) (tag : Byte) (n : Nat) (c : List Byte) :
    Within c.length (tagInstr cfg ctx tag n c) := by
  cases ctx with
  | value =>
    change Within c.length (valueInstr cfg tag n c)
    unfold valueInstr
    repeat' refine iteInduction (fun _ => ?_) (fun _ => ?_)
    all_goals exact ⟨rfl, rfl, by simp [Instr.advance]⟩
  | pdu | allData => exact ⟨rfl, rfl, Nat.zero_le _⟩
  | field f => cases f <;> exact ⟨rfl, rfl, Nat.le_refl _⟩

end

/-! ### The part of the invariant that is the same in every phase -/

/-- The invariant without what it asks of one phase only. -/
structure State.Steady (s : State) : Prop where
  bufWf : s.buf.wf = true
  requestsWf : ∀ r ∈ s.requests, r.wf = true
  cursorInside : s.work.entry = .frame → s.work.pos ≤ s.buf.len
  stackAgrees : stackWf s.work.endBound s.work.stack = true

section
variable {s t : State} {i : Instr}

theorem State.Inv.steady (h : s.Inv) : s.Steady where
  bufWf := h.bufWf
  requestsWf := h.requestsWf
  stackAgrees := h.stackAgrees
  cursorInside he := by
    by_cases hp : s.work.phase = .idle
    · rw [h.idleClean hp]; exact Nat.zero_le _
    · exact h.cursorInside he hp

/-- Between transactions only the buffer and the queue have to be in order. -/
theorem inv_of_idle (hb : s.buf.wf = true) (hr : ∀ r ∈ s.requests, r.wf = true) (hw : s.work = Work.idle) :
    s.Inv where
  bufWf := hb
  requestsWf := hr
  idleClean _ := hw
  contentInside ctx hp := by rw [hw] at hp; cases hp
  trailerThere hp := by rw [hw] at hp; cases hp
  cursorInside _ hp := absurd (by rw [hw]; rfl) hp
  stackAgrees := by rw [hw]; rfl

namespace State.Steady

/-- The phases of which the invariant asks nothing more: a word or a header is read next. -/
theorem inv (h : s.Steady)
    (hp : s.work.phase = .ethertype ∨ s.work.phase = .innerEthertype ∨ ∃ ctx, s.work.phase = .header ctx) :
    s.Inv where
  bufWf := h.bufWf
  requestsWf := h.requestsWf
  idleClean hi := by rcases hp with hp | hp | ⟨ctx, hp⟩ <;> cases hp.symm.trans hi
  contentInside ctx hi := by rcases hp with hp | hp | ⟨ctx, hp⟩ <;> cases hp.symm.trans hi
  trailerThere hi := by rcases hp with hp | hp | ⟨ctx, hp⟩ <;> cases hp.symm.trans hi
  cursorInside he _ := h.cursorInside he
  stackAgrees := h.stackAgrees

/-- New working values keep it where the cursor and the containers do. -/
theorem withWork (h : s.Steady) {w : Work} (hc : w.entry = .frame → w.pos ≤ s.buf.len)
    (hw : stackWf w.endBound w.stack = true) : ({ s with work := w } : State).Steady :=
  ⟨h.bufWf, h.requestsWf, hc, hw⟩

theorem atHeader_inv (h : s.Steady) {w : Work} {ctx : TagContext} (hp : w.phase = .header ctx)
    (hc : w.entry = .frame → w.pos ≤ s.buf.len) (hw : stackWf w.endBound w.stack = true) :
    ({ s with work := w } : State).Inv :=
  (h.withWork hc hw).inv (.inr (.inr ⟨ctx, hp⟩))

theorem ended_inv (h : s.Steady) (r : Response) : (endTransaction r s).Inv := inv_of_idle h.bufWf h.requestsWf rfl

theorem unwound (h : s.Steady) : s.unwound.Steady :=
  h.withWork h.cursorInside ((unwind_spec _ _ _ _).2.2.1 h.stackAgrees)

/-- However a transaction that ends goes on, the invariant holds: a trailer lies inside the buffer (R207). -/
theorem finished_inv (h : s.Steady) (hf : Finished s t) : t.Inv := by
  obtain ⟨⟨hcfg, hbuf, hreq⟩, ⟨r, hw, -⟩ | ⟨hp, hpos, -, he, hs, htr⟩⟩ := hf
  · exact inv_of_idle (hbuf ▸ h.bufWf) (hreq ▸ h.requestsWf) hw
  have hlen : t.work.pos + 6 = t.buf.len := by
    have hb := htr
    rw [trailerPresent_eq, Except.ok.injEq, Bool.and_eq_true, decide_eq_true_iff] at hb
    rw [hpos, hbuf]
    exact hb.1
  exact {
    bufWf := hbuf ▸ h.bufWf
    requestsWf := hreq ▸ h.requestsWf
    idleClean := fun hi => by cases hp.symm.trans hi
    contentInside := fun ctx hi => by cases hp.symm.trans hi
    trailerThere := fun _ => ⟨hlen, by rw [hcfg, hbuf, hpos]; exact htr⟩
    cursorInside := fun _ _ => by omega
    stackAgrees := by rw [he, hs]; exact h.stackAgrees }

/-- The loop test gives a state with the invariant, whichever way it goes. -/
theorem closeSequences_inv (h : s.Steady) (ht : closeSequences s = .ok t) : t.Inv := by
  rcases closeSequences_spec s with ⟨e, -, -, h'⟩ | h' | ⟨u, h', hf⟩ | ⟨-, -, h'⟩
  · obtain rfl := Except.ok.inj (h'.symm.trans ht)
    exact h.unwound.atHeader_inv rfl h.unwound.cursorInside h.unwound.stackAgrees
  · simp [h'] at ht
  · obtain rfl := Except.ok.inj (h'.symm.trans ht)
    exact h.unwound.finished_inv hf
  · simp [h'] at ht

theorem deliver_inv {n : Nat} {x : Value} (h : s.Steady) (hc : s.work.entry = .frame → s.work.pos + n ≤ s.buf.len)
    (ht : deliver n x s = .ok t) : t.Inv := by
  refine closeSequences_inv ?_ ht
  exact h.withWork hc h.stackAgrees

theorem enterContainer_inv {k : ContainerKind} {n : Nat} (h : s.Steady) (ht : enterContainer k n s = .ok t) :
    t.Inv := by
  refine closeSequences_inv ?_ ht
  exact h.withWork h.cursorInside h.stackAgrees

/-- A held header's content lies inside the buffer (R101). -/
theorem latchHeader_inv {hdr n : Nat} {ctx : TagContext} (h : s.Steady) (hp : s.work.phase = .header ctx)
    (h2 : 2 ≤ hdr) (ht : latchHeader hdr n s = .ok t) : t.Inv := by
  obtain ⟨hin, tag, -, ⟨-, rfl⟩ | ⟨-, rfl⟩⟩ := latchHeader_eq_ok ht
  · exact h.ended_inv _
  have hph : headerDone s.work.phase = .tag ctx := by rw [hp]; rfl
  exact {
    bufWf := h.bufWf
    requestsWf := h.requestsWf
    idleClean := fun hi => by cases hph.symm.trans hi
    contentInside := fun _ _ => ⟨hin, by simp only; omega⟩
    trailerThere := fun hi => by cases hph.symm.trans hi
    cursorInside := fun _ _ => by simp only; omega
    stackAgrees := h.stackAgrees }

end State.Steady

/-! ### Every step keeps the invariant -/

/-- The words at the cursor lie in what is left of the buffer. -/
theorem fetch_ethertype_fits {first : Bool} (hs : s.Steady)
    (h : decodeEthertype s.cfg first (bytesFrom s.buf s.work.pos) = .ok i) : Fits s i :=
  (decodeEthertype_within h).fits fun he => by
    have := hs.cursorInside he
    rw [bytesFrom_length]
    omega

theorem fetch_fits (hs : s.Inv) (h : fetch s = .ok i) : Fits s i := by
  cases hp : s.work.phase with
  | idle => simp [fetch, hp] at h
  | ethertype =>
    simp only [fetch, hp] at h
    exact fetch_ethertype_fits (first := true) hs.steady (fetchAt_eq_ok.mp h)
  | innerEthertype =>
    simp only [fetch, hp] at h
    exact fetch_ethertype_fits (first := false) hs.steady (fetchAt_eq_ok.mp h)
  | header ctx =>
    simp only [fetch, hp] at h
    obtain ⟨hr, hn⟩ := decodeLength_advance (fetchAt_eq_ok.mp h)
    exact ⟨hr, fun he => hn ▸ hs.steady.cursorInside he, fun _ => ⟨ctx, hp⟩⟩
  | tag ctx =>
    simp only [fetch, hp] at h
    obtain ⟨c, hc, hi⟩ := bind_eq_ok.mp h
    obtain rfl := Except.ok.inj hi
    refine (tagInstr_within ..).fits fun _ => ?_
    rw [memRead_length hc]
    exact (hs.contentInside ctx hp).1
  | trailer =>
    simp only [fetch, hp] at h
    exact (decodeTrailer_within (fetchAt_eq_ok.mp h)).fits hs.steady.cursorInside

/-- Whatever a fitting instruction does, the invariant holds afterwards. -/
theorem Effect.inv (h : Effect s i t) (hs : s.Steady) (hf : Fits s i) : t.Inv := by
  cases h with
  | ended r => exact hs.ended_inv r
  | delivered h => exact hs.deliver_inv hf.inside h
  | entered h => exact hs.enterContainer_inv h
  | allDataOpened h =>
    refine State.Steady.closeSequences_inv ?_ h
    exact hs.withWork hs.cursorInside rfl
  | latched hi h2 h =>
    obtain ⟨ctx, hp⟩ := hf.atHeader hi
    exact hs.latchHeader_inv hp h2 h
  | vlanRead tci => exact State.Steady.inv ⟨hs.bufWf, hs.requestsWf, hf.inside, hs.stackAgrees⟩ (.inr (.inl rfl))
  | fielded | gooseRead => exact hs.atHeader_inv rfl hf.inside hs.stackAgrees
  | pduOpened => exact hs.atHeader_inv rfl hs.cursorInside hs.stackAgrees

/-- An opened transaction has the invariant: a frame is opened only with 14 bytes (R202). -/
theorem openTransaction_inv {entry : Entry} {a : Nat} (hb : s.buf.wf = true) (hr : ∀ r ∈ s.requests, r.wf = true)
    (h : openTransaction entry a s = .ok t) : t.Inv := by
  obtain ⟨⟨-, hbuf, hreq⟩, ⟨hw, -⟩ | ⟨-, he, -, hst, -, -, -, hat⟩⟩ := openTransaction_eq_ok h
  · exact inv_of_idle (hbuf ▸ hb) (hreq ▸ hr) hw
  have hstack : stackWf t.work.endBound t.work.stack = true := by
    rw [hst]; cases t.work.endBound <;> rfl
  rcases hat with ⟨-, hp, hpos, hlen⟩ | ⟨hne, hp, -⟩
  · have hcur : t.work.pos ≤ t.buf.len := by rw [hpos, hbuf]; omega
    exact State.Steady.inv ⟨hbuf ▸ hb, hreq ▸ hr, fun _ => hcur, hstack⟩ (.inl hp)
  · exact State.Steady.inv ⟨hbuf ▸ hb, hreq ▸ hr, fun hf => absurd (he.symm.trans hf) hne, hstack⟩ (.inr (.inr hp))

theorem takeExposed_inv {entry : Entry} {hand : Option Memory} {a : Nat} (hb : s.buf.wf = true)
    (hh : handWf hand = true) (hr : ∀ r ∈ s.requests, r.wf = true) (h : takeExposed entry hand a s = .next t) :
    t.Inv := by
  have hb' : (handOver hand s).buf.wf = true := handOver_buf_wf hh hb
  have hr' : ∀ r ∈ (handOver hand s).requests, r.wf = true := by rwa [handOver_requests]
  rcases takeExposed_cases h with ho | ⟨⟨-, hbuf, hreq⟩, hw⟩
  · exact openTransaction_inv hb' hr' ho
  · exact inv_of_idle (hbuf ▸ hb') (hreq ▸ hr') hw

theorem step_keeps_inv (hs : s.Inv) (h : step s = .next t) : t.Inv := by
  rcases step_cases h with ⟨-, rfl⟩ | ⟨r, rs, i, hq, hi, hx⟩ | ⟨entry, hand, a, rs, hq, hx⟩ |
    ⟨-, ⟨i, hi, hx⟩ | ⟨e, rfl⟩⟩
  · exact hs
  · obtain ⟨hr, hrs⟩ := List.forall_mem_cons.mp (hq ▸ hs.requestsWf)
    obtain ⟨-, hreq, hw, hbuf⟩ := exec_request hi hx
    exact inv_of_idle (hbuf hr hs.bufWf) (hreq ▸ hrs) hw
  · obtain ⟨hr, hrs⟩ := List.forall_mem_cons.mp (hq ▸ hs.requestsWf)
    exact takeExposed_inv (s := { s with requests := rs }) hs.bufWf hr hrs hx
  · have hf := fetch_fits hs hi
    exact (exec_effect hf.notRequest hx).inv hs.steady hf
  · exact hs.steady.ended_inv _

end

/-! ### Requests and the past -/

/-- The buffer a request works on: the one handed over, or the one the block holds. -/
theorem handOver_buf_congr {s s' : State} {hand : Option Memory} (h : hand = none → s.buf = s'.buf) :
    (handOver hand s).buf = (handOver hand s').buf := by
  cases hand with
  | none => exact h rfl
  | some m => rfl

end Sys2Proof.Machine

open Sys2Proof Sys2Proof.Machine

/-- Settles O49: a step is one case of `step_cases`; an instruction fetched under the invariant fits its phase, and each
of its effects keeps the part of the invariant all phases share. -/
theorem stepKeepsInv : Obligations.StepKeepsInv := fun _ _ => step_keeps_inv

/-- Settles O52, by the inversions of `exec` and `step`. -/
theorem configurationIsStatic : Obligations.ConfigurationIsStatic :=
  ⟨fun _ _ _ => exec_cfg, fun _ _ => step_cfg⟩

/-- Settles O56: both states hand the same configuration and buffer to the same decoder or encoder. -/
theorem outcomesIgnoreThePast : Obligations.OutcomesIgnoreThePast := by
  intro s s' t t' i hand hi hcfg hbuf h h'
  have hb := handOver_buf_congr hbuf
  rcases hi with ⟨k, a, rfl⟩ | ⟨a, rfl⟩
  · have hx := execEncode_eq_next h
    rw [hcfg, hb] at hx
    rcases hx with ⟨m, n, hm, rfl⟩ | ⟨e, he, rfl⟩ <;>
      rcases execEncode_eq_next h' with ⟨m', n', hm', rfl⟩ | ⟨e', he', rfl⟩
    · cases hm.symm.trans hm'
      exact ⟨rfl, rfl, rfl, rfl⟩
    · cases hm.symm.trans he'
    · cases he.symm.trans hm'
    · cases he.symm.trans he'
      exact ⟨rfl, hb, rfl, rfl⟩
  · obtain ⟨r, hr, rfl⟩ := execDecode_eq_next h
    obtain ⟨r', hr', rfl⟩ := execDecode_eq_next h'
    rw [hcfg, hb] at hr
    cases hr.symm.trans hr'
    exact ⟨rfl, hb, rfl, rfl⟩

end

section
/-! SUPPORT. How a computation can stop: the codecs raise errors and are never broken (R11, R52, R155), ENCODE's errors
stand at its offset, and the obligations of 20_memory.md that rest on it. -/

namespace Sys2Proof.Machine

/-! ### How a computation stops -/

/-- If the computation stops, then with a stop of `P`. -/
def OnlyStops {α : Type} (P : Stop → Prop) (x : Codec α) : Prop := ∀ e, x = .error e → P e

/-- An error of the block, not a bug of the model. -/
def Stop.IsRaised : Stop → Prop
  | .raised _ => True
  | .broken _ => False

/-- An error ENCODE may answer at the offset `p` (R216, R217, R251). -/
def Stop.OfEncode (p : Nat) (e : Stop) : Prop :=
  e = .raised ⟨.lengthOverflow, p⟩ ∨ e = .raised ⟨.bufferTooSmall, p⟩

section
variable {α β : Type} {P : Stop → Prop} {x : Codec α} {f : α → Codec β} {m : Memory} {a n p : Nat}
  {r : ErrorReason}

@[simp] theorem isRaised_raised (e : Error) : (Stop.raised e).IsRaised := trivial

theorem Stop.OfEncode.isRaised {e : Stop} (h : e.OfEncode p) : e.IsRaised := by
  rcases h with rfl | rfl <;> trivial

@[simp] theorem onlyStops_ok (y : α) : OnlyStops P (.ok y : Codec α) := fun _ h => by cases h

@[simp] theorem onlyStops_pure (y : α) : OnlyStops P (pure y : Codec α) := onlyStops_ok y

@[simp] theorem onlyStops_raise : OnlyStops P (raise r p : Codec α) ↔ P (.raised ⟨r, p⟩) := by
  simp [OnlyStops]

theorem raise_raises : OnlyStops Stop.IsRaised (raise r p : Codec α) := onlyStops_raise.mpr trivial

theorem OnlyStops.bind (hx : OnlyStops P x) (hf : ∀ y, x = .ok y → OnlyStops P (f y)) : OnlyStops P (x >>= f) := by
  intro e he
  rcases bind_eq_error.mp he with h | ⟨y, hy, h⟩
  · exact hx e h
  · exact hf y hy e h

/-- Where a computation answers, what follows it alone decides. -/
theorem OnlyStops.bind_of_ok {y : α} (hx : x = .ok y) (hf : OnlyStops P (f y)) : OnlyStops P (x >>= f) := by
  rw [hx]; exact hf

theorem OnlyStops.ite {c : Prop} [Decidable c] {y : Codec α} (hx : c → OnlyStops P x) (hy : ¬ c → OnlyStops P y) :
    OnlyStops P (if c then x else y) := iteInduction hx hy

/-- A meaning that is not broken answers a next state. -/
theorem commit_answers {s : State} {r : Codec State} (h : OnlyStops Stop.IsRaised r) : ∃ t, commit s r = .next t := by
  cases r with
  | ok t => exact ⟨t, rfl⟩
  | error e =>
    cases e with
    | raised e => exact ⟨_, rfl⟩
    | broken f => exact (h _ rfl).elim

/-! ### Accesses inside the buffer -/

theorem onlyStops_memRead (h : a + n ≤ m.len) : OnlyStops P (memRead m a n) := by
  rw [memRead_of_le h]; exact onlyStops_ok _

theorem onlyStops_memReadByte (h : a < m.len) : OnlyStops P (memReadByte m a) := by
  rw [memReadByte_of_lt h]; exact onlyStops_ok _

theorem onlyStops_memRead16 (h : a + 2 ≤ m.len) : OnlyStops P (memRead16 m a) := by
  rw [memRead16_of_le h]; exact onlyStops_ok _

end

/-! ### The decoders are never broken -/

section
variable {cfg : Cfg} {m : Memory} {p : Nat} {c : List Byte}

theorem decBoolean_raises : OnlyStops Stop.IsRaised (decBoolean p c) := by
  rcases decBoolean_cases p c with ⟨-, h⟩ | ⟨b, -, h⟩ <;> simp [h]

theorem decSigned_raises : OnlyStops Stop.IsRaised (decSigned p c) := by
  rcases decSigned_cases p c with ⟨-, h⟩ | ⟨-, h⟩ | ⟨-, h⟩ | ⟨-, -, h⟩ | ⟨-, -, h⟩ <;> simp [h]

theorem decUnsigned_raises : OnlyStops Stop.IsRaised (decUnsigned p c) := by
  rcases decUnsigned_cases p c with ⟨-, h⟩ | ⟨-, h⟩ | ⟨-, h⟩ | ⟨-, h⟩ | ⟨-, -, h⟩ | ⟨-, -, h⟩ <;> simp [h]

theorem decU32_raises : OnlyStops Stop.IsRaised (decU32 p c) :=
  .bind decUnsigned_raises fun _ _ => onlyStops_pure _

theorem decFloat_raises : OnlyStops Stop.IsRaised (decFloat p c) := by
  rcases decFloat_cases p c with ⟨-, -, h⟩ | ⟨-, h⟩ | ⟨-, h⟩ <;> simp [h]

theorem decTime_raises : OnlyStops Stop.IsRaised (decTime p c) := by
  rcases decTime_cases p c with ⟨-, h⟩ | ⟨u, -, h⟩ <;> simp [h]

theorem decUtcTime_raises : OnlyStops Stop.IsRaised (decUtcTime p c) :=
  .bind decTime_raises fun _ _ => onlyStops_pure _

theorem decBitString_raises : OnlyStops Stop.IsRaised (decBitString p c) := by
  rcases decBitString_cases p c with ⟨-, h⟩ | ⟨b, bits, -, ⟨-, h⟩ | ⟨-, h⟩⟩ <;> simp [h]

theorem decodeScalar_raises (tag : Byte) : OnlyStops Stop.IsRaised (decodeScalar cfg p tag c) :=
  .ite (fun _ => .bind decBoolean_raises fun _ _ => onlyStops_pure _) fun _ =>
  .ite (fun _ => decSigned_raises) fun _ =>
  .ite (fun _ => decUnsigned_raises) fun _ =>
  .ite (fun _ => decFloat_raises) fun _ =>
  .ite (fun _ => onlyStops_ok _) fun _ =>
  .ite (fun _ => onlyStops_ok _) fun _ =>
  .ite (fun _ => onlyStops_ok _) fun _ =>
  .ite (fun _ => decUtcTime_raises) fun _ =>
  .ite (fun _ => decBitString_raises) fun _ => raise_raises

theorem decodeTagLength_raises : OnlyStops Stop.IsRaised (decodeTagLength cfg m p) := fun _ h => by
  rcases decodeTagLength_eq_error h with rfl | rfl <;> trivial

/-- The content of a header that DECODE_TAG_LENGTH answers can be read. -/
theorem onlyStops_content {P : Stop → Prop} {tag : Byte} {len v : Nat}
    (h : decodeTagLength cfg m p = .ok (tag, len, v)) : OnlyStops P (memRead m v len) := by
  obtain ⟨-, -, hin, -⟩ := decodeTagLength_eq_ok h
  exact onlyStops_memRead hin

/-! ### Elements and sequences -/

/-- A decoded element moves the cursor by at least two bytes, a decoded sequence by two for each element and to its
bound; both stay inside the buffer (R155). -/
theorem element_sequence_progress (cfg : Cfg) (m : Memory) (fuel : Nat) :
    (∀ pos q x, decodeElement cfg m fuel pos = .ok (q, x) → pos + 2 ≤ q ∧ q ≤ m.len) ∧
      ∀ pos bound q xs, decodeSequence cfg m fuel pos bound = .ok (q, xs) →
        pos + 2 * xs.length ≤ q ∧ bound ≤ q ∧ (pos ≤ m.len → q ≤ m.len) := by
  induction fuel with
  | zero => exact ⟨fun _ _ _ h => (by cases h), fun _ _ _ _ h => (by cases h)⟩
  | succ fuel ih =>
    obtain ⟨ihe, ihs⟩ := ih
    constructor
    · intro pos q x h
      rw [decodeElement] at h
      obtain ⟨⟨tag, len, v⟩, ht, h⟩ := bind_eq_ok.mp h
      obtain ⟨-, hv, hin, -⟩ := decodeTagLength_eq_ok ht
      have container : ∀ kind, (decodeSequence cfg m fuel v (v + len) >>= fun r =>
          pure (r.1, wrapItems kind r.2)) = .ok (q, x) → pos + 2 ≤ q ∧ q ≤ m.len := by
        intro kind h
        obtain ⟨⟨q', xs⟩, hs, h⟩ := bind_eq_ok.mp h
        cases h
        have := ihs _ _ _ _ hs
        omega
      simp only at h
      split at h
      · exact container _ h
      · split at h
        · exact container _ h
        · obtain ⟨c, -, h⟩ := bind_eq_ok.mp h
          obtain ⟨y, -, h⟩ := bind_eq_ok.mp h
          cases h
          omega
    · intro pos bound q xs h
      rw [decodeSequence] at h
      split at h
      · obtain ⟨⟨pos', x⟩, he, h⟩ := bind_eq_ok.mp h
        obtain ⟨⟨q', ys⟩, hs, h⟩ := bind_eq_ok.mp h
        cases h
        have := ihe _ _ _ he
        have := ihs _ _ _ _ hs
        simp only [List.length_cons]
        omega
      · cases h
        simp only [List.length_nil]
        omega

/-- With fuel for what is left of the buffer, decoding is not broken (R155): the header moves the cursor by two bytes
before any recursive call gets less fuel. -/
theorem element_sequence_raises (cfg : Cfg) (m : Memory) (fuel : Nat) :
    (∀ pos, m.len - pos + 1 ≤ fuel → OnlyStops Stop.IsRaised (decodeElement cfg m fuel pos)) ∧
      ∀ pos bound, m.len - pos + 2 ≤ fuel → OnlyStops Stop.IsRaised (decodeSequence cfg m fuel pos bound) := by
  induction fuel with
  | zero => exact ⟨fun _ h => (by omega), fun _ _ h => (by omega)⟩
  | succ fuel ih =>
    obtain ⟨ihe, ihs⟩ := ih
    constructor
    · intro pos hf
      rw [decodeElement]
      refine .bind decodeTagLength_raises fun ⟨tag, len, v⟩ ht => ?_
      obtain ⟨-, hv, hin, -⟩ := decodeTagLength_eq_ok ht
      have inner := ihs v (v + len) (by omega)
      exact .ite (fun _ => .bind inner fun _ _ => onlyStops_pure _) fun _ =>
        .ite (fun _ => .bind inner fun _ _ => onlyStops_pure _) fun _ =>
        .bind (onlyStops_content ht) fun _ _ => .bind (decodeScalar_raises tag) fun _ _ => onlyStops_pure _
    · intro pos bound hf
      rw [decodeSequence]
      refine .ite (fun _ => .bind (ihe pos (by omega)) fun ⟨pos', x⟩ he => ?_) fun _ => onlyStops_ok _
      have := (element_sequence_progress cfg m fuel).1 _ _ _ he
      exact .bind (ihs pos' bound (by omega)) fun _ _ => onlyStops_pure _

/-! ### The PDU -/

theorem fieldString_raises : OnlyStops Stop.IsRaised (fieldString cfg m p) :=
  .bind decodeTagLength_raises fun _ ht => .bind (onlyStops_content ht) fun _ _ => onlyStops_pure _

theorem fieldU32_raises : OnlyStops Stop.IsRaised (fieldU32 cfg m p) :=
  .bind decodeTagLength_raises fun _ ht => .bind (onlyStops_content ht) fun _ _ =>
  .bind decU32_raises fun _ _ => onlyStops_pure _

theorem fieldBool_raises : OnlyStops Stop.IsRaised (fieldBool cfg m p) :=
  .bind decodeTagLength_raises fun _ ht => .bind (onlyStops_content ht) fun _ _ =>
  .bind decBoolean_raises fun _ _ => onlyStops_pure _

theorem fieldTime_raises : OnlyStops Stop.IsRaised (fieldTime cfg m p) :=
  .bind decodeTagLength_raises fun _ ht => .bind (onlyStops_content ht) fun _ _ =>
  .bind decTime_raises fun _ _ => onlyStops_pure _

theorem decodeAllData_raises (count : BitVec 32) : OnlyStops Stop.IsRaised (decodeAllData cfg m count p) :=
  .bind decodeTagLength_raises fun ⟨_, _, v⟩ _ =>
  .ite (fun _ => raise_raises) fun _ =>
  .bind ((element_sequence_raises cfg m (decodeFuel m v)).2 v _ (Nat.le_refl _)) fun _ _ =>
  .ite (fun _ => raise_raises) fun _ => onlyStops_pure _

theorem decodePduBody_raises : OnlyStops Stop.IsRaised (decodePduBody cfg m p) :=
  .bind fieldString_raises fun _ _ => .bind fieldU32_raises fun _ _ => .bind fieldString_raises fun _ _ =>
  .bind fieldString_raises fun _ _ => .bind fieldTime_raises fun _ _ => .bind fieldU32_raises fun _ _ =>
  .bind fieldU32_raises fun _ _ => .bind fieldBool_raises fun _ _ => .bind fieldU32_raises fun _ _ =>
  .bind fieldBool_raises fun _ _ => .bind fieldU32_raises fun _ _ => .bind (decodeAllData_raises _) fun _ _ =>
  onlyStops_pure _

theorem decodePdu_raises : OnlyStops Stop.IsRaised (decodePdu cfg m p) :=
  .bind decodeTagLength_raises fun _ _ =>
  .ite (fun _ => raise_raises) fun _ => .bind decodePduBody_raises fun _ _ => onlyStops_pure _

/-! ### The frame -/

/-- A trailer is read only where six bytes remain (R207). -/
theorem trailerPresent_eq_true (h : trailerPresent cfg m p = .ok true) :
    p + 6 = m.len ∧ word16 (lookupCell (p + 4) m.cells) (lookupCell (p + 5) m.cells) = cfg.prpSuffix := by
  simpa [trailerPresent_eq] using h

theorem onlyStops_trailerPresent {P : Stop → Prop} : OnlyStops P (trailerPresent cfg m p) := by
  rw [trailerPresent_eq]; exact onlyStops_ok _

theorem decodePrp_raises : OnlyStops Stop.IsRaised (decodePrp cfg m p) := by
  refine .bind onlyStops_trailerPresent fun present hp => .ite (fun ht => ?_) fun _ => onlyStops_pure _
  obtain ⟨hlen, -⟩ := trailerPresent_eq_true (ht ▸ hp)
  refine .bind (onlyStops_memRead16 (by omega)) fun seq _ => .bind (onlyStops_memRead16 (by omega)) fun w _ => ?_
  split
  · exact onlyStops_pure _
  · exact raise_raises

theorem decodeGooseHeader_raises : OnlyStops Stop.IsRaised (decodeGooseHeader m p) := by
  refine .ite (fun _ => raise_raises) fun h => ?_
  exact .bind (onlyStops_memRead16 (by omega)) fun _ _ => .bind (onlyStops_memRead16 (by omega)) fun _ _ =>
    .bind (onlyStops_memRead16 (by omega)) fun _ _ => .bind (onlyStops_memRead16 (by omega)) fun _ _ => onlyStops_pure _

theorem decodeVlan_raises (h : p + 14 ≤ m.len) : OnlyStops Stop.IsRaised (decodeVlan cfg m p) := by
  refine .bind (onlyStops_memRead16 (by omega)) fun _ _ => .ite (fun _ => ?_) fun _ => onlyStops_pure _
  refine .ite (fun _ => raise_raises) fun h18 => ?_
  simp only [Cfg.vlanTagBytes] at h18
  exact .bind (onlyStops_memRead16 (by omega)) fun _ _ => .bind (onlyStops_memRead16 (by omega)) fun _ _ =>
    onlyStops_pure _

/-- DECODE is never broken, on any buffer at any offset (R52, R155). -/
theorem decodeFrame_raises : OnlyStops Stop.IsRaised (decodeFrame cfg m p) := by
  refine .ite (fun _ => raise_raises) fun h => ?_
  exact .bind (onlyStops_memRead (by simp only [Cfg.macBytes]; omega)) fun _ _ =>
    .bind (onlyStops_memRead (by simp only [Cfg.macBytes]; omega)) fun _ _ =>
    .bind (decodeVlan_raises (by omega)) fun _ _ =>
    .ite (fun _ => onlyStops_pure _) fun _ =>
    .bind decodeGooseHeader_raises fun _ _ => .bind decodePdu_raises fun _ _ => .bind decodePrp_raises fun _ _ =>
    onlyStops_pure _

end

/-! ### ENCODE's errors stand at its offset -/

section
variable {cfg : Cfg} {start : Nat}

theorem encodeTlv_stops (tag : Byte) (c : List Byte) : OnlyStops (Stop.OfEncode start) (encodeTlv cfg start tag c) :=
  fun _ h => .inl (encodeTlv_eq_error.mp h).2

mutual
theorem encodeValue_stops : ∀ x : Value, OnlyStops (Stop.OfEncode start) (encodeValue cfg start x)
  | .array xs | .struct xs => .bind (encodeValues_stops xs) fun _ _ => encodeTlv_stops _ _
  | .boolean _ | .int8 _ | .int16 _ | .int32 _ | .int64 _ | .uint8 _ | .uint16 _ | .uint32 _ | .float32 _ | .float64 _
  | .octetString _ | .visibleString _ | .mmsString _ | .utcTime _ | .bitString _ _ => encodeTlv_stops _ _
theorem encodeValues_stops : ∀ xs : Values, OnlyStops (Stop.OfEncode start) (encodeValues cfg start xs)
  | .nil => onlyStops_ok _
  | .cons x xs => .bind (encodeValue_stops x) fun _ _ => .bind (encodeValues_stops xs) fun _ _ => onlyStops_pure _
end

theorem encodePduBody_stops (d : GoosePdu) : OnlyStops (Stop.OfEncode start) (encodePduBody cfg start d) :=
  .bind (encodeTlv_stops _ _) fun _ _ => .bind (encodeTlv_stops _ _) fun _ _ => .bind (encodeTlv_stops _ _) fun _ _ =>
  .bind (encodeTlv_stops _ _) fun _ _ => .bind (encodeTlv_stops _ _) fun _ _ => .bind (encodeTlv_stops _ _) fun _ _ =>
  .bind (encodeTlv_stops _ _) fun _ _ => .bind (encodeTlv_stops _ _) fun _ _ => .bind (encodeTlv_stops _ _) fun _ _ =>
  .bind (encodeTlv_stops _ _) fun _ _ => .bind (encodeTlv_stops _ _) fun _ _ => .bind (encodeValues_stops _) fun _ _ =>
  .bind (encodeTlv_stops _ _) fun _ _ => onlyStops_pure _

theorem encodeFrame_stops (k : GoosePacket) : OnlyStops (Stop.OfEncode start) (encodeFrame cfg k start) :=
  .bind (.bind (encodePduBody_stops k.pdu) fun _ _ => encodeTlv_stops _ _) fun _ _ =>
  .ite (fun _ => onlyStops_raise.mpr (.inl rfl)) fun _ =>
  .ite (fun _ => onlyStops_raise.mpr (.inl rfl)) fun _ => onlyStops_pure _

/-- The capacity check comes before the write, so ENCODE's write never faults (R54, R216). -/
theorem encodeInto_stops (m : Memory) (k : GoosePacket) :
    OnlyStops (Stop.OfEncode start) (encodeInto cfg m k start) := by
  refine .bind (encodeFrame_stops k) fun f _ => .ite (fun _ => onlyStops_raise.mpr (.inr rfl)) fun h => ?_
  exact .bind_of_ok (memWrite_of_le (by omega)) (onlyStops_pure _)

/-- What ENCODE answers: the frame it computed, written at the offset, and its length. -/
theorem encodeInto_eq_ok {m m' : Memory} {k : GoosePacket} {n : Nat} (h : encodeInto cfg m k start = .ok (m', n)) :
    ∃ f, encodeFrame cfg k start = .ok f ∧ f.length = n ∧ memWrite m start f = .ok m' := by
  obtain ⟨f, hf, h⟩ := bind_eq_ok.mp h
  split at h
  · exact absurd h raise_ne_ok
  · obtain ⟨u, hu, h⟩ := bind_eq_ok.mp h
    obtain ⟨rfl, rfl⟩ := Prod.mk.inj (Except.ok.inj h)
    exact ⟨f, hf, rfl, hu⟩

end

/-! ### Every instruction answers -/

section
variable {s : State} {i : Instr}

/-- The loop test is not broken where a value has joined the list or a sequence is open. -/
theorem closeSequences_raises (h : s.work.items ≠ [] ∨ s.work.endBound ≠ none) :
    OnlyStops Stop.IsRaised (closeSequences s) := by
  rcases closeSequences_spec s with ⟨e, -, -, h'⟩ | h' | ⟨u, h', -⟩ | ⟨hb, hi, -⟩
  · rw [h']; exact onlyStops_ok _
  · rw [h']; exact raise_raises
  · rw [h']; exact onlyStops_ok _
  · obtain ⟨-, -, -, hr | hr⟩ := unwind_spec s.work.pos s.work.stack s.work.endBound s.work.items
    · simp only [State.unwound, hr] at hb hi
      rcases h with h | h
      · exact absurd hi h
      · exact absurd hb h
    · exact absurd hi hr

theorem deliver_raises (n : Nat) (x : Value) : OnlyStops Stop.IsRaised (deliver n x s) :=
  closeSequences_raises (.inl (by simp))

theorem enterContainer_raises (k : ContainerKind) (n : Nat) : OnlyStops Stop.IsRaised (enterContainer k n s) :=
  closeSequences_raises (.inr (by simp))

/-- The tag byte of a header whose content lies in the buffer can be read. -/
theorem latchHeader_raises {hdr : Nat} (n : Nat) (h : 0 < hdr) : OnlyStops Stop.IsRaised (latchHeader hdr n s) := by
  by_cases hl : s.buf.len < s.work.pos + hdr + n
  · rw [latchHeader_of_lt hl]
    exact raise_raises
  · refine .bind_of_ok (y := ()) (contentInBuffer_eq_ok.mpr (Nat.le_of_not_lt hl)) ?_
    refine .bind (onlyStops_memReadByte (by omega)) fun tag _ => ?_
    split <;> exact onlyStops_pure _

theorem longLength_raises (m : Memory) (p n : Nat) : OnlyStops Stop.IsRaised (longLength m p n) := by
  rcases longLength_cases m p n with ⟨-, h⟩ | ⟨o, -, h⟩ <;> simp [h]

/-- Every instruction but a request answers a next state, whatever the state. -/
theorem exec_answers (hi : isRequestInstr i = false) (s : State) : ∃ t, exec i s = .next t := by
  cases i with
  | boolean => exact commit_answers (.bind decBoolean_raises fun _ _ => deliver_raises _ _)
  | bitString => exact commit_answers (.bind decBitString_raises fun _ _ => deliver_raises _ _)
  | integer => exact commit_answers (.bind decSigned_raises fun _ _ => deliver_raises _ _)
  | unsigned => exact commit_answers (.bind decUnsigned_raises fun _ _ => deliver_raises _ _)
  | float => exact commit_answers (.bind decFloat_raises fun _ _ => deliver_raises _ _)
  | utcTime => exact commit_answers (.bind decUtcTime_raises fun _ _ => deliver_raises _ _)
  | octetString | visibleString | mmsString => exact commit_answers (deliver_raises _ _)
  | array | struct => exact commit_answers (enterContainer_raises _ _)
  | unknownTag | lenMalformedIndefinite => exact commit_answers (raise_raises)
  | pdu => exact commit_answers (.ite (fun _ => raise_raises) fun _ => onlyStops_ok _)
  | pduAllData =>
    exact commit_answers
      (.ite (fun _ => raise_raises) fun _ => closeSequences_raises (.inr (by simp)))
  | pduGocbRef | pduDatSet | pduGoId | ethVlanMarker | ethGooseEthertype | ethOtherEthertype =>
    exact commit_answers (s := s) (onlyStops_ok _)
  | pduT => exact commit_answers (.bind decTime_raises fun _ _ => onlyStops_ok _)
  | pduSimulation | pduNdsCom => exact commit_answers (.bind decBoolean_raises fun _ _ => onlyStops_ok _)
  | pduTimeAllowedToLive | pduStNum | pduSqNum | pduConfRev | pduNumDatSetEntries =>
    exact commit_answers (.bind decU32_raises fun _ _ => onlyStops_ok _)
  | lenShort | lenLong1 | lenLong2 | lenLong3 | lenLong4 => exact commit_answers (latchHeader_raises _ (by omega))
  | lenMalformedTooLong =>
    exact commit_answers (.ite (fun _ => raise_raises) fun _ =>
      .bind (longLength_raises _ _ _) fun _ _ => latchHeader_raises _ (by omega))
  | prpTrailer =>
    refine commit_answers ?_
    split
    · exact onlyStops_ok _
    · exact raise_raises
  | encode | decode => cases hi

/-- Between transactions a DECODE answers (R155). -/
theorem exec_decode_answers (hp : s.work.phase = .idle) (hand : Option Memory) (a : Nat) :
    ∃ t, exec (.decode hand a) s = .next t := by
  change ∃ t, execDecode hand a s = .next t
  simp only [execDecode, hp]
  cases hd : decodeFrame s.cfg (handOver hand s).buf a with
  | ok k => cases k <;> exact ⟨_, rfl⟩
  | error e =>
    cases e with
    | raised e => exact ⟨_, rfl⟩
    | broken f => exact (decodeFrame_raises _ hd).elim

/-- Between transactions an ENCODE answers (R54). -/
theorem exec_encode_answers (hp : s.work.phase = .idle) (k : GoosePacket) (hand : Option Memory) (a : Nat) :
    ∃ t, exec (.encode k hand a) s = .next t := by
  change ∃ t, execEncode k hand a s = .next t
  simp only [execEncode, hp]
  cases he : encodeInto s.cfg (handOver hand s).buf k a with
  | ok r => exact ⟨_, rfl⟩
  | error e =>
    cases e with
    | raised e => exact ⟨_, rfl⟩
    | broken f => exact (encodeInto_stops _ _ _ he).isRaised.elim

theorem openTransaction_raises (entry : Entry) (a : Nat) : OnlyStops Stop.IsRaised (openTransaction entry a s) := by
  cases entry with
  | frame =>
    refine .ite (fun _ => raise_raises) fun h => ?_
    exact .bind (onlyStops_memRead (by simp only [Cfg.macBytes]; omega)) fun _ _ =>
      .bind (onlyStops_memRead (by simp only [Cfg.macBytes]; omega)) fun _ _ => onlyStops_pure _
  | pdu | element | tagLength => exact onlyStops_ok _
  | sequence => exact .ite (fun _ => onlyStops_ok _) fun _ => onlyStops_ok _

/-! ### Under the invariant an instruction stands at the cursor -/

theorem decodeEthertype_eq_error {cfg : Cfg} {first : Bool} {bs : List Byte} {e : DecodeReject}
    (h : decodeEthertype cfg first bs = .error e) : ∃ off, e = .tooShort off := by
  unfold decodeEthertype at h
  repeat' split at h
  all_goals cases h
  all_goals exact ⟨_, rfl⟩

theorem decodeLength_eq_error {cfg : Cfg} {bs : List Byte} {e : DecodeReject} (h : decodeLength cfg bs = .error e) :
    ∃ off, e = .tooShort off := by
  unfold decodeLength at h
  repeat' split at h
  all_goals cases h
  all_goals exact ⟨_, rfl⟩

/-- Six bytes that end in the marker are a PRP trailer (R207). -/
theorem decodeTrailer_of_present {cfg : Cfg} {m : Memory} {p : Nat} (h : trailerPresent cfg m p = .ok true) :
    ∃ i, decodeTrailer cfg (bytesFrom m p) = .ok i := by
  obtain ⟨hlen, hmark⟩ := trailerPresent_eq_true h
  rw [bytesFrom_cons (by omega), bytesFrom_cons (by omega), bytesFrom_cons (by omega), bytesFrom_cons (by omega),
    bytesFrom_cons (by omega), bytesFrom_cons (by omega)]
  exact ⟨_, if_pos hmark⟩

/-- Fetching raises where bytes that decode to nothing are only too short. -/
theorem fetchAt_raises {p : Position} {a at' : Nat}
    (h : ∀ e, decode s.cfg p (bytesFrom s.buf a) = .error e → ∃ off, e = .tooShort off) :
    OnlyStops Stop.IsRaised (fetchAt s p a at') := by
  unfold fetchAt
  split
  · exact onlyStops_ok _
  · exact raise_raises
  all_goals
    obtain ⟨off, ho⟩ := h _ (by assumption)
    cases ho

theorem fetch_raises (hs : s.Inv) (hp : s.work.phase ≠ .idle) : OnlyStops Stop.IsRaised (fetch s) := by
  unfold fetch
  split
  · contradiction
  · exact fetchAt_raises fun _ => decodeEthertype_eq_error
  · exact fetchAt_raises fun _ => decodeEthertype_eq_error
  · exact fetchAt_raises fun _ => decodeLength_eq_error
  · exact .bind (onlyStops_memRead (hs.contentInside _ (by assumption)).1) fun _ _ => onlyStops_pure _
  · obtain ⟨i, hi⟩ := decodeTrailer_of_present (hs.trailerThere (by assumption)).2
    exact fetchAt_raises fun e he => by cases hi.symm.trans he

/-! ### Every step answers -/

theorem step_of_fetch (hp : s.work.phase ≠ .idle) (h : fetch s = .ok i) : step s = exec i s := by
  unfold step
  split
  · contradiction
  · rw [h]

theorem step_of_fetch_error {e : Stop} (hp : s.work.phase ≠ .idle) (h : fetch s = .error e) :
    step s = commit s (.error e) := by
  unfold step
  split
  · contradiction
  · rw [h]

theorem step_answers (hs : s.Inv) : ∃ t, step s = .next t := by
  by_cases hp : s.work.phase = .idle
  · cases hq : s.requests with
    | nil => exact ⟨s, by simp only [step, hp, hq]⟩
    | cons r rs =>
      cases r <;> simp only [step, hp, hq]
      case encode => exact exec_encode_answers (s := { s with requests := rs }) hp _ _ _
      case decode => exact exec_decode_answers (s := { s with requests := rs }) hp _ _
      case expose => exact commit_answers (openTransaction_raises _ _)
  · cases hf : fetch s with
    | ok i =>
      rw [step_of_fetch hp hf]
      exact exec_answers (fetch_fits hs hf).notRequest s
    | error e =>
      rw [step_of_fetch_error hp hf]
      exact commit_answers fun _ he => by cases he; exact fetch_raises hs hp _ hf

end

end Sys2Proof.Machine

open Sys2Proof Sys2Proof.Machine

/-- Settles O51: every instruction answers, requests between transactions, and under the invariant the fetch before it
finds one or raises. -/
theorem stepNeverStops : Obligations.StepNeverStops := fun _ => step_answers

/-- Settles O35, by the two cases of an ENCODE that answers. -/
theorem encodeWritesExactlyTheFrame : Obligations.EncodeWritesExactlyTheFrame := by
  intro s t k hand start hw h
  rcases execEncode_eq_next h with ⟨m, n, hm, rfl⟩ | ⟨e, he, rfl⟩
  · obtain ⟨f, hf, rfl, hwrite⟩ := encodeInto_eq_ok hm
    obtain ⟨hle, -, hwf⟩ := memWrite_eq_ok hwrite
    have hlen := memWrite_len hwrite
    exact .inl ⟨_, f, rfl, hf, rfl, hlen.symm ▸ hle, hlen, hwf hw, memRead_memWrite_same hw hwrite,
      fun _ => memByte?_memWrite_of_outside hw hwrite⟩
  · rcases encodeInto_stops _ _ _ he with hr | hr
    · cases hr
      exact .inr ⟨_, rfl, .inl rfl, rfl, rfl⟩
    · cases hr
      exact .inr ⟨_, rfl, .inr rfl, rfl, rfl⟩

/-- Settles O53: what is no request has one of the effects of `Effect`, each of which stays in the working values. -/
theorem onlyRequestsTouchTheBuffer : Obligations.OnlyRequestsTouchTheBuffer := by
  intro i s t henc hdec h
  have hi : isRequestInstr i = false := by
    cases i with
    | encode k hand a => exact absurd rfl (henc k hand a)
    | decode hand a => exact absurd rfl (hdec hand a)
    | _ => rfl
  exact (exec_effect hi h).sameBlock.2

/-- Settles O32: a DECODE that answers ends the transaction in the block it was given. -/
theorem decodeNeverWrites : Obligations.DecodeNeverWrites := by
  intro s t start h
  obtain ⟨r, -, rfl⟩ := execDecode_eq_next h
  rfl

end

section
/-! SUPPORT. What the decoder of 30_encoding.md answers, said once for each layout (length octets, a whole element, an
ethertype word, the trailer), and the obligations that rest on it. -/

namespace Sys2Proof

/-- Whether an element is its header alone: the content of a container is the instructions that follow (R70). -/
def Instr.isHeaderOnly : Instr → Bool
  | .array _ | .struct _ | .pdu _ _ | .pduAllData _ _ => true
  | _ => false

/-- The long length row of `n` octets that hold the number `v` (R72). -/
def longRow : Nat → Nat → Instr
  | 1, v => .lenLong1 (BitVec.ofNat 8 v)
  | 2, v => .lenLong2 (BitVec.ofNat 16 v)
  | 3, v => .lenLong3 (BitVec.ofNat 24 v)
  | _, v => .lenLong4 (BitVec.ofNat 32 v)

end Sys2Proof

namespace Sys2Proof.Machine

section
variable {cfg : Cfg} {n v len : Nat} {l0 tag : Byte} {bs rest o c : List Byte} {i li : Instr} {ctx : TagContext}
  {first : Bool} {w : BitVec 16}

/-! ### Length octets -/

theorem tooManyLengthOctets_iff :
    tooManyLengthOctets cfg l0 = true ↔
      0x80 < l0.toNat ∧ (cfg.maxLenOctets < l0.toNat - 0x80 ∨ 4 < l0.toNat - 0x80) := by
  simp [tooManyLengthOctets]

/-- The length row that a first length octet selects (R72, R73). -/
theorem decodeLength_cases (cfg : Cfg) (l0 : Byte) (rest : List Byte) :
    l0.toNat < 0x80 ∧ decodeLength cfg (l0 :: rest) = .ok (.lenShort (l0.setWidth 7)) ∨
      l0.toNat = 0x80 ∧ decodeLength cfg (l0 :: rest) = .ok .lenMalformedIndefinite ∨
      tooManyLengthOctets cfg l0 = true ∧ decodeLength cfg (l0 :: rest) = .ok (.lenMalformedTooLong l0) ∨
      ∃ n, l0.toNat = 0x80 + n ∧ (1 ≤ n ∧ n ≤ 4 ∧ n ≤ cfg.maxLenOctets) ∧
        (rest.length < n ∧ decodeLength cfg (l0 :: rest) = .error (.tooShort 0) ∨
          n ≤ rest.length ∧ decodeLength cfg (l0 :: rest) = .ok (longRow n (be (rest.take n)))) := by
  rw [decodeLength]
  by_cases hs : l0.toNat < 0x80
  · exact .inl ⟨hs, if_pos hs⟩
  by_cases hi : l0.toNat = 0x80
  · exact .inr (.inl ⟨hi, by rw [if_neg hs, if_pos hi]⟩)
  by_cases ht : tooManyLengthOctets cfg l0 = true
  · exact .inr (.inr (.inl ⟨ht, by rw [if_neg hs, if_neg hi, if_pos ht]⟩))
  have hn : 1 ≤ l0.toNat - 0x80 ∧ l0.toNat - 0x80 ≤ 4 ∧ l0.toNat - 0x80 ≤ cfg.maxLenOctets := by
    rw [tooManyLengthOctets_iff] at ht
    omega
  refine .inr (.inr (.inr ⟨l0.toNat - 0x80, by omega, hn, ?_⟩))
  rw [if_neg hs, if_neg hi, if_neg ht]
  by_cases hl : rest.length < l0.toNat - 0x80
  · exact .inl ⟨hl, if_pos hl⟩
  · refine .inr ⟨by omega, ?_⟩
    rw [if_neg hl]
    generalize l0.toNat - 0x80 = n at hn
    obtain ⟨h1, h4, -⟩ := hn
    interval_cases n <;> rfl

/-- A long length row holds every number its octets can. -/
theorem longRow_lengthValue (h1 : 1 ≤ n) (h4 : n ≤ 4) (hv : v < 256 ^ n) : (longRow n v).lengthValue = some v := by
  interval_cases n <;> simp only [longRow, Instr.lengthValue, BitVec.toNat_ofNat] <;>
    rw [Nat.mod_eq_of_lt (by omega)]

theorem longRow_lengthOctetCount (h1 : 1 ≤ n) (h4 : n ≤ 4) : (longRow n v).lengthOctetCount = n + 1 := by
  interval_cases n <;> rfl

theorem longRow_wf (h1 : 1 ≤ n) (h4 : n ≤ 4) (hm : n ≤ cfg.maxLenOctets) : (longRow n v).wf cfg .length = true := by
  interval_cases n <;> simp [longRow, Instr.wf, hm]

theorem decodeLength_short (cfg : Cfg) (k : BitVec 7) (rest : List Byte) :
    decodeLength cfg (k.setWidth 8 :: rest) = .ok (.lenShort k) := by
  have hk : (k.setWidth 8).toNat = k.toNat := by
    rw [BitVec.toNat_setWidth, Nat.mod_eq_of_lt (by omega)]
  rw [decodeLength, if_pos (by omega), BitVec.setWidth_setWidth_of_le _ (by decide), BitVec.setWidth_eq]

/-- The octets of a long form are read back as its row. -/
theorem decodeLength_long (h1 : 1 ≤ n) (h4 : n ≤ 4) (hm : n ≤ cfg.maxLenOctets) (hv : v < 256 ^ n)
    (rest : List Byte) :
    decodeLength cfg (BitVec.ofNat 8 (0x80 + n) :: (bytesBE v n ++ rest)) = .ok (longRow n v) := by
  have hl0 : (BitVec.ofNat 8 (0x80 + n)).toNat = 0x80 + n := by
    rw [BitVec.toNat_ofNat, Nat.mod_eq_of_lt (by omega)]
  rcases decodeLength_cases cfg (BitVec.ofNat 8 (0x80 + n)) (bytesBE v n ++ rest) with
    ⟨h, -⟩ | ⟨h, -⟩ | ⟨h, -⟩ | ⟨k, hk, -, ⟨h, -⟩ | ⟨-, h⟩⟩
  · omega
  · omega
  · rw [tooManyLengthOctets_iff] at h
    omega
  · simp only [List.length_append, bytesBE_length] at h
    omega
  · obtain rfl : k = n := by omega
    rw [h, List.take_left' (bytesBE_length v k), be_bytesBE_of_lt hv]

/-- A well-formed length row is read back from its octets. -/
theorem decodeLength_encode (h : i.wf cfg .length = true) :
    ∃ bs, encode cfg i = some bs ∧ ∀ rest, decodeLength cfg (bs ++ rest) = .ok i := by
  cases i with
  | lenShort k => exact ⟨_, rfl, decodeLength_short cfg k⟩
  | lenLong1 k | lenLong2 k | lenLong3 k | lenLong4 k =>
    simp only [Instr.wf, Bool.and_eq_true, decide_eq_true_eq] at h
    refine ⟨_, rfl, fun rest => (decodeLength_long (by decide) (by decide) h.2 k.isLt rest).trans ?_⟩
    simp only [longRow, BitVec.ofNat_toNat, BitVec.setWidth_eq]
  | lenMalformedIndefinite => exact ⟨_, rfl, fun rest => rfl⟩
  | lenMalformedTooLong l0 =>
    simp only [Instr.wf, Bool.and_eq_true, decide_eq_true_eq] at h
    obtain ⟨-, ht⟩ := h
    have hgt := (tooManyLengthOctets_iff.mp ht).1
    exact ⟨_, rfl, fun rest => by
      rw [List.singleton_append, decodeLength, if_neg (by omega), if_neg (by omega), if_pos ht]⟩
  | _ => simp [Instr.wf] at h

/-- The octets of a length that fits are those of a row that gives this length. -/
theorem decodeLength_lengthOctets (h : lengthOctets cfg len = some o) (hlt : len < 2 ^ 32) :
    ∃ li, li.lengthValue = some len ∧ li.lengthOctetCount = o.length ∧
      ∀ rest, decodeLength cfg (o ++ rest) = .ok li := by
  rcases lengthOctets_eq_some h with ⟨hs, rfl⟩ | ⟨-, n, h1, hm, hv, hmin, rfl⟩
  · refine ⟨.lenShort (BitVec.ofNat 7 len), ?_, rfl, fun rest => ?_⟩
    · simp only [Instr.lengthValue, BitVec.toNat_ofNat]
      rw [Nat.mod_eq_of_lt (by omega)]
    · have hb : BitVec.ofNat 8 len = (BitVec.ofNat 7 len).setWidth 8 := by
        apply BitVec.eq_of_toNat_eq
        simp only [BitVec.toNat_setWidth, BitVec.toNat_ofNat]
        omega
      rw [hb]
      exact decodeLength_short cfg _ rest
  · have h4 : n ≤ 4 := by
      by_contra hn
      have := hmin 4 (by decide) (by omega)
      omega
    exact ⟨longRow n len, longRow_lengthValue h1 h4 hv, by simp [longRow_lengthOctetCount h1 h4],
      decodeLength_long h1 h4 hm hv⟩

theorem decodeLength_wf (h : decodeLength cfg bs = .ok i) : i.wf cfg .length = true := by
  cases bs with
  | nil => cases h
  | cons l0 rest =>
    rcases decodeLength_cases cfg l0 rest with
      ⟨-, e⟩ | ⟨-, e⟩ | ⟨ht, e⟩ | ⟨n, -, ⟨h1, h4, hm⟩, ⟨-, e⟩ | ⟨-, e⟩⟩ <;> cases e.symm.trans h
    · rfl
    · rfl
    · simp [Instr.wf, ht]
    · exact longRow_wf h1 h4 hm

/-- A length whose `n` octets the configuration allows fits. -/
theorem lengthFits_of_lt (h4 : n ≤ 4) (hm : n ≤ cfg.maxLenOctets) (h : len < 0x80 ∨ 1 ≤ n ∧ len < 256 ^ n) :
    lengthFits cfg len = true := by
  have hlt : len < 2 ^ 32 := by
    rcases h with h | ⟨-, h⟩
    · omega
    · exact h.trans_le (Nat.pow_le_pow_right (by decide) h4)
  rw [lengthFits, Bool.and_eq_true, decide_eq_true_eq, Option.isSome_iff_ne_none, Ne, lengthOctets_eq_none]
  refine ⟨fun hnone => ?_, hlt⟩
  rcases h with h | ⟨h1, h⟩
  · omega
  · exact absurd (hnone.2 n h1 hm) (by omega)

/-- The length a decoded row gives can be written again. -/
theorem decodeLength_lengthFits (h : decodeLength cfg bs = .ok li) (hv : li.lengthValue = some len) :
    lengthFits cfg len = true := by
  cases bs with
  | nil => cases h
  | cons l0 rest =>
    rcases decodeLength_cases cfg l0 rest with
      ⟨hs, e⟩ | ⟨-, e⟩ | ⟨-, e⟩ | ⟨n, -, ⟨h1, h4, hm⟩, ⟨-, e⟩ | ⟨hl, e⟩⟩ <;> cases e.symm.trans h
    · obtain rfl := Option.some.inj hv
      exact lengthFits_of_lt (n := 0) (by omega) (by omega) (.inl (BitVec.isLt _))
    · cases hv
    · cases hv
    · have hb := be_lt (rest.take n)
      rw [List.length_take_of_le hl] at hb
      rw [longRow_lengthValue h1 h4 hb] at hv
      exact Option.some.inj hv ▸ lengthFits_of_lt h4 hm (.inr ⟨h1, hb⟩)

/-! ### Elements -/

/-- Each value tag selects its own row where the tags are distinct (R75, D38). -/
theorem valueInstr_valueTag (h : cfg.valueTags.Nodup) (n : Nat) (c : List Byte) :
    valueInstr cfg cfg.tagArray n c = .array n ∧ valueInstr cfg cfg.tagStructure n c = .struct n ∧
      valueInstr cfg cfg.tagBoolean n c = .boolean c ∧ valueInstr cfg cfg.tagBitString n c = .bitString c ∧
      valueInstr cfg cfg.tagInteger n c = .integer c ∧ valueInstr cfg cfg.tagUnsigned n c = .unsigned c ∧
      valueInstr cfg cfg.tagFloat n c = .float c ∧ valueInstr cfg cfg.tagOctetString n c = .octetString c ∧
      valueInstr cfg cfg.tagVisibleString n c = .visibleString c ∧
      valueInstr cfg cfg.tagMmsString n c = .mmsString c ∧ valueInstr cfg cfg.tagUtcTime n c = .utcTime c := by
  simp only [Cfg.valueTags, List.nodup_cons, List.mem_cons, List.not_mem_nil, or_false, not_or] at h
  simp [valueInstr, h, eq_comm]

/-- A tag byte of no row is unknown (R77). -/
theorem valueInstr_unknown (h : tag ∉ cfg.valueTags) (n : Nat) (c : List Byte) :
    valueInstr cfg tag n c = .unknownTag tag c := by
  simp only [Cfg.valueTags, List.mem_cons, List.not_mem_nil, or_false, not_or] at h
  simp [valueInstr, h]

/-- A whole element is read once its length octets are: its content has to be there too, unless it is a header alone. -/
theorem decodeWhole_of_length (hl : decodeLength cfg rest = .ok li) (hv : li.lengthValue = some len) :
    decodeWhole cfg ctx (tag :: rest) =
      if (tagInstr cfg ctx tag len ((rest.drop li.lengthOctetCount).take len)).isHeaderOnly = false ∧
          (rest.drop li.lengthOctetCount).length < len then .error (.tooShort 0)
      else .ok (tagInstr cfg ctx tag len ((rest.drop li.lengthOctetCount).take len)) := by
  simp only [decodeWhole, hl, hv]
  generalize tagInstr cfg ctx tag len ((rest.drop li.lengthOctetCount).take len) = j
  cases j <;> simp [Instr.isHeaderOnly]

/-- What reading a whole element answers (R70): the instruction that its tag, its length and its content select. -/
theorem decodeWhole_eq_ok :
    decodeWhole cfg ctx bs = .ok i ↔ ∃ tag rest li len, bs = tag :: rest ∧ decodeLength cfg rest = .ok li ∧
      li.lengthValue = some len ∧ tagInstr cfg ctx tag len ((rest.drop li.lengthOctetCount).take len) = i ∧
      (i.isHeaderOnly = true ∨ len ≤ (rest.drop li.lengthOctetCount).length) := by
  constructor
  · intro h
    cases bs with
    | nil => cases h
    | cons tag rest =>
      cases hl : decodeLength cfg rest with
      | error e => simp [decodeWhole, hl] at h
      | ok li =>
        cases hv : li.lengthValue with
        | none => simp [decodeWhole, hl, hv] at h
        | some len =>
          rw [decodeWhole_of_length hl hv] at h
          split at h
          · cases h
          · rename_i hc
            obtain rfl := Except.ok.inj h
            rw [not_and, Nat.not_lt, ← Bool.not_eq_true] at hc
            exact ⟨tag, rest, li, len, rfl, hl, hv, rfl, or_iff_not_imp_left.mpr hc⟩
  · rintro ⟨tag, rest, li, len, rfl, hl, hv, rfl, hc⟩
    rw [decodeWhole_of_length hl hv, if_neg]
    rw [not_and, Nat.not_lt, ← Bool.not_eq_true]
    exact or_iff_not_imp_left.mp hc

/-- How an element that stands at a tag position is written: a tag byte that selects it, a length that fits, and its
content, unless it is a header alone. -/
def WritesElement (cfg : Cfg) (ctx : TagContext) (i : Instr) : Prop :=
  ∃ tag len body, encode cfg i = encodeWith cfg tag len body ∧ lengthFits cfg len = true ∧
    (i.isHeaderOnly = true ∨ len = body.length) ∧
    ∀ c, i.isHeaderOnly = true ∨ c = body → tagInstr cfg ctx tag len c = i

theorem WritesElement.content (hf : lengthFits cfg c.length = true)
    (he : encode cfg i = encodeWith cfg tag c.length c) (hk : i.isHeaderOnly = false)
    (ht : tagInstr cfg ctx tag c.length c = i) : WritesElement cfg ctx i :=
  ⟨tag, c.length, c, he, hf, .inr rfl, by rintro d (hd | rfl); exacts [absurd hd (by simp [hk]), ht]⟩

theorem WritesElement.header (hf : lengthFits cfg len = true) (he : encode cfg i = encodeWith cfg tag len [])
    (hk : i.isHeaderOnly = true) (ht : ∀ c, tagInstr cfg ctx tag len c = i) : WritesElement cfg ctx i :=
  ⟨tag, len, [], he, hf, .inl hk, fun c _ => ht c⟩

/-- Being well-formed at a tag is a position and what else the row asks for. -/
theorem wf_at_tag {q : TagContext} {b : Bool} (h : (decide (Position.tag ctx = .tag q) && b) = true) :
    ctx = q ∧ b = true := by
  simpa using h

theorem writesElement_of_wf (hn : cfg.valueTags.Nodup) (h : i.wf cfg (.tag ctx) = true) :
    WritesElement cfg ctx i := by
  have hv := valueInstr_valueTag hn
  cases i with
  | boolean c | bitString c | integer c | unsigned c | float c | octetString c | visibleString c | mmsString c
  | utcTime c =>
    obtain ⟨rfl, hf⟩ := wf_at_tag h
    exact .content hf rfl rfl (by simp only [tagInstr, hv])
  | pduGocbRef t c | pduTimeAllowedToLive t c | pduDatSet t c | pduGoId t c | pduT t c | pduStNum t c | pduSqNum t c
  | pduSimulation t c | pduConfRev t c | pduNdsCom t c | pduNumDatSetEntries t c =>
    obtain ⟨rfl, hf⟩ := wf_at_tag h
    exact .content hf rfl rfl rfl
  | unknownTag t c =>
    rw [Instr.wf, Bool.and_assoc] at h
    obtain ⟨rfl, h⟩ := wf_at_tag h
    obtain ⟨ht, hf⟩ := by simpa using h
    exact .content hf rfl rfl (valueInstr_unknown ht _ _)
  | array n | struct n =>
    obtain ⟨rfl, hf⟩ := wf_at_tag h
    exact .header hf rfl rfl fun c => by simp only [tagInstr, hv]
  | pdu t n | pduAllData t n =>
    obtain ⟨rfl, hf⟩ := wf_at_tag h
    exact .header hf rfl rfl fun c => rfl
  | _ => simp [Instr.wf] at h

/-- A well-formed element is read back from its bytes. -/
theorem decodeWhole_encode (hn : cfg.valueTags.Nodup) (h : i.wf cfg (.tag ctx) = true) :
    ∃ bs, encode cfg i = some bs ∧ ∀ rest, decodeWhole cfg ctx (bs ++ rest) = .ok i := by
  obtain ⟨tag, len, body, he, hf, hlen, hsel⟩ := writesElement_of_wf hn h
  simp only [lengthFits, Bool.and_eq_true, decide_eq_true_eq] at hf
  obtain ⟨hsome, hlt⟩ := hf
  obtain ⟨o, ho⟩ := Option.isSome_iff_exists.mp hsome
  obtain ⟨li, hv, hcount, hdec⟩ := decodeLength_lengthOctets ho hlt
  refine ⟨tag :: (o ++ body), by rw [he, encodeWith, ho]; rfl, fun rest => ?_⟩
  have hdrop : (o ++ (body ++ rest)).drop li.lengthOctetCount = body ++ rest := by
    rw [hcount, List.drop_left]
  refine decodeWhole_eq_ok.mpr ⟨tag, o ++ (body ++ rest), li, len, by simp, hdec _, hv, hsel _ ?_, ?_⟩
  · rw [hdrop]
    exact hlen.imp_right fun hl => List.take_left' hl.symm
  · rw [hdrop, List.length_append]
    exact hlen.imp_right fun hl => by omega

/-- What holds of every value row, and of the unknown one where the tag has no row, holds of what a tag selects. -/
theorem valueInstr_induction {P : Instr → Prop}
    (hrow : ∀ j ∈ [Instr.array len, .struct len, .boolean c, .integer c, .unsigned c, .float c, .octetString c,
      .visibleString c, .mmsString c, .utcTime c, .bitString c], P j)
    (hunknown : tag ∉ cfg.valueTags → P (.unknownTag tag c)) : P (valueInstr cfg tag len c) := by
  unfold valueInstr
  repeat' refine iteInduction (fun _ => hrow _ (by simp)) (fun _ => ?_)
  exact hunknown (by simp_all [Cfg.valueTags])

/-- A tag byte selects an instruction that is well-formed at its position, if its length fits and its content, where
that is a part of it, does too. -/
theorem tagInstr_wf (hf : lengthFits cfg len = true)
    (hc : (tagInstr cfg ctx tag len c).isHeaderOnly = false → lengthFits cfg c.length = true) :
    (tagInstr cfg ctx tag len c).wf cfg (.tag ctx) = true := by
  cases ctx with
  | pdu | allData => simp [tagInstr, Instr.wf, hf]
  | field f =>
    cases f <;> simpa [tagInstr, fieldInstr, Instr.wf] using hc rfl
  | value =>
    revert hc
    refine valueInstr_induction
      (P := fun j => (j.isHeaderOnly = false → lengthFits cfg c.length = true) → j.wf cfg (.tag .value) = true) ?_ ?_
    · simp [Instr.wf, Instr.isHeaderOnly, hf]
    · intro ht
      simp [Instr.wf, Instr.isHeaderOnly, ht]

/-- A whole element that is read is well-formed at its position. -/
theorem decodeWhole_wf (h : decodeWhole cfg ctx bs = .ok i) : i.wf cfg (.tag ctx) = true := by
  obtain ⟨tag, rest, li, len, -, hl, hv, rfl, hc⟩ := decodeWhole_eq_ok.mp h
  have hf := decodeLength_lengthFits hl hv
  refine tagInstr_wf hf fun hk => ?_
  rcases hc with hc | hc
  · cases hk.symm.trans hc
  · rwa [List.length_take_of_le hc]

/-! ### Ethertype words and the trailer -/

/-- The VLAN marker is read back, as the first word only (R203). -/
theorem decodeEthertype_vlan (cfg : Cfg) (tci inner : BitVec 16) (rest : List Byte) :
    decodeEthertype cfg true
        (word16Bytes cfg.ethertypeVlan ++ word16Bytes tci ++ word16Bytes inner ++ rest) =
      .ok (.ethVlanMarker tci inner) := by
  simp only [word16Bytes_eq, List.cons_append, List.nil_append, decodeEthertype, word16_of_bytes, and_self, if_true]

/-- The GOOSE ethertype is read back with its header (R204, R205). -/
theorem decodeEthertype_goose (h : first = true → cfg.ethertypeGoose ≠ cfg.ethertypeVlan) (g : GooseHeader)
    (rest : List Byte) :
    decodeEthertype cfg first
        (word16Bytes cfg.ethertypeGoose ++ word16Bytes g.appid ++ word16Bytes g.length ++ word16Bytes g.reserved1 ++
          word16Bytes g.reserved2 ++ rest) = .ok (.ethGooseEthertype g) := by
  simp only [word16Bytes_eq, List.cons_append, List.nil_append, decodeEthertype, word16_of_bytes,
    if_neg (not_and.mpr h), if_true]

/-- Any other word is read back as other traffic (R204). -/
theorem decodeEthertype_other (hv : first = true → w ≠ cfg.ethertypeVlan) (hg : w ≠ cfg.ethertypeGoose)
    (rest : List Byte) : decodeEthertype cfg first (word16Bytes w ++ rest) = .ok (.ethOtherEthertype w) := by
  simp only [word16Bytes_eq, List.cons_append, List.nil_append, decodeEthertype, word16_of_bytes,
    if_neg (not_and.mpr hv), if_neg hg]

/-- What an ethertype word stands for (R203, R204). -/
theorem decodeEthertype_cases (h : decodeEthertype cfg first bs = .ok i) :
    first = true ∧ (∃ tci inner, i = .ethVlanMarker tci inner) ∨ (∃ g, i = .ethGooseEthertype g) ∨
      ∃ w, (first = true → w ≠ cfg.ethertypeVlan) ∧ w ≠ cfg.ethertypeGoose ∧ i = .ethOtherEthertype w := by
  unfold decodeEthertype at h
  split at h
  · split at h
    · rename_i hv
      split at h
      · exact .inl ⟨hv.1, _, _, (Except.ok.inj h).symm⟩
      · cases h
    · rename_i hv
      split at h
      · split at h
        · exact .inr (.inl ⟨_, (Except.ok.inj h).symm⟩)
        · cases h
      · exact .inr (.inr ⟨_, not_and.mp hv, by assumption, (Except.ok.inj h).symm⟩)
  · cases h

/-- The trailer is read back: the LAN id and the frame size share its second word (R81). -/
theorem decodeTrailer_encode (cfg : Cfg) (seq : BitVec 16) (id : BitVec 4) (size : BitVec 12) (rest : List Byte) :
    decodeTrailer cfg
        (word16Bytes seq ++ word16Bytes (id ++ size) ++ word16Bytes cfg.prpSuffix ++ rest) =
      .ok (.prpTrailer seq id size) := by
  simp only [word16Bytes_eq, List.cons_append, List.nil_append, decodeTrailer, word16_of_bytes, if_true,
    BitVec.extractLsb'_append_eq_left, BitVec.extractLsb'_append_eq_right]

theorem decodeTrailer_wf (h : decodeTrailer cfg bs = .ok i) : i.wf cfg .trailer = true := by
  unfold decodeTrailer at h
  split at h
  · split at h
    · obtain rfl := Except.ok.inj h
      rfl
    · cases h
  · cases h

/-! ### Any position -/

theorem decode_encode (hc : cfg.Valid) {p : Position} (hp : p ≠ .request) (h : i.wf cfg p = true) :
    ∃ bs, encode cfg i = some bs ∧ ∀ rest, decode cfg p (bs ++ rest) = .ok i := by
  obtain ⟨hn, hgv, -⟩ := hc
  cases p with
  | request => exact absurd rfl hp
  | length => exact decodeLength_encode h
  | tag ctx => exact decodeWhole_encode hn h
  | trailer =>
    cases i with
    | prpTrailer seq id size => exact ⟨_, rfl, decodeTrailer_encode cfg seq id size⟩
    | _ => simp [Instr.wf] at h
  | ethertype =>
    cases i with
    | ethVlanMarker tci inner => exact ⟨_, rfl, decodeEthertype_vlan cfg tci inner⟩
    | ethGooseEthertype g => exact ⟨_, rfl, decodeEthertype_goose (fun _ => hgv) g⟩
    | ethOtherEthertype w =>
      obtain ⟨hg, hv⟩ : w ≠ cfg.ethertypeGoose ∧ w ≠ cfg.ethertypeVlan := by simpa [Instr.wf] using h
      exact ⟨_, rfl, decodeEthertype_other (fun _ => hv) hg⟩
    | _ => simp [Instr.wf] at h
  | innerEthertype =>
    cases i with
    | ethGooseEthertype g => exact ⟨_, rfl, decodeEthertype_goose (first := false) nofun g⟩
    | ethOtherEthertype w =>
      have hg : w ≠ cfg.ethertypeGoose := by simpa [Instr.wf] using h
      exact ⟨_, rfl, decodeEthertype_other (first := false) nofun hg⟩
    | _ => simp [Instr.wf] at h

theorem decode_wf {p : Position} (h : decode cfg p bs = .ok i) : i.wf cfg p = true := by
  cases p with
  | request => cases h
  | length => exact decodeLength_wf h
  | tag ctx => exact decodeWhole_wf h
  | trailer => exact decodeTrailer_wf h
  | ethertype =>
    rcases decodeEthertype_cases (first := true) h with ⟨-, tci, inner, rfl⟩ | ⟨g, rfl⟩ | ⟨w, hv, hg, rfl⟩
    · rfl
    · rfl
    · simp [Instr.wf, hv, hg]
  | innerEthertype =>
    rcases decodeEthertype_cases (first := false) h with ⟨hf, -⟩ | ⟨g, rfl⟩ | ⟨w, -, hg, rfl⟩
    · cases hf
    · rfl
    · simp [Instr.wf, hg]

end

/-! ### The step that runs what is decoded -/

section
variable {s : State} {i li : Instr} {n : Nat} {c : List Byte} {ctx : TagContext} {r : ErrorReason} {p : Nat}

/-- At a position other than a tag the step runs the instruction that the bytes there decode to. -/
theorem step_of_decode {q : Position} {a : Nat} (hp : s.work.phase ≠ .idle) (hf : fetch s = fetchAt s q a s.work.pos)
    (hd : decode s.cfg q (bytesFrom s.buf a) = .ok i) : step s = exec i s :=
  step_of_fetch hp (hf.trans (fetchAt_eq_ok.mpr hd))

theorem step_at_header (hp : s.work.phase = .header ctx)
    (hd : decode s.cfg .length (bytesFrom s.buf (s.work.pos + 1)) = .ok i) : step s = exec i s :=
  step_of_decode (by simp [hp]) (by simp only [fetch, hp]) hd

/-- At a tag the step runs the instruction that the held header and the content select. -/
theorem step_at_tag (hp : s.work.phase = .tag ctx) (hc : memRead s.buf s.work.pos s.work.len = .ok c) :
    step s = exec (tagInstr s.cfg ctx s.work.tag s.work.len c) s :=
  step_of_fetch (by simp [hp]) (by simp only [fetch, hp, hc]; rfl)

/-- A length row that gives a length holds the header, which is the tag byte and its octets. -/
theorem exec_lengthRow (hv : li.lengthValue = some n) :
    exec li s = commit s (latchHeader (1 + li.lengthOctetCount) n s) := by
  cases li with
  | lenShort | lenLong1 | lenLong2 | lenLong3 | lenLong4 => cases hv; rfl
  | _ => cases hv

/-- After the length row of an element, the held header and the content select the element's instruction. -/
theorem step_of_held_header {t : State} (hp : s.work.phase = .header ctx) (he : s.work.entry ≠ .tagLength)
    (hd : decode s.cfg (.tag ctx) (bytesFrom s.buf s.work.pos) = .ok i) (hs : step s = .next t)
    (ht : t.work.phase = .tag ctx) : step t = exec i t := by
  obtain ⟨tag, rest, li, len, hbytes, hl, hv, rfl, -⟩ := decodeWhole_eq_ok.mp hd
  have hlt : s.work.pos < s.buf.len := by
    by_contra hge
    rw [bytesFrom_of_le (by omega)] at hbytes
    cases hbytes
  rw [bytesFrom_cons hlt, List.cons.injEq] at hbytes
  obtain ⟨rfl, rfl⟩ := hbytes
  rw [step_at_header hp hl, exec_lengthRow hv] at hs
  rcases commit_eq_next.mp hs with hs | ⟨e, -, rfl⟩
  · obtain ⟨hin, tag, htag, ⟨hlone, -⟩ | ⟨-, rfl⟩⟩ := latchHeader_eq_ok hs
    · exact absurd hlone he
    obtain ⟨-, rfl⟩ := memByte?_eq_some.mp htag
    have hread := memRead_of_le hin
    rw [step_at_tag ht hread, bytesFrom_drop, Nat.add_assoc, bytesFrom_take hread]
  · cases ht

/-! ### Content and lengths that raise -/

/-- Where the content's decoder raises, the transaction ends with its error. -/
theorem commit_bind_of_raise {α : Type} {dec : Codec α} {f : α → Codec State} (h : dec = raise r p) :
    commit s (dec >>= f) = .next (s.failed r p) := by
  rw [h]; rfl

theorem decUnsigned_oversize (h : c.length = 5 ∧ c.headD 0#8 ≠ 0x00#8 ∨ 6 ≤ c.length) :
    decUnsigned p c = raise .oversizeUnsigned p := by
  rcases decUnsigned_cases p c with ⟨h', -⟩ | ⟨-, e⟩ | ⟨h', -⟩ | ⟨h', -⟩ | ⟨-, h', -⟩ | ⟨h', hz, -⟩
  · omega
  · exact e
  · omega
  · omega
  · omega
  · rcases h with ⟨-, hnz⟩ | h
    · exact absurd hz hnz
    · omega

theorem decUtcTime_unsupported (h : c.length ≠ 8) : decUtcTime p c = raise .unsupportedWidth p := by
  rw [decUtcTime, decTime, if_pos h]; rfl

theorem decBitString_padding {b : Byte} (h : 7 < b.toNat) (bits : List Byte) :
    decBitString p (b :: bits) = raise .invalidBitStringPadding p := by
  rw [decBitString, if_neg (by simp), List.headD_cons, if_pos h]

/-- R73 in DECODE_TAG_LENGTH: the first length octet is the indefinite form, or asks for too many octets. -/
theorem decodeTagLength_malformed {cfg : Cfg} {m : Memory} {tag l0 : Byte} (hm : memRead m p 2 = .ok [tag, l0])
    (h : l0.toNat = 0x80 ∨ 0x80 + cfg.maxLenOctets < l0.toNat) :
    decodeTagLength cfg m p = raise .malformedLength p := by
  obtain ⟨hlen, hcells⟩ := memRead_eq_ok.mp hm
  simp only [List.range'_succ, List.range'_zero, List.map_cons, List.map_nil, List.cons.injEq, and_true] at hcells
  obtain ⟨-, hl0⟩ := hcells
  rcases decodeTagLength_cases cfg m p with ⟨hlt, -⟩ | ⟨tag', l0', -, hl0', hforms⟩
  · omega
  obtain ⟨-, rfl⟩ := memByte?_eq_some.mp hl0'
  rw [← hl0] at hforms
  rcases hforms with ⟨hlt, -⟩ | ⟨-, -, e⟩ | ⟨hgt, hle, -⟩
  · omega
  · exact e
  · omega

theorem exec_lenMalformedTooLong {first : Byte} (h : 0x80 + s.cfg.maxLenOctets < first.toNat) :
    exec (.lenMalformedTooLong first) s = .next (s.failed .malformedLength s.work.pos) := by
  change execLenMalformedTooLong first s = _
  rw [execLenMalformedTooLong, if_pos (.inr h), commit_raise]

end

end Sys2Proof.Machine

open Sys2Proof Sys2Proof.Machine

/-- Settles O2: each position has one layout of bytes, and `decode_encode` reads it back. -/
theorem decodeInvertsEncode : Obligations.DecodeInvertsEncode := fun _ _ _ hc hp h => decode_encode hc hp h

/-- Settles O3, by the cases of what the decoder answers at each position. -/
theorem decodedInstructionsAreWellFormed : Obligations.DecodedInstructionsAreWellFormed := fun _ _ _ _ h => decode_wf h

/-- Settles O16: each illegal content makes its decoder raise at the tag byte. -/
theorem illegalContentRaises : Obligations.IllegalContentRaises :=
  ⟨fun s c h => commit_bind_of_raise (dec := decBoolean s.work.tagPos c) (if_pos h),
    fun s c h => commit_bind_of_raise (dec := decSigned s.work.tagPos c) (if_pos h),
    fun _ => rfl,
    fun s c h => commit_bind_of_raise (dec := decUnsigned s.work.tagPos c) (decUnsigned_oversize h),
    fun s c h5 h9 => commit_bind_of_raise (dec := decFloat s.work.tagPos c) ((if_neg h5).trans (if_neg h9)),
    fun s c h => commit_bind_of_raise (dec := decUtcTime s.work.tagPos c) (decUtcTime_unsupported h),
    fun _ => rfl,
    fun s b bits h => commit_bind_of_raise (dec := decBitString s.work.tagPos (b :: bits)) (decBitString_padding h bits),
    fun _ _ _ => rfl⟩

/-- Settles O47: a length row that does not end the transaction holds the header its element has. -/
theorem heldHeaderIsTheElement : Obligations.HeldHeaderIsTheElement :=
  fun _ _ _ _ hp he hd hs ht => step_of_held_header hp he hd hs ht

/-- Settles O1, by running the decoder on each word. -/
theorem decodeReadsWrittenWords : Obligations.DecodeReadsWrittenWords :=
  ⟨rfl, rfl, rfl, by decide, rfl, rfl⟩

/-- Settles O9: with four octets allowed, 0x85 is the first octet that asks for too many. -/
theorem malformedLengthsRaise : Obligations.MalformedLengthsRaise := by
  intro s h4
  refine ⟨rfl, fun first h => exec_lenMalformedTooLong (by omega), fun pos tag first hm h => ?_⟩
  exact decodeTagLength_malformed hm (h.imp_right fun h => by omega)

/-- Settles O46: between transactions the first request is taken, within one the fetched instruction is run. -/
theorem stepRunsTheDecodedInstruction : Obligations.StepRunsTheDecodedInstruction := by
  intro s i
  refine ⟨fun hp => step_of_decode (by simp [hp]) (by simp only [fetch, hp]),
    fun hp => step_of_decode (by simp [hp]) (by simp only [fetch, hp]),
    fun hp => step_of_decode (by simp [hp]) (by simp only [fetch, hp]),
    fun ctx => step_at_header, fun ctx c => step_at_tag, fun r rs hp hr hi => ?_⟩
  cases r with
  | encode | decode => cases hi; simp only [step, hp, hr]
  | expose => cases hi

end

section
/-! SUPPORT. What DECODE_TAG_LENGTH answers for each form of a length, the smallest form ENCODE_LENGTH writes, and the
obligations of 40_tlv_primitives.md about headers. -/

namespace Sys2Proof.Machine

section
variable {cfg : Cfg} {m : Memory} {pos len n : Nat} {tag l0 b : Byte} {o c : List Byte} {s : State}

/-! ### ENCODE_LENGTH -/

theorem lenOctets_of_some (h : lengthOctets cfg len = some o) : lenOctets cfg len = o.length := by
  rw [lenOctets, h, Option.getD_some]

/-- A length without octets is more than `MAX_LEN_OCTETS` of them hold. -/
theorem pow_le_of_lengthOctets_none (h : lengthOctets cfg len = none) : 256 ^ cfg.maxLenOctets ≤ len := by
  obtain ⟨hlong, hall⟩ := lengthOctets_eq_none.mp h
  rcases Nat.eq_zero_or_pos cfg.maxLenOctets with h0 | h1
  · rw [h0]; omega
  · exact hall _ h1 le_rfl

/-- A length that `MAX_LEN_OCTETS` octets hold has octets. -/
theorem lengthOctets_of_lt (h : len < 256 ^ cfg.maxLenOctets) : ∃ o, lengthOctets cfg len = some o :=
  Option.ne_none_iff_exists'.mp fun hnone => absurd (pow_le_of_lengthOctets_none hnone) (by omega)

/-- A length that not even `MAX_LEN_OCTETS` octets hold has none. -/
theorem lengthOctets_of_le (hlong : 0x80 ≤ len) (h : 256 ^ cfg.maxLenOctets ≤ len) : lengthOctets cfg len = none :=
  lengthOctets_eq_none.mpr ⟨hlong, fun _ _ hn => (Nat.pow_le_pow_right (by decide) hn).trans h⟩

/-! ### DECODE_TAG_LENGTH -/

/-- A read is its first byte and the read of the rest. -/
theorem memRead_cons :
    memRead m pos (n + 1) = .ok (b :: c) ↔ memByte? m pos = some b ∧ memRead m (pos + 1) n = .ok c := by
  rw [memRead_eq_ok, memRead_eq_ok, memByte?_eq_some, List.range'_succ, List.map_cons, List.cons.injEq]
  constructor
  · rintro ⟨hle, rfl, rfl⟩
    exact ⟨⟨by omega, rfl⟩, by omega, rfl⟩
  · rintro ⟨⟨-, rfl⟩, hle, rfl⟩
    exact ⟨by omega, rfl, rfl⟩

theorem decodeTagLength_short (ht : memByte? m pos = some tag) (hl : memByte? m (pos + 1) = some l0)
    (hs : l0.toNat < 0x80) (hin : pos + 2 + l0.toNat ≤ m.len) :
    decodeTagLength cfg m pos = .ok (tag, l0.toNat, pos + 2) := by
  rcases decodeTagLength_cases cfg m pos with ⟨h, -⟩ | ⟨tag', l0', ht', hl', hforms⟩
  · omega
  obtain rfl := Option.some.inj (ht'.symm.trans ht)
  obtain rfl := Option.some.inj (hl'.symm.trans hl)
  rcases hforms with ⟨-, e⟩ | ⟨-, h, -⟩ | ⟨h, -⟩
  · rw [e]
    exact bind_eq_ok.mpr ⟨(), contentInBuffer_eq_ok.mpr hin, rfl⟩
  · omega
  · omega

theorem decodeTagLength_long (ht : memByte? m pos = some tag) (hl : memByte? m (pos + 1) = some l0)
    (hn : l0.toNat = 0x80 + n) (h1 : 1 ≤ n) (hmax : n ≤ cfg.maxLenOctets) (ho : memRead m (pos + 2) n = .ok o)
    (hin : pos + (2 + n) + be o ≤ m.len) :
    decodeTagLength cfg m pos = .ok (tag, be o, pos + (2 + n)) := by
  rcases decodeTagLength_cases cfg m pos with ⟨h, -⟩ | ⟨tag', l0', ht', hl', hforms⟩
  · omega
  obtain rfl := Option.some.inj (ht'.symm.trans ht)
  obtain rfl := Option.some.inj (hl'.symm.trans hl)
  have hlong : longLength m pos n = .ok (be o) := by
    rcases longLength_cases m pos n with ⟨h, -⟩ | ⟨o', ho', e⟩
    · omega
    · rwa [Except.ok.inj (ho'.symm.trans ho)] at e
  rcases hforms with ⟨h, -⟩ | ⟨h, -⟩ | ⟨-, -, e⟩
  · omega
  · omega
  rw [e, show l0'.toNat - 0x80 = n by omega]
  exact bind_eq_ok.mpr ⟨_, hlong, bind_eq_ok.mpr ⟨(), contentInBuffer_eq_ok.mpr hin, rfl⟩⟩

/-- DECODE_TAG_LENGTH reads a tag and the octets of a length back. -/
theorem decodeTagLength_lengthOctets (hmax : cfg.maxLenOctets ≤ 127) (ho : lengthOctets cfg len = some o)
    (hm : memRead m pos (o.length + 1) = .ok (tag :: o)) (hin : pos + 1 + o.length + len ≤ m.len) :
    decodeTagLength cfg m pos = .ok (tag, len, pos + 1 + o.length) := by
  obtain ⟨htag, hoct⟩ := memRead_cons.mp hm
  rcases lengthOctets_eq_some ho with ⟨hs, rfl⟩ | ⟨-, n, h1, hn, hlt, -, rfl⟩
  · obtain ⟨hl0, -⟩ := memRead_cons.mp hoct
    have hv : (BitVec.ofNat 8 len).toNat = len := by rw [BitVec.toNat_ofNat, Nat.mod_eq_of_lt (by omega)]
    have hd := decodeTagLength_short (cfg := cfg) htag hl0 (by omega) (by rw [hv]; exact hin)
    rwa [hv] at hd
  · obtain ⟨hl0, hrest⟩ := memRead_cons.mp hoct
    rw [bytesBE_length] at hrest
    have hv : (BitVec.ofNat 8 (0x80 + n)).toNat = 0x80 + n := by rw [BitVec.toNat_ofNat, Nat.mod_eq_of_lt (by omega)]
    have hb : be (bytesBE len n) = len := be_bytesBE_of_lt hlt
    have hpos : pos + 1 + (BitVec.ofNat 8 (0x80 + n) :: bytesBE len n).length = pos + (2 + n) := by
      rw [List.length_cons, bytesBE_length]; omega
    rw [hpos] at hin ⊢
    have hd := decodeTagLength_long htag hl0 hv h1 hn hrest (by rwa [hb])
    rwa [hb] at hd

/-! ### Length rows -/

/-- A length row whose content lies in the buffer holds the header. -/
theorem commit_latchHeader_of_le {ctx : TagContext} {hdr : Nat} (hp : s.work.phase = .header ctx)
    (he : s.work.entry ≠ .tagLength) (ht : memByte? s.buf s.work.pos = some tag)
    (h : s.work.pos + hdr + n ≤ s.buf.len) : commit s (latchHeader hdr n s) = .next (s.headed ctx tag hdr n) := by
  rw [latchHeader_of_le h hp he ht, commit_ok]

/-- A length row whose content would run past the buffer's end raises BufferTooShort at the tag byte. -/
theorem commit_latchHeader_of_lt {hdr : Nat} (h : s.buf.len < s.work.pos + hdr + n) :
    commit s (latchHeader hdr n s) = .next (s.failed .bufferTooShort s.work.pos) := by
  rw [latchHeader_of_lt h, commit_raise]

end

end Sys2Proof.Machine

open Sys2Proof Sys2Proof.Machine

/-- Settles O4, by the cases of `lengthOctets`: four octets hold exactly the lengths below 2^32. -/
theorem encodeLengthIsShortest : Obligations.EncodeLengthIsShortest := by
  intro cfg start len h4
  have hpow : 256 ^ cfg.maxLenOctets = 2 ^ 32 := by rw [h4]; rfl
  refine ⟨fun hs => ?_, fun hlong hlt => ?_, fun hover => ?_⟩
  · have ho : lengthOctets cfg len = some [BitVec.ofNat 8 len] := if_pos hs
    exact ⟨encodeLength_eq_ok.mpr ho, lenOctets_of_some ho⟩
  · obtain ⟨o, ho⟩ := lengthOctets_of_lt (hpow ▸ hlt)
    rcases lengthOctets_eq_some ho with ⟨hs, -⟩ | ⟨-, n, h1, hn, hfit, hmin, rfl⟩
    · omega
    · refine ⟨n, h1, h4 ▸ hn, hfit, hmin, encodeLength_eq_ok.mpr ho, ?_⟩
      rw [lenOctets_of_some ho, List.length_cons, bytesBE_length, Nat.add_comm]
  · exact encodeLength_eq_error.mpr ⟨lengthOctets_of_le (by omega) (hpow ▸ hover), rfl⟩

/-- Settles O5: the octets name their own form, which is read back. -/
theorem tagLengthReadsEncodedLength : Obligations.TagLengthReadsEncodedLength := by
  intro cfg m pos len start tag o hc ho hm hin
  obtain ⟨-, -, -, -, hmax, -⟩ := hc
  exact decodeTagLength_lengthOctets hmax (encodeLength_eq_ok.mp ho) (Nat.add_comm 1 o.length ▸ hm) hin

/-- Settles O6: each row is `latchHeader` with its form's header length. -/
theorem lengthRowsHoldTheHeader : Obligations.LengthRowsHoldTheHeader := fun _ _ _ hp he ht =>
  ⟨fun _ => commit_latchHeader_of_le hp he ht, fun _ => commit_latchHeader_of_le hp he ht,
    fun _ => commit_latchHeader_of_le hp he ht, fun _ => commit_latchHeader_of_le hp he ht,
    fun _ => commit_latchHeader_of_le hp he ht⟩

/-- Settles O8: each row is `latchHeader` with its form's header length. -/
theorem lengthRowsStopAtTheBufferEnd : Obligations.LengthRowsStopAtTheBufferEnd := fun _ =>
  ⟨fun _ => commit_latchHeader_of_lt, fun _ => commit_latchHeader_of_lt, fun _ => commit_latchHeader_of_lt,
    fun _ => commit_latchHeader_of_lt, fun _ => commit_latchHeader_of_lt⟩

end

section
/-! SUPPORT. The sizes R158 and R183 compute are the lengths of what is written, a length without octets makes a size
that large, and the obligation about ENCODE's answer that rests on it. -/

namespace Sys2Proof.Machine

/-- The encoder `x` at `start` either writes `n` bytes, or raises LengthOverflow because a length has no octets, and
then `n` is at least the smallest such length. -/
def WritesSize (cfg : Cfg) (start n : Nat) (x : Codec (List Byte)) : Prop :=
  (∃ bs, x = .ok bs ∧ bs.length = n) ∨ x = raise .lengthOverflow start ∧ 256 ^ cfg.maxLenOctets ≤ n

section
variable {cfg : Cfg} {start n total : Nat} {x : Codec (List Byte)} {f : List Byte → Codec (List Byte)}

/-! ### Parts of an encoding -/

theorem WritesSize.ok (bs : List Byte) (h : bs.length = n) : WritesSize cfg start n (.ok bs) := .inl ⟨bs, rfl, h⟩

/-- An encoder whose first part is `n` of its bytes. -/
theorem WritesSize.bind (hx : WritesSize cfg start n x) (hn : n ≤ total)
    (hf : ∀ bs, bs.length = n → WritesSize cfg start total (f bs)) : WritesSize cfg start total (x >>= f) := by
  rcases hx with ⟨bs, rfl, hl⟩ | ⟨rfl, hp⟩
  · exact hf bs hl
  · exact .inr ⟨rfl, hp.trans hn⟩

theorem le_tlvSize (cfg : Cfg) (len : Nat) : len ≤ tlvSize cfg len := by
  rw [tlvSize]; omega

/-- ENCODE_TLV writes `tlvSize` bytes (R103). -/
theorem encodeTlv_writesSize (tag : Byte) {c : List Byte} (hc : c.length = n) :
    WritesSize cfg start (tlvSize cfg n) (encodeTlv cfg start tag c) := by
  subst hc
  cases ho : lengthOctets cfg c.length with
  | some o =>
    have he := encodeTlv_eq_ok (start := start) (tag := tag).mpr ⟨o, ho, rfl⟩
    exact .inl ⟨_, he, encodeTlv_length he⟩
  | none =>
    exact .inr ⟨encodeTlv_eq_error.mpr ⟨ho, rfl⟩, (pow_le_of_lengthOctets_none ho).trans (le_tlvSize _ _)⟩

/-- A container writes its elements behind its header. -/
theorem WritesSize.tlv (hx : WritesSize cfg start n x) (tag : Byte) :
    WritesSize cfg start (tlvSize cfg n) (x >>= encodeTlv cfg start tag) :=
  hx.bind (le_tlvSize _ _) fun _ hl => encodeTlv_writesSize tag hl

/-! ### Values and the PDU -/

mutual
/-- ENCODE_VALUE writes `valueSize` bytes (R158). -/
theorem encodeValue_writesSize : ∀ x : Value, WritesSize cfg start (valueSize cfg x) (encodeValue cfg start x)
  | .array xs | .struct xs => (encodeValues_writesSize xs).tlv _
  | .boolean _ | .int8 _ | .int16 _ | .int32 _ | .int64 _ | .uint8 _ | .uint16 _ | .uint32 _ | .float32 _ | .float64 _
  | .octetString _ | .visibleString _ | .mmsString _ | .utcTime _ => encodeTlv_writesSize _ (by simp)
  | .bitString _ b => encodeTlv_writesSize _ (by simp [Nat.add_comm])
theorem encodeValues_writesSize : ∀ xs : Values, WritesSize cfg start (valuesSize cfg xs) (encodeValues cfg start xs)
  | .nil => .ok [] rfl
  | .cons x xs =>
    (encodeValue_writesSize x).bind (Nat.le_add_right _ _) fun a ha =>
      (encodeValues_writesSize xs).bind (Nat.le_add_left _ _) fun b hb =>
        .ok (a ++ b) (by rw [List.length_append, ha, hb]; rfl)
end

/-- The twelve elements of the PDU take the sum of their sizes (R183). -/
theorem encodePduBody_writesSize (d : GoosePdu) :
    WritesSize cfg start
      (tlvSize cfg d.gocbRef.length + tlvSize cfg (unsignedWidth d.timeAllowedToLive.toNat) +
        tlvSize cfg d.datSet.length + tlvSize cfg d.goID.length + tlvSize cfg 8 +
        tlvSize cfg (unsignedWidth d.stNum.toNat) + tlvSize cfg (unsignedWidth d.sqNum.toNat) + tlvSize cfg 1 +
        tlvSize cfg (unsignedWidth d.confRev.toNat) + tlvSize cfg 1 +
        tlvSize cfg (unsignedWidth d.allData.length) + tlvSize cfg (valuesSize cfg (Values.ofList d.allData)))
      (encodePduBody cfg start d) :=
  .bind (encodeTlv_writesSize _ (n := d.gocbRef.length) rfl) (by omega) fun f1 h1 =>
  .bind (encodeTlv_writesSize _ (encUnsigned_length _)) (by omega) fun f2 h2 =>
  .bind (encodeTlv_writesSize _ (n := d.datSet.length) rfl) (by omega) fun f3 h3 =>
  .bind (encodeTlv_writesSize _ (n := d.goID.length) rfl) (by omega) fun f4 h4 =>
  .bind (encodeTlv_writesSize _ (encUtcTime_length _)) (by omega) fun f5 h5 =>
  .bind (encodeTlv_writesSize _ (encUnsigned_length _)) (by omega) fun f6 h6 =>
  .bind (encodeTlv_writesSize _ (encUnsigned_length _)) (by omega) fun f7 h7 =>
  .bind (encodeTlv_writesSize _ (encBoolean_length _ _)) (by omega) fun f8 h8 =>
  .bind (encodeTlv_writesSize _ (encUnsigned_length _)) (by omega) fun f9 h9 =>
  .bind (encodeTlv_writesSize _ (encBoolean_length _ _)) (by omega) fun f10 h10 =>
  .bind (encodeTlv_writesSize _ (encUnsigned_length _)) (by omega) fun f11 h11 =>
  .bind (encodeValues_writesSize _) ((le_tlvSize cfg _).trans (by omega)) fun _ hxs =>
  .bind (encodeTlv_writesSize _ hxs) (by omega) fun f12 h12 =>
  .ok _ (by simp only [List.length_append, h1, h2, h3, h4, h5, h6, h7, h8, h9, h10, h11, h12])

/-- ENCODE_PDU writes `pduSize` bytes (R183). -/
theorem encodePdu_writesSize (d : GoosePdu) : WritesSize cfg start (pduSize cfg d) (encodePdu cfg start d) :=
  (encodePduBody_writesSize d).tlv _

/-- Where two length octets are allowed, a PDU that fits the GOOSE length encodes (R72, R217). -/
theorem encodePdu_eq_ok_of_le {d : GoosePdu} (h2 : 2 ≤ cfg.maxLenOctets) (h : pduSize cfg d ≤ 0xFFFF) :
    ∃ p, encodePdu cfg start d = .ok p := by
  rcases encodePdu_writesSize (start := start) d with ⟨p, hp, -⟩ | ⟨-, hbig⟩
  · exact ⟨p, hp⟩
  · have : 256 ^ 2 ≤ 256 ^ cfg.maxLenOctets := Nat.pow_le_pow_right (by decide) h2
    omega

end

/-! ### The frame -/

section
variable {cfg : Cfg} {start : Nat} {k : GoosePacket} {p f : List Byte} {s : State} {hand : Option Memory} {m : Memory}

/-- The length of a frame around a PDU's bytes (R211 to R215). -/
theorem frameBytes_length (cfg : Cfg) (k : GoosePacket) (p : List Byte) :
    (frameBytes cfg k p).length =
      14 + (if k.eth.vlan.isSome then 4 else 0) + 8 + p.length + (if k.prp.isSome then 6 else 0) := by
  rw [frameBytes]
  cases k.eth.vlan <;> cases k.prp <;> simp <;> omega

/-- A size does not fit its field: the GOOSE length has 16 bits, the PRP size 12 (R217). -/
def Overflows (k : GoosePacket) (pl : Nat) : Prop := 0xFFFF < pl + 8 ∨ k.prp.isSome ∧ 0x0FFF < 8 + pl + 6

/-- A PDU without an encoding is a LengthOverflow of the frame (R102, R210). -/
theorem encodeFrame_of_pdu_error {e : Stop} (h : encodePdu cfg start k.pdu = .error e) :
    encodeFrame cfg k start = raise .lengthOverflow start := by
  rcases encodePdu_writesSize (cfg := cfg) (start := start) k.pdu with ⟨p, hp, -⟩ | ⟨hr, -⟩
  · cases hp.symm.trans h
  · rw [encodeFrame, hr]; rfl

theorem encodeFrame_of_overflows (h : encodePdu cfg start k.pdu = .ok p) (ho : Overflows k p.length) :
    encodeFrame cfg k start = raise .lengthOverflow start := by
  rw [encodeFrame, h]
  by_cases h16 : 0xFFFF < p.length + 8
  · exact if_pos h16
  · exact (if_neg h16).trans (if_pos (ho.resolve_left h16))

theorem encodeFrame_of_fits (h : encodePdu cfg start k.pdu = .ok p) (hf : ¬ Overflows k p.length) :
    encodeFrame cfg k start = .ok (frameBytes cfg k p) := by
  obtain ⟨h16, h12⟩ := not_or.mp hf
  rw [encodeFrame, h]
  exact (if_neg h16).trans (if_neg h12)

/-! ### ENCODE between transactions -/

theorem exec_encode_of_raise {r : ErrorReason} (hp : s.work.phase = .idle)
    (h : encodeInto s.cfg (handOver hand s).buf k start = raise r start) :
    exec (.encode k hand start) s =
      .next (endTransaction (.encode (.error ⟨r, start⟩)) (handOver hand s)) := by
  change execEncode k hand start s = _
  simp only [execEncode, hp, h, raise]

/-- A frame that is not computed is not written. -/
theorem exec_encode_of_frame_raise {r : ErrorReason} (hp : s.work.phase = .idle)
    (h : encodeFrame s.cfg k start = raise r start) :
    exec (.encode k hand start) s =
      .next (endTransaction (.encode (.error ⟨r, start⟩)) (handOver hand s)) :=
  exec_encode_of_raise hp (by rw [encodeInto, h]; rfl)

/-- A frame that does not fit the buffer is not written (R216). -/
theorem exec_encode_of_lt (hp : s.work.phase = .idle) (h : encodeFrame s.cfg k start = .ok f)
    (hlt : (handOver hand s).buf.len < start + f.length) :
    exec (.encode k hand start) s =
      .next (endTransaction (.encode (.error ⟨.bufferTooSmall, start⟩)) (handOver hand s)) :=
  exec_encode_of_raise hp (by rw [encodeInto, h]; exact if_pos hlt)

/-- A frame that fits is written, and its length answered (R243). -/
theorem exec_encode_of_le (hp : s.work.phase = .idle) (h : encodeFrame s.cfg k start = .ok f)
    (hle : start + f.length ≤ (handOver hand s).buf.len) :
    ∃ m, memWrite (handOver hand s).buf start f = .ok m ∧ exec (.encode k hand start) s =
      .next (endTransaction (.encode (.ok f.length)) { handOver hand s with buf := m }) := by
  obtain ⟨m, hw⟩ : ∃ m, memWrite (handOver hand s).buf start f = .ok m := ⟨_, memWrite_of_le hle⟩
  have hi : encodeInto s.cfg (handOver hand s).buf k start = .ok (m, f.length) := by
    rw [encodeInto, h]
    exact (if_neg (by omega)).trans (by rw [hw]; rfl)
  refine ⟨m, hw, ?_⟩
  change execEncode k hand start s = _
  simp only [execEncode, hp, hi]

end

end Sys2Proof.Machine

open Sys2Proof Sys2Proof.Machine

/-- Settles O36: a PDU that encodes has `pduSize` bytes, and one that does not is larger than any field allows unless
only one length octet is allowed. -/
theorem encodeAnswersBySize : Obligations.EncodeAnswersBySize := by
  intro s k hand start hp hc
  obtain ⟨-, -, -, hmax, -⟩ := hc
  refine ⟨fun hover => ?_, fun _ ⟨e, he⟩ => exec_encode_of_frame_raise hp (encodeFrame_of_pdu_error he),
    fun hone h16 h12 => ?_⟩
  · refine exec_encode_of_frame_raise hp ?_
    rcases encodePdu_writesSize (cfg := s.cfg) (start := start) k.pdu with ⟨p, hpdu, hl⟩ | ⟨he, -⟩
    · exact encodeFrame_of_overflows hpdu (hl ▸ hover)
    · exact encodeFrame_of_pdu_error he
  · obtain ⟨p, hpdu⟩ : ∃ p, encodePdu s.cfg start k.pdu = .ok p := by
      by_cases h1 : s.cfg.maxLenOctets = 1
      · exact hone h1
      · exact encodePdu_eq_ok_of_le (by omega) (by omega)
    have hl : p.length = pduSize s.cfg k.pdu := by
      rcases encodePdu_writesSize (cfg := s.cfg) (start := start) k.pdu with ⟨p', hp', hl⟩ | ⟨he, -⟩
      · rwa [Except.ok.inj (hpdu.symm.trans hp')]
      · cases he.symm.trans hpdu
    have hfits : ¬ Overflows k p.length := by
      rw [hl]
      rintro (h | ⟨hs, h⟩)
      · omega
      · have := h12 hs
        omega
    have hf := encodeFrame_of_fits hpdu hfits
    have hn := frameBytes_length s.cfg k p
    rw [hl] at hn
    refine ⟨fun hlt => exec_encode_of_lt hp hf (hn ▸ hlt), fun hle => ?_⟩
    obtain ⟨m, hm, hx⟩ := exec_encode_of_le (hand := hand) hp hf (hn ▸ hle)
    exact ⟨_, m, hf, hn, hm, hn ▸ hx⟩

end

section
/-! SUPPORT. Two's complement and magnitudes in their minimal widths, the variants the decoders make of them, and the
obligations of 40_tlv_primitives.md about numbers and float patterns. -/

namespace Sys2Proof.Machine

section
variable {c : List Byte} {v : Int} {n u p : Nat}

/-! ### Two's complement -/

/-- `n` bytes hold `v` in two's complement (R112). -/
def SignedFits (n : Nat) (v : Int) : Prop := -(2 ^ (8 * n - 1)) ≤ v ∧ v < 2 ^ (8 * n - 1)

theorem two_pow_sign_bit (k : Nat) : 2 ^ (8 * (k + 1) - 1) = 128 * 256 ^ k := by
  rw [show 8 * (k + 1) - 1 = 7 + 8 * k by omega, pow_add, pow_mul]
  norm_num

theorem signedFits_succ : SignedFits (n + 1) v ↔ -((128 * 256 ^ n : Nat) : Int) ≤ v ∧ v < (128 * 256 ^ n : Nat) := by
  rw [SignedFits, ← two_pow_sign_bit]
  push_cast
  rfl

/-- The sign bit is the first byte's top bit. -/
theorem sign_bit_iff (b : Byte) (bs : List Byte) : 0x80 ≤ b.toNat ↔ 128 * 256 ^ bs.length ≤ be (b :: bs) := by
  have hlt := be_lt bs
  rw [be_cons]
  constructor <;> intro h
  · exact (Nat.mul_le_mul_right _ h).trans (Nat.le_add_right _ _)
  · by_contra hb
    have : b.toNat * 256 ^ bs.length ≤ 127 * 256 ^ bs.length := Nat.mul_le_mul_right _ (by omega)
    omega

/-- Sign extension by the number the bytes are: from the sign bit on it is below zero (R9). -/
theorem sext_eq (hc : c.length = n + 1) :
    sext c = if 128 * 256 ^ n ≤ be c then (be c : Int) - (256 * 256 ^ n : Nat) else be c := by
  cases c with
  | nil => cases hc
  | cons b bs =>
    obtain rfl : bs.length = n := by simpa using hc
    rw [sext, List.headD_cons, List.length_cons, pow_succ, Nat.mul_comm (256 ^ bs.length)]
    exact if_congr (sign_bit_iff b bs) rfl rfl

/-- What a byte string holds fits its bytes. -/
theorem sext_fits (hc : 1 ≤ c.length) : SignedFits c.length (sext c) := by
  obtain ⟨n, hn⟩ : ∃ n, c.length = n + 1 := ⟨c.length - 1, by omega⟩
  have hlt := be_lt c
  rw [hn, pow_succ] at hlt
  rw [hn, signedFits_succ, sext_eq hn]
  split <;> omega

/-- Sign extension reads a two's complement back. -/
theorem sext_bytesBE (hn : 1 ≤ n) (h : SignedFits n v) : sext (bytesBE (v % (256 ^ n : Nat)).toNat n) = v := by
  obtain ⟨k, rfl⟩ : ∃ k, n = k + 1 := ⟨n - 1, by omega⟩
  rw [signedFits_succ] at h
  have hpow : 256 ^ (k + 1) = 256 * 256 ^ k := by rw [pow_succ, Nat.mul_comm]
  have hmod : v % (256 ^ (k + 1) : Nat) = if 0 ≤ v then v else v + (256 ^ (k + 1) : Nat) := by
    split
    · exact Int.emod_eq_of_lt (by omega) (by omega)
    · rw [← Int.add_emod_right, Int.emod_eq_of_lt (by omega) (by omega)]
  have hbe : be (bytesBE (v % (256 ^ (k + 1) : Nat)).toNat (k + 1)) = (v % (256 ^ (k + 1) : Nat)).toNat :=
    be_bytesBE_of_lt (by rw [hmod]; split <;> omega)
  rw [sext_eq (bytesBE_length _ _), hbe, hmod]
  split <;> split <;> omega

theorem signedWidth_fits (h1 : -(2 ^ 63) ≤ v) (h2 : v < 2 ^ 63) :
    1 ≤ signedWidth v ∧ signedWidth v ≤ 8 ∧ SignedFits (signedWidth v) v := by
  obtain ⟨hw1, hw8, hlo, hhi⟩ := signedWidth_spec h1 h2
  push_cast at hlo hhi
  exact ⟨hw1, hw8, hlo, by omega⟩

theorem sext_encSigned (h1 : -(2 ^ 63) ≤ v) (h2 : v < 2 ^ 63) : sext (encSigned v) = v := by
  obtain ⟨hw1, -, hfit⟩ := signedWidth_fits h1 h2
  exact sext_bytesBE hw1 hfit

/-! ### The signed variants -/

/-- The signed variant that `n` bytes select (R105), holding `v`. -/
def signedVariant (n : Nat) (v : Int) : Value :=
  if n = 1 then .int8 (BitVec.ofInt 8 v)
  else if n = 2 then .int16 (BitVec.ofInt 16 v)
  else if n ≤ 4 then .int32 (BitVec.ofInt 32 v)
  else .int64 (BitVec.ofInt 64 v)

theorem normSigned_eq (v : Int) : normSigned v = signedVariant (signedWidth v) v := rfl

theorem decSigned_of_legal (h1 : 1 ≤ c.length) (h8 : c.length ≤ 8) :
    decSigned p c = .ok (signedVariant c.length (sext c)) := by
  rw [decSigned, if_neg (by simp only [Cfg.sintMaxBytes]; omega), signedVariant]
  split_ifs <;> rfl

/-- A variant holds the number its bytes do. -/
theorem integerNumber_signedVariant (h1 : 1 ≤ n) (h8 : n ≤ 8) (h : SignedFits n v) :
    integerNumber (signedVariant n v) = some v := by
  obtain ⟨hlo, hhi⟩ := h
  interval_cases n <;> norm_num at hlo hhi <;>
    exact congrArg some (BitVec.toInt_ofInt_eq_self (by decide) (by omega) (by omega))

/-! ### Magnitudes -/

/-- The unsigned variant that `n` bytes select (R106), holding `u`. -/
def unsignedVariant (n u : Nat) : Value :=
  if n = 1 then .uint8 (BitVec.ofNat 8 u)
  else if n = 2 then .uint16 (BitVec.ofNat 16 u)
  else .uint32 (BitVec.ofNat 32 u)

theorem normUnsigned_eq (u : Nat) : normUnsigned u = unsignedVariant (unsignedWidth u) u := rfl

/-- A leading zero byte does not change the number. -/
theorem be_tail_of_head_zero (h : c.headD 0#8 = 0x00#8) : be c.tail = be c := by
  cases c with
  | nil => rfl
  | cons b bs =>
    obtain rfl : b = 0x00#8 := h
    simp [be_cons]

theorem decUnsigned_of_legal (h : legalUnsigned c) : decUnsigned p c = .ok (unsignedVariant c.length (be c)) := by
  rcases h with ⟨h1, h4⟩ | ⟨h5, hz⟩
  · rw [decUnsigned, if_neg (by omega), if_neg (by simp only [Cfg.uintMaxBytes]; omega),
      if_neg (by simp only [Cfg.uintMaxBytes]; omega), unsignedVariant]
    split_ifs <;> rfl
  · rw [decUnsigned, if_neg (by omega), if_pos h5, if_neg (not_not.mpr hz), be_tail_of_head_zero hz, h5]
    rfl

/-- A legal unsigned content holds 32 bits (R76). -/
theorem be_lt_of_legalUnsigned (h : legalUnsigned c) : be c < 2 ^ 32 := by
  rcases h with ⟨-, h4⟩ | ⟨h5, hz⟩
  · exact (be_lt c).trans_le (Nat.pow_le_pow_right (n := 256) (by decide) h4)
  · have hlt := be_lt c.tail
    rwa [be_tail_of_head_zero hz, List.length_tail, h5] at hlt

/-- A variant holds the number its bytes do. -/
theorem integerNumber_unsignedVariant (h1 : 1 ≤ n) (hn : u < 256 ^ n) (h32 : u < 2 ^ 32) :
    integerNumber (unsignedVariant n u) = some (u : Int) := by
  have number {w : Nat} (h : u < 2 ^ w) : some ((BitVec.ofNat w u).toNat : Int) = some (u : Int) := by
    rw [BitVec.toNat_ofNat, Nat.mod_eq_of_lt h]
  rw [unsignedVariant]
  split_ifs with hn1 hn2
  · subst hn1; exact number hn
  · subst hn2; exact number hn
  · exact number h32

/-- The width ENC_UNSIGNED chooses keeps the top bit clear (R113). -/
theorem unsignedWidth_fits (h : u < 2 ^ 32) :
    1 ≤ unsignedWidth u ∧ unsignedWidth u ≤ 5 ∧ u < 256 ^ unsignedWidth u := by
  obtain ⟨h1, h5, hle⟩ := unsignedWidth_spec h
  obtain ⟨k, hk⟩ : ∃ k, unsignedWidth u = k + 1 := ⟨unsignedWidth u - 1, by omega⟩
  rw [hk, two_pow_sign_bit] at hle
  have hpos : 0 < 256 ^ k := by positivity
  rw [hk, pow_succ]
  omega

theorem be_encUnsigned (h : u < 2 ^ 32) : be (encUnsigned u) = u := by
  obtain ⟨-, -, hlt⟩ := unsignedWidth_fits h
  exact be_bytesBE_of_lt hlt

/-- What ENC_UNSIGNED writes is a legal unsigned content: a fifth byte is zero (R76, R113). -/
theorem encUnsigned_legal (h : u < 2 ^ 32) : legalUnsigned (encUnsigned u) := by
  obtain ⟨h1, h5, -⟩ := unsignedWidth_fits h
  rw [legalUnsigned, encUnsigned_length]
  by_cases h4 : unsignedWidth u ≤ 4
  · exact .inl ⟨h1, h4⟩
  · have hw : unsignedWidth u = 5 := by omega
    refine .inr ⟨hw, ?_⟩
    rw [encUnsigned, hw, bytesBE, List.headD_cons, Nat.div_eq_of_lt (show u < 256 ^ 4 from h)]

/-! ### Minimal widths -/

/-- A width below the first that a search finds is no such width. -/
theorem not_of_lt_first_width {q : Nat → Bool} {k : Nat} (h1 : 1 ≤ n)
    (hn : n < ((List.range' 1 k).find? q).getD k) : q n = false := by
  cases hf : (List.range' 1 k).find? q with
  | none =>
    rw [hf, Option.getD_none] at hn
    rw [List.find?_eq_none] at hf
    exact Bool.eq_false_iff.mpr (hf n (List.mem_range'_1.mpr ⟨h1, by omega⟩))
  | some w =>
    rw [hf, Option.getD_some] at hn
    obtain ⟨-, -, hmin⟩ := List.find?_range'_eq_some.mp hf
    simpa using hmin n h1 hn

/-! ### Float patterns -/

/-- DEC_FLOAT keeps a 32-bit pattern behind any first byte (R107, R120). -/
theorem decFloat_float32 (p : Nat) (b : Byte) (w : BitVec 32) :
    decFloat p (b :: bytesBE w.toNat 4) = .ok (.float32 w) := by
  rw [decFloat, if_pos (by simp), List.tail_cons, be_bytesBE_of_lt w.isLt, BitVec.ofNat_toNat, BitVec.setWidth_eq]

/-- DEC_FLOAT keeps a 64-bit pattern behind any first byte (R107, R120). -/
theorem decFloat_float64 (p : Nat) (b : Byte) (w : BitVec 64) :
    decFloat p (b :: bytesBE w.toNat 8) = .ok (.float64 w) := by
  rw [decFloat, if_neg (by simp), if_pos (by simp), List.tail_cons, be_bytesBE_of_lt w.isLt, BitVec.ofNat_toNat,
    BitVec.setWidth_eq]

end

end Sys2Proof.Machine

open Sys2Proof Sys2Proof.Machine

/-- Settles O10: two's complement in a width that holds the number is read back, in the variant of that width. -/
theorem signedNumbersSurvive : Obligations.SignedNumbersSurvive := by
  intro v p hlo hhi
  obtain ⟨h1, h8, hfit⟩ := signedWidth_fits hlo hhi
  have hlen := encSigned_length v
  refine ⟨hlen, h8, ?_, integerNumber_signedVariant h1 h8 hfit⟩
  rw [decSigned_of_legal (by omega) (by omega), hlen, sext_encSigned hlo hhi, normSigned_eq]

/-- Settles O11: the minimal width keeps the top bit clear, so its bytes are legal and read back as the magnitude. -/
theorem unsignedNumbersSurvive : Obligations.UnsignedNumbersSurvive := by
  intro v p h
  obtain ⟨h1, h5, hlt⟩ := unsignedWidth_fits h
  refine ⟨encUnsigned_length v, h5, ?_, integerNumber_unsignedVariant h1 hlt h⟩
  rw [decUnsigned_of_legal (encUnsigned_legal h), encUnsigned_length, be_encUnsigned h, normUnsigned_eq]

/-- Settles O12: both widths are the first that a search finds. -/
theorem encodedWidthsAreMinimal : Obligations.EncodedWidthsAreMinimal := by
  constructor
  · intro v n h1 hn
    have h := not_of_lt_first_width h1 hn
    rw [decide_eq_false_iff_not] at h
    push_cast at h
    omega
  · intro v n h1 hn
    have h := not_of_lt_first_width h1 hn
    rw [decide_eq_false_iff_not] at h
    omega

/-- Settles O13: DEC_FLOAT skips whatever first byte ENC_FLOAT wrote. -/
theorem floatPatternsSurvive : Obligations.FloatPatternsSurvive :=
  ⟨fun _ p => decFloat_float32 p _, fun _ p => decFloat_float64 p _⟩

end

section
/-! SUPPORT. A value row inside a sequence that goes on, said once, and the obligations of 41_value_codec.md about
scalar elements that rest on it. -/

namespace Sys2Proof.Machine

section
variable {s : State} {c : List Byte} {n p : Nat}

/-- Inside a sequence that goes on, the value that `n` content bytes decode to joins it. -/
theorem commit_deliver_of_more {α : Type} {dec : Codec α} {a : α} (f : α → Value) (hd : dec = .ok a)
    (hc : c.length = n) (hm : s.more n) :
    commit s (dec >>= fun a => deliver c.length (f a) s) = .next (s.appended n (f a)) := by
  rw [hd, hc]
  exact congrArg (commit s) (deliver_of_more (f a) hm)

/-! ### The variant a length selects -/

theorem signedVariant_cases (n : Nat) (v : Int) :
    (n = 1 → ∃ x, signedVariant n v = .int8 x) ∧ (n = 2 → ∃ x, signedVariant n v = .int16 x) ∧
      (3 ≤ n → n ≤ 4 → ∃ x, signedVariant n v = .int32 x) ∧ (5 ≤ n → ∃ x, signedVariant n v = .int64 x) := by
  rw [signedVariant]
  refine ⟨fun h => ⟨_, if_pos h⟩, fun h => ?_, fun h3 h4 => ?_, fun h5 => ?_⟩
  · rw [if_neg (by omega), if_pos h]
    exact ⟨_, rfl⟩
  · rw [if_neg (by omega), if_neg (by omega), if_pos h4]
    exact ⟨_, rfl⟩
  · rw [if_neg (by omega), if_neg (by omega), if_neg (by omega)]
    exact ⟨_, rfl⟩

theorem unsignedVariant_cases (n u : Nat) :
    (n = 1 → ∃ x, unsignedVariant n u = .uint8 x) ∧ (n = 2 → ∃ x, unsignedVariant n u = .uint16 x) ∧
      (3 ≤ n → ∃ x, unsignedVariant n u = .uint32 x) := by
  rw [unsignedVariant]
  refine ⟨fun h => ⟨_, if_pos h⟩, fun h => ?_, fun h3 => ?_⟩
  · rw [if_neg (by omega), if_pos h]
    exact ⟨_, rfl⟩
  · rw [if_neg (by omega), if_neg (by omega)]
    exact ⟨_, rfl⟩

/-! ### Raw content -/

/-- Eight bytes are the timestamp they were written from (R109). -/
theorem decUtcTime_toList (p : Nat) (u : Octets 8) : decUtcTime p u.toList = .ok (.utcTime u) := by
  have h : decTime p u.toList = .ok u := by
    rw [decTime, if_neg (by simp), octets_toList]
  rw [decUtcTime, h]
  rfl

/-- A padding count of 0 to 7 is kept (R110). -/
theorem decBitString_padded (p : Nat) (padding : Fin 8) (bits : List Byte) :
    decBitString p (BitVec.ofNat 8 padding.val :: bits) = .ok (.bitString padding bits) := by
  have hb : (BitVec.ofNat 8 padding.val).toNat = padding.val := by
    rw [BitVec.toNat_ofNat, Nat.mod_eq_of_lt (by omega)]
  rw [decBitString, if_neg (by simp), List.headD_cons, hb, if_neg (by omega), List.tail_cons, Fin.ofNat_val_eq_self]

end

end Sys2Proof.Machine

open Sys2Proof Sys2Proof.Machine

/-- Settles O14: a legal content decodes to the variant its length selects, which then joins the sequence. -/
theorem numberElementsJoinTheSequence : Obligations.NumberElementsJoinTheSequence := by
  refine ⟨fun s b hm => ?_, fun s c hm h1 h8 => ⟨signedVariant c.length (sext c), ?_, ?_, signedVariant_cases _ _⟩,
    fun s c hm hc => ⟨unsignedVariant c.length (be c), ?_, ?_, unsignedVariant_cases _ _⟩⟩
  · exact commit_deliver_of_more (c := [b]) (dec := decBoolean s.work.tagPos [b]) Value.boolean rfl rfl hm
  · exact commit_deliver_of_more id (decSigned_of_legal h1 h8) rfl hm
  · exact integerNumber_signedVariant h1 h8 (sext_fits h1)
  · exact commit_deliver_of_more id (decUnsigned_of_legal hc) rfl hm
  · have h1 : 1 ≤ c.length := by
      rcases hc with ⟨h1, -⟩ | ⟨h5, -⟩ <;> omega
    exact integerNumber_unsignedVariant h1 (be_lt c) (be_lt_of_legalUnsigned hc)

/-- Settles O15: each decoder keeps the bytes, and the value then joins the sequence. -/
theorem rawElementsJoinTheSequence : Obligations.RawElementsJoinTheSequence := by
  refine ⟨fun s b w hm => ?_, fun s b w hm => ?_, fun s c hm => ⟨?_, ?_, ?_⟩, fun s u hm => ?_, fun s p bits hm => ?_⟩
  · exact commit_deliver_of_more (c := b :: bytesBE w.toNat 4) id (decFloat_float32 _ b w) (by simp) hm
  · exact commit_deliver_of_more (c := b :: bytesBE w.toNat 8) id (decFloat_float64 _ b w) (by simp) hm
  · exact congrArg (commit s) (deliver_of_more (.octetString c) hm)
  · exact congrArg (commit s) (deliver_of_more (.visibleString c) hm)
  · exact congrArg (commit s) (deliver_of_more (.mmsString c) hm)
  · exact commit_deliver_of_more (c := u.toList) id (decUtcTime_toList _ u) u.length_toList hm
  · exact commit_deliver_of_more (c := BitVec.ofNat 8 p.val :: bits) id (decBitString_padded _ p bits)
      (Nat.add_comm _ _) hm

end

section
/-! SUPPORT. Integers by the number they hold, whatever their width, and the obligations of 41_value_codec.md about
sizes, normal forms and progress. -/

namespace Sys2Proof.Machine

/-! ### Integers of either sign -/

/-- The value is a signed integer variant of any width that holds the number (R27). -/
inductive IsSigned : Value → Int → Prop
  | int8 (w : BitVec 8) : IsSigned (.int8 w) w.toInt
  | int16 (w : BitVec 16) : IsSigned (.int16 w) w.toInt
  | int32 (w : BitVec 32) : IsSigned (.int32 w) w.toInt
  | int64 (w : BitVec 64) : IsSigned (.int64 w) w.toInt

/-- The value is an unsigned integer variant of any width that holds the number (R27). -/
inductive IsUnsigned : Value → Nat → Prop
  | uint8 (w : BitVec 8) : IsUnsigned (.uint8 w) w.toNat
  | uint16 (w : BitVec 16) : IsUnsigned (.uint16 w) w.toNat
  | uint32 (w : BitVec 32) : IsUnsigned (.uint32 w) w.toNat

section
variable {cfg : Cfg} {start u : Nat} {v : Int} {x : Value}

theorem IsSigned.number (h : IsSigned x v) : integerNumber x = some v := by cases h <;> rfl

theorem IsSigned.norm_eq (h : IsSigned x v) : norm x = normSigned v := by cases h <;> simp only [norm]

theorem IsSigned.encodeValue_eq (h : IsSigned x v) :
    encodeValue cfg start x = encodeTlv cfg start cfg.tagInteger (encSigned v) := by
  cases h <;> simp only [encodeValue]

/-- The widest variant has 64 bits. -/
theorem IsSigned.bounds (h : IsSigned x v) : -(2 ^ 63) ≤ v ∧ v < 2 ^ 63 := by
  cases h with
  | int8 w => have := w.le_toInt; have := w.toInt_lt; omega
  | int16 w => have := w.le_toInt; have := w.toInt_lt; omega
  | int32 w => have := w.le_toInt; have := w.toInt_lt; omega
  | int64 w => exact ⟨w.le_toInt, w.toInt_lt⟩

theorem isSigned_signedVariant (n : Nat) (v : Int) : ∃ w, IsSigned (signedVariant n v) w := by
  rw [signedVariant]
  split_ifs
  · exact ⟨_, .int8 _⟩
  · exact ⟨_, .int16 _⟩
  · exact ⟨_, .int32 _⟩
  · exact ⟨_, .int64 _⟩

/-- The minimal width's variant holds the same number (R159). -/
theorem IsSigned.minimal (h : IsSigned x v) : IsSigned (normSigned v) v := by
  obtain ⟨hlo, hhi⟩ := h.bounds
  obtain ⟨h1, h8, hfit⟩ := signedWidth_fits hlo hhi
  obtain ⟨w, hw⟩ := isSigned_signedVariant (signedWidth v) v
  obtain rfl : v = w := Option.some.inj ((integerNumber_signedVariant h1 h8 hfit).symm.trans hw.number)
  exact hw

theorem IsSigned.norm_idem (h : IsSigned x v) : norm (norm x) = norm x := by
  rw [h.norm_eq, h.minimal.norm_eq]

theorem IsSigned.encodeValue_norm (h : IsSigned x v) :
    encodeValue cfg start (norm x) = encodeValue cfg start x := by
  rw [h.norm_eq, h.minimal.encodeValue_eq, h.encodeValue_eq]

theorem IsUnsigned.number (h : IsUnsigned x u) : integerNumber x = some (u : Int) := by cases h <;> rfl

theorem IsUnsigned.norm_eq (h : IsUnsigned x u) : norm x = normUnsigned u := by cases h <;> simp only [norm]

theorem IsUnsigned.encodeValue_eq (h : IsUnsigned x u) :
    encodeValue cfg start x = encodeTlv cfg start cfg.tagUnsigned (encUnsigned u) := by
  cases h <;> simp only [encodeValue]

/-- The widest variant has 32 bits. -/
theorem IsUnsigned.bound (h : IsUnsigned x u) : u < 2 ^ 32 := by
  cases h with
  | uint8 w => exact w.isLt.trans (by decide)
  | uint16 w => exact w.isLt.trans (by decide)
  | uint32 w => exact w.isLt

theorem isUnsigned_unsignedVariant (n u : Nat) : ∃ w, IsUnsigned (unsignedVariant n u) w := by
  rw [unsignedVariant]
  split_ifs
  · exact ⟨_, .uint8 _⟩
  · exact ⟨_, .uint16 _⟩
  · exact ⟨_, .uint32 _⟩

/-- The minimal width's variant holds the same number (R159). -/
theorem IsUnsigned.minimal (h : IsUnsigned x u) : IsUnsigned (normUnsigned u) u := by
  obtain ⟨h1, -, hlt⟩ := unsignedWidth_fits h.bound
  obtain ⟨w, hw⟩ := isUnsigned_unsignedVariant (unsignedWidth u) u
  have hnum := (integerNumber_unsignedVariant h1 hlt h.bound).symm.trans hw.number
  obtain rfl : u = w := Int.ofNat_inj.mp (Option.some.inj hnum)
  exact hw

theorem IsUnsigned.norm_idem (h : IsUnsigned x u) : norm (norm x) = norm x := by
  rw [h.norm_eq, h.minimal.norm_eq]

theorem IsUnsigned.encodeValue_norm (h : IsUnsigned x u) :
    encodeValue cfg start (norm x) = encodeValue cfg start x := by
  rw [h.norm_eq, h.minimal.encodeValue_eq, h.encodeValue_eq]

end

/-! ### The normal form -/

mutual
/-- Normalising twice is normalising once (R159). -/
theorem norm_idem : ∀ x : Value, norm (norm x) = norm x
  | .array xs => congrArg Value.array (norms_idem xs)
  | .struct xs => congrArg Value.struct (norms_idem xs)
  | .int8 w => (IsSigned.int8 w).norm_idem
  | .int16 w => (IsSigned.int16 w).norm_idem
  | .int32 w => (IsSigned.int32 w).norm_idem
  | .int64 w => (IsSigned.int64 w).norm_idem
  | .uint8 w => (IsUnsigned.uint8 w).norm_idem
  | .uint16 w => (IsUnsigned.uint16 w).norm_idem
  | .uint32 w => (IsUnsigned.uint32 w).norm_idem
  | .boolean _ | .float32 _ | .float64 _ | .octetString _ | .visibleString _ | .mmsString _ | .utcTime _
  | .bitString _ _ => rfl
theorem norms_idem : ∀ xs : Values, norms (norms xs) = norms xs
  | .nil => rfl
  | .cons x xs => congrArg₂ Values.cons (norm_idem x) (norms_idem xs)
end

section
variable {cfg : Cfg} {start : Nat}

mutual
/-- A value and its normal form have one encoding (R157, R159). -/
theorem encodeValue_norm : ∀ x : Value, encodeValue cfg start (norm x) = encodeValue cfg start x
  | .array xs => congrArg (· >>= encodeTlv cfg start cfg.tagArray) (encodeValues_norms xs)
  | .struct xs => congrArg (· >>= encodeTlv cfg start cfg.tagStructure) (encodeValues_norms xs)
  | .int8 w => (IsSigned.int8 w).encodeValue_norm
  | .int16 w => (IsSigned.int16 w).encodeValue_norm
  | .int32 w => (IsSigned.int32 w).encodeValue_norm
  | .int64 w => (IsSigned.int64 w).encodeValue_norm
  | .uint8 w => (IsUnsigned.uint8 w).encodeValue_norm
  | .uint16 w => (IsUnsigned.uint16 w).encodeValue_norm
  | .uint32 w => (IsUnsigned.uint32 w).encodeValue_norm
  | .boolean _ | .float32 _ | .float64 _ | .octetString _ | .visibleString _ | .mmsString _ | .utcTime _
  | .bitString _ _ => rfl
theorem encodeValues_norms : ∀ xs : Values, encodeValues cfg start (norms xs) = encodeValues cfg start xs
  | .nil => rfl
  | .cons x xs => by rw [norms, encodeValues, encodeValues, encodeValue_norm x, encodeValues_norms xs]
end

end

/-! ### Sizes -/

/-- An encoder that answers writes as many bytes as the size says. -/
theorem WritesSize.length {cfg : Cfg} {start n : Nat} {x : Codec (List Byte)} {bs : List Byte}
    (h : WritesSize cfg start n x) (hx : x = .ok bs) : bs.length = n := by
  rcases h with ⟨bs', hbs, hn⟩ | ⟨hr, -⟩
  · obtain rfl := Except.ok.inj (hbs.symm.trans hx)
    exact hn
  · cases hr.symm.trans hx

end Sys2Proof.Machine

open Sys2Proof Sys2Proof.Machine

/-- Settles O40: the size each encoder is known to write. -/
theorem sizesAreKnownBeforeWriting : Obligations.SizesAreKnownBeforeWriting :=
  ⟨fun _ _ x _ => (encodeValue_writesSize x).length, fun _ _ d _ => (encodePdu_writesSize d).length⟩

/-- Settles O42, by induction over the value tree. -/
theorem normalFormsAreStable : Obligations.NormalFormsAreStable :=
  fun _ _ x => ⟨norm_idem x, encodeValue_norm x⟩

/-- Settles O45: progress and the absence of faults hold for all fuel that covers the rest of the buffer. -/
theorem decodingMakesProgress : Obligations.DecodingMakesProgress := by
  intro cfg m pos bound
  obtain ⟨helem, hseq⟩ := element_sequence_progress cfg m (decodeFuel m pos)
  obtain ⟨relem, rseq⟩ := element_sequence_raises cfg m (decodeFuel m pos)
  exact ⟨fun f h => relem pos (Nat.le_succ _) _ h, fun f h => rseq pos bound (Nat.le_refl _) _ h, helem pos,
    hseq pos bound⟩

end

section
/-! SUPPORT. What DECODE_ELEMENT and DECODE_SEQUENCE make of the bytes ENCODE_VALUE writes, and the obligation of
41_value_codec.md about the round trip. -/

namespace Sys2Proof

theorem Values.ofList_toList : ∀ xs : Values, Values.ofList xs.toList = xs
  | .nil => rfl
  | .cons x xs => congrArg (Values.cons x) (ofList_toList xs)

end Sys2Proof

namespace Sys2Proof.Machine

/-! ### Reading a header back -/

section
variable {cfg : Cfg} {m : Memory} {start p v len fuel : Nat} {tag : Byte} {a b c bs : List Byte} {x : Value}
  {xs : List Value}

/-- A read is the reads of its two parts. -/
theorem memRead_append :
    memRead m p (a ++ b).length = .ok (a ++ b) ↔
      memRead m p a.length = .ok a ∧ memRead m (p + a.length) b.length = .ok b := by
  induction a generalizing p with
  | nil =>
    rw [List.nil_append, List.length_nil, Nat.add_zero]
    refine ⟨fun h => ⟨?_, h⟩, And.right⟩
    obtain ⟨hin, -⟩ := memRead_eq_ok.mp h
    exact memRead_of_le (by omega)
  | cons y a ih =>
    rw [List.cons_append, List.length_cons, memRead_cons, ih, List.length_cons, memRead_cons, and_assoc,
      Nat.add_right_comm, Nat.add_assoc p]

/-- DECODE_TAG_LENGTH reads the header ENCODE_TLV wrote and leaves its content to be read (R101, R103). -/
theorem decodeTagLength_encodeTlv (hmax : cfg.maxLenOctets ≤ 127) (he : encodeTlv cfg start tag c = .ok bs)
    (hm : memRead m p bs.length = .ok bs) :
    ∃ v, decodeTagLength cfg m p = .ok (tag, c.length, v) ∧ memRead m v c.length = .ok c ∧
      v + c.length = p + bs.length := by
  obtain ⟨o, ho, rfl⟩ := encodeTlv_eq_ok.mp he
  rw [← List.cons_append] at hm ⊢
  obtain ⟨hheader, hcontent⟩ := memRead_append.mp hm
  obtain ⟨hin, -⟩ := memRead_eq_ok.mp hm
  simp only [List.length_append, List.length_cons] at hcontent hheader hin ⊢
  refine ⟨_, decodeTagLength_lengthOctets hmax ho hheader (by omega), ?_, by omega⟩
  rwa [Nat.add_assoc, Nat.add_comm 1]

/-! ### The arms of DECODE_ELEMENT -/

/-- The tag of a container (R75). -/
def containerTag (cfg : Cfg) : ContainerKind → Byte
  | .array => cfg.tagArray
  | .struct => cfg.tagStructure

/-- A container's content is a sequence bounded by its declared end (R151, R152). -/
theorem decodeElement_container {kind : ContainerKind} (hn : cfg.valueTags.Nodup)
    (ht : decodeTagLength cfg m p = .ok (containerTag cfg kind, len, v))
    {q : Nat} (hs : decodeSequence cfg m fuel v (v + len) = .ok (q, xs)) :
    decodeElement cfg m (fuel + 1) p = .ok (q, wrapItems kind xs) := by
  simp only [Cfg.valueTags, List.nodup_cons, List.mem_cons, not_or] at hn
  rw [decodeElement, ht]
  cases kind with
  | array => simp [bind, Except.bind, containerTag, hs, pure, Except.pure]
  | struct => simp [bind, Except.bind, containerTag, hs, pure, Except.pure, eq_comm, hn]

/-- Any other element is its content, read by the scalar arms. -/
theorem decodeElement_scalar (ha : tag ≠ cfg.tagArray) (hst : tag ≠ cfg.tagStructure)
    (ht : decodeTagLength cfg m p = .ok (tag, len, v)) (hc : memRead m v len = .ok c)
    (hx : decodeScalar cfg p tag c = .ok x) : decodeElement cfg m (fuel + 1) p = .ok (v + len, x) := by
  rw [decodeElement, ht]
  simp [bind, Except.bind, ha, hst, hc, hx, pure, Except.pure]

/-- What the scalar arms make of a content `c` under each value tag (R141). -/
structure ScalarArms (cfg : Cfg) (p : Nat) (c : List Byte) : Prop where
  boolean : decodeScalar cfg p cfg.tagBoolean c = (decBoolean p c >>= fun b => pure (.boolean b))
  integer : decodeScalar cfg p cfg.tagInteger c = decSigned p c
  unsigned : decodeScalar cfg p cfg.tagUnsigned c = decUnsigned p c
  float : decodeScalar cfg p cfg.tagFloat c = decFloat p c
  octetString : decodeScalar cfg p cfg.tagOctetString c = .ok (.octetString c)
  visibleString : decodeScalar cfg p cfg.tagVisibleString c = .ok (.visibleString c)
  mmsString : decodeScalar cfg p cfg.tagMmsString c = .ok (.mmsString c)
  utcTime : decodeScalar cfg p cfg.tagUtcTime c = decUtcTime p c
  bitString : decodeScalar cfg p cfg.tagBitString c = decBitString p c

/-- Each value tag selects its own arm where the tags are distinct (R75, D38). -/
theorem scalarArms (h : cfg.valueTags.Nodup) (p : Nat) (c : List Byte) : ScalarArms cfg p c := by
  simp only [Cfg.valueTags, List.nodup_cons, List.mem_cons, List.not_mem_nil, or_false, not_or] at h
  constructor <;> simp [decodeScalar, decOctetString, decVisibleString, decMmsString, h, eq_comm]

/-! ### Encodings that read back -/

/-- Wherever the bytes stand, with fuel for what is left of the buffer, DECODE_ELEMENT makes `x` of them and stops right
after them. -/
def ElementReads (cfg : Cfg) (m : Memory) (bs : List Byte) (x : Value) : Prop :=
  ∀ p fuel, memRead m p bs.length = .ok bs → m.len - p + 1 ≤ fuel →
    decodeElement cfg m fuel p = .ok (p + bs.length, x)

/-- The same of DECODE_SEQUENCE with its bound at the end of the bytes. -/
def SequenceReads (cfg : Cfg) (m : Memory) (bs : List Byte) (xs : List Value) : Prop :=
  ∀ p fuel, memRead m p bs.length = .ok bs → m.len - p + 2 ≤ fuel →
    decodeSequence cfg m fuel p (p + bs.length) = .ok (p + bs.length, xs)

theorem SequenceReads.nil : SequenceReads cfg m [] [] := by
  intro p fuel _ hf
  obtain ⟨k, rfl⟩ : ∃ k, fuel = k + 1 := ⟨fuel - 1, by omega⟩
  rw [decodeSequence, List.length_nil, Nat.add_zero, if_neg (Nat.lt_irrefl p)]

/-- One more element in front: it moves the cursor, so the sequence goes on to it and has fuel left (R155). -/
theorem SequenceReads.cons (ha : ElementReads cfg m a x) (hb : SequenceReads cfg m b xs) :
    SequenceReads cfg m (a ++ b) (x :: xs) := by
  intro p fuel hm hf
  obtain ⟨k, rfl⟩ : ∃ k, fuel = k + 1 := ⟨fuel - 1, by omega⟩
  obtain ⟨hma, hmb⟩ := memRead_append.mp hm
  have hx := ha p k hma (by omega)
  have hmove := (element_sequence_progress cfg m k).1 _ _ _ hx
  have hxs := hb (p + a.length) k hmb (by omega)
  rw [List.length_append, ← Nat.add_assoc, decodeSequence, if_pos (by omega), hx]
  simp only [bind, Except.bind, hxs, pure, Except.pure]

/-- An encoded container reads back where its content does. -/
theorem SequenceReads.container (h : SequenceReads cfg m c xs) (hc : cfg.Valid) (kind : ContainerKind)
    (he : encodeTlv cfg start (containerTag cfg kind) c = .ok bs) : ElementReads cfg m bs (wrapItems kind xs) := by
  obtain ⟨hn, -, -, -, hmax, -⟩ := hc
  intro p fuel hm hf
  obtain ⟨k, rfl⟩ : ∃ k, fuel = k + 1 := ⟨fuel - 1, by omega⟩
  obtain ⟨v, ht, hcont, hend⟩ := decodeTagLength_encodeTlv hmax he hm
  obtain ⟨-, hv, hin, -⟩ := decodeTagLength_eq_ok ht
  rw [decodeElement_container hn ht (h v k hcont (by omega)), hend]

/-- The scalar `x` is the content `c` under `tag`, which the scalar arms read back in normal form. -/
structure IsScalar (cfg : Cfg) (x : Value) (tag : Byte) (c : List Byte) : Prop where
  notArray : tag ≠ cfg.tagArray
  notStructure : tag ≠ cfg.tagStructure
  encodes : ∀ start, encodeValue cfg start x = encodeTlv cfg start tag c
  decodes : ∀ p, decodeScalar cfg p tag c = .ok (norm x)

/-- An encoded scalar reads back. -/
theorem IsScalar.reads (h : IsScalar cfg x tag c) (hc : cfg.Valid) (he : encodeValue cfg start x = .ok bs) :
    ElementReads cfg m bs (norm x) := by
  obtain ⟨-, -, -, -, hmax, -⟩ := hc
  intro p fuel hm hf
  obtain ⟨k, rfl⟩ : ∃ k, fuel = k + 1 := ⟨fuel - 1, by omega⟩
  obtain ⟨v, ht, hcont, hend⟩ := decodeTagLength_encodeTlv hmax (h.encodes start ▸ he) hm
  rw [decodeElement_scalar h.notArray h.notStructure ht hcont (h.decodes p), hend]

end

/-! ### Every encoding reads back -/

section
variable {cfg : Cfg} {x : Value} {v : Int} {u : Nat} {tag : Byte} {c : List Byte}

/-- The value tags of scalars are no container's, where the tags are distinct (R75, D38). -/
theorem scalar_tag_ne (h : cfg.valueTags.Nodup)
    (ht : tag ∈ [cfg.tagBoolean, cfg.tagBitString, cfg.tagInteger, cfg.tagUnsigned, cfg.tagFloat, cfg.tagOctetString,
      cfg.tagVisibleString, cfg.tagMmsString, cfg.tagUtcTime]) : tag ≠ cfg.tagArray ∧ tag ≠ cfg.tagStructure := by
  obtain ⟨ha, h⟩ := List.nodup_cons.mp h
  obtain ⟨hs, -⟩ := List.nodup_cons.mp h
  exact ⟨fun e => ha (e ▸ List.mem_cons_of_mem _ ht), fun e => hs (e ▸ ht)⟩

theorem isScalar_of_tag (hn : cfg.valueTags.Nodup)
    (ht : tag ∈ [cfg.tagBoolean, cfg.tagBitString, cfg.tagInteger, cfg.tagUnsigned, cfg.tagFloat, cfg.tagOctetString,
      cfg.tagVisibleString, cfg.tagMmsString, cfg.tagUtcTime])
    (he : ∀ start, encodeValue cfg start x = encodeTlv cfg start tag c)
    (hd : ∀ p, decodeScalar cfg p tag c = .ok (norm x)) : IsScalar cfg x tag c := by
  obtain ⟨ha, hs⟩ := scalar_tag_ne hn ht
  exact ⟨ha, hs, he, hd⟩

/-- The byte written for true reads as true (R104, R111). -/
theorem decBoolean_encBoolean (h : cfg.boolTrueByte ≠ 0#8) (p : Nat) (b : Bool) :
    decBoolean p (encBoolean cfg b) = .ok b := by
  cases b with
  | false => rfl
  | true => simp [decBoolean, encBoolean, h]

theorem isScalar_boolean (hc : cfg.Valid) (b : Bool) :
    IsScalar cfg (.boolean b) cfg.tagBoolean (encBoolean cfg b) := by
  obtain ⟨hn, -, -, -, -, htrue⟩ := hc
  refine isScalar_of_tag hn (by simp) (fun _ => rfl) fun p => ?_
  rw [(scalarArms hn p _).boolean, decBoolean_encBoolean htrue]
  rfl

theorem IsSigned.isScalar (h : IsSigned x v) (hn : cfg.valueTags.Nodup) :
    IsScalar cfg x cfg.tagInteger (encSigned v) :=
  isScalar_of_tag hn (by simp) (fun _ => h.encodeValue_eq) fun p => by
    obtain ⟨hlo, hhi⟩ := h.bounds
    obtain ⟨-, -, hread, -⟩ := signedNumbersSurvive v p hlo hhi
    rw [(scalarArms hn p _).integer, hread, h.norm_eq]

theorem IsUnsigned.isScalar (h : IsUnsigned x u) (hn : cfg.valueTags.Nodup) :
    IsScalar cfg x cfg.tagUnsigned (encUnsigned u) :=
  isScalar_of_tag hn (by simp) (fun _ => h.encodeValue_eq) fun p => by
    obtain ⟨-, -, hread, -⟩ := unsignedNumbersSurvive u p h.bound
    rw [(scalarArms hn p _).unsigned, hread, h.norm_eq]

theorem isScalar_float32 (hn : cfg.valueTags.Nodup) (w : BitVec 32) :
    IsScalar cfg (.float32 w) cfg.tagFloat (encFloat32 cfg w) :=
  isScalar_of_tag hn (by simp) (fun _ => rfl) fun p => (scalarArms hn p _).float.trans (decFloat_float32 p _ w)

theorem isScalar_float64 (hn : cfg.valueTags.Nodup) (w : BitVec 64) :
    IsScalar cfg (.float64 w) cfg.tagFloat (encFloat64 cfg w) :=
  isScalar_of_tag hn (by simp) (fun _ => rfl) fun p => (scalarArms hn p _).float.trans (decFloat_float64 p _ w)

theorem isScalar_octetString (hn : cfg.valueTags.Nodup) (s : List Byte) :
    IsScalar cfg (.octetString s) cfg.tagOctetString s :=
  isScalar_of_tag hn (by simp) (fun _ => rfl) fun p => (scalarArms hn p s).octetString

theorem isScalar_visibleString (hn : cfg.valueTags.Nodup) (s : List Byte) :
    IsScalar cfg (.visibleString s) cfg.tagVisibleString s :=
  isScalar_of_tag hn (by simp) (fun _ => rfl) fun p => (scalarArms hn p s).visibleString

theorem isScalar_mmsString (hn : cfg.valueTags.Nodup) (s : List Byte) :
    IsScalar cfg (.mmsString s) cfg.tagMmsString s :=
  isScalar_of_tag hn (by simp) (fun _ => rfl) fun p => (scalarArms hn p s).mmsString

theorem isScalar_utcTime (hn : cfg.valueTags.Nodup) (t : Octets 8) :
    IsScalar cfg (.utcTime t) cfg.tagUtcTime t.toList :=
  isScalar_of_tag hn (by simp) (fun _ => rfl) fun p => (scalarArms hn p _).utcTime.trans (decUtcTime_toList p t)

theorem isScalar_bitString (hn : cfg.valueTags.Nodup) (padding : Fin 8) (bits : List Byte) :
    IsScalar cfg (.bitString padding bits) cfg.tagBitString (encBitString padding bits) :=
  isScalar_of_tag hn (by simp) (fun _ => rfl) fun p =>
    (scalarArms hn p _).bitString.trans (decBitString_padded p padding bits)

end

section
variable {cfg : Cfg} {m : Memory} {start : Nat}

mutual
/-- DECODE_ELEMENT reads every encoded value back in its normal form (R160). -/
theorem encodeValue_reads (hc : cfg.Valid) :
    ∀ (x : Value) {bs : List Byte}, encodeValue cfg start x = .ok bs → ElementReads cfg m bs (norm x)
  | .array xs, bs, h => by
    obtain ⟨c, hxs, he⟩ := bind_eq_ok.mp h
    have := (encodeValues_reads hc xs hxs).container (m := m) hc .array he
    rwa [wrapItems, Values.ofList_toList] at this
  | .struct xs, bs, h => by
    obtain ⟨c, hxs, he⟩ := bind_eq_ok.mp h
    have := (encodeValues_reads hc xs hxs).container (m := m) hc .struct he
    rwa [wrapItems, Values.ofList_toList] at this
  | .boolean b, _, h => (isScalar_boolean hc b).reads hc h
  | .int8 w, _, h => ((IsSigned.int8 w).isScalar hc.1).reads hc h
  | .int16 w, _, h => ((IsSigned.int16 w).isScalar hc.1).reads hc h
  | .int32 w, _, h => ((IsSigned.int32 w).isScalar hc.1).reads hc h
  | .int64 w, _, h => ((IsSigned.int64 w).isScalar hc.1).reads hc h
  | .uint8 w, _, h => ((IsUnsigned.uint8 w).isScalar hc.1).reads hc h
  | .uint16 w, _, h => ((IsUnsigned.uint16 w).isScalar hc.1).reads hc h
  | .uint32 w, _, h => ((IsUnsigned.uint32 w).isScalar hc.1).reads hc h
  | .float32 w, _, h => (isScalar_float32 hc.1 w).reads hc h
  | .float64 w, _, h => (isScalar_float64 hc.1 w).reads hc h
  | .octetString s, _, h => (isScalar_octetString hc.1 s).reads hc h
  | .visibleString s, _, h => (isScalar_visibleString hc.1 s).reads hc h
  | .mmsString s, _, h => (isScalar_mmsString hc.1 s).reads hc h
  | .utcTime t, _, h => (isScalar_utcTime hc.1 t).reads hc h
  | .bitString p b, _, h => (isScalar_bitString hc.1 p b).reads hc h
/-- DECODE_SEQUENCE reads encoded elements back, each in its normal form (R160). -/
theorem encodeValues_reads (hc : cfg.Valid) :
    ∀ (xs : Values) {bs : List Byte}, encodeValues cfg start xs = .ok bs → SequenceReads cfg m bs (norms xs).toList
  | .nil, _, h => by
    obtain rfl := Except.ok.inj h
    exact .nil
  | .cons x xs, _, h => by
    obtain ⟨a, ha, h⟩ := bind_eq_ok.mp h
    obtain ⟨b, hb, h⟩ := bind_eq_ok.mp h
    obtain rfl := Except.ok.inj h
    exact SequenceReads.cons (encodeValue_reads hc x ha) (encodeValues_reads hc xs hb)
end

end

end Sys2Proof.Machine

open Sys2Proof Sys2Proof.Machine

/-- Settles O41: the bytes read back as the normal form, and a decoder has one answer. -/
theorem valuesRoundTrip : Obligations.ValuesRoundTrip := by
  intro cfg m x start p bs hc he hm
  have hread := encodeValue_reads (m := m) hc x he p (decodeFuel m p) hm (Nat.le_succ _)
  rw [(encodeValue_writesSize x).length he] at hread
  refine ⟨hread, norm_idem x, ?_⟩
  rw [hread, Except.ok.injEq, Prod.mk.injEq, eq_self, true_and]

end

section
/-! SUPPORT. How an element ends in a stepwise transaction, whatever containers it stands in, and the obligations of
41_value_codec.md about containers, results and the value rows. -/

namespace Sys2Proof.Machine

section
variable {s : State} {n pos e : Nat} {x v : Value} {b b' b'' : Option Nat} {fs gs rest : List Frame}
  {f : Frame} {items xs : List Value}

/-! ### Leaving containers -/

/-- Containers are left one group after the other. -/
theorem leaves_append (h : leaves pos b fs b') (h' : leaves pos b' gs b'') : leaves pos b (fs ++ gs) b'' := by
  induction fs generalizing b with
  | nil => rwa [show b = b' from h]
  | cons f fs ih =>
    cases b with
    | none => exact h.elim
    | some e => exact ⟨h.1, ih h.2⟩

/-- One more container is left where the cursor has reached its end. -/
theorem leaves_concat (h : leaves pos b fs (some e)) (he : e ≤ pos) : leaves pos b (fs ++ [f]) f.endBound :=
  leaves_append h ⟨he, rfl⟩

/-- The outermost container left is one value, at the end of the list around it. -/
theorem gathered_concat (fs : List Frame) (f : Frame) (items : List Value) :
    gathered (fs ++ [f]) items = f.items ++ [wrapItems f.kind (gathered fs items)] := by
  induction fs generalizing items with
  | nil => rfl
  | cons g fs ih => rw [List.cons_append, gathered, ih, gathered]

/-! ### The end of an element -/

/-- With no sequence around it, the last value is the element decoded alone (R141). -/
theorem closeSequences_alone (hb : s.work.endBound = none) (hi : s.work.items = xs ++ [v]) :
    closeSequences s = .ok (endTransaction (.element (.ok (s.work.pos, v))) s) := by
  have hu : s.unwound = s := by
    rw [State.unwound, hb, unwind_none]
    simp only [← hb]
  rw [closeSequences_eq, hu, hb]
  simp only [hi, List.getLast?_append, List.getLast?_singleton, Option.some_or]

/-- The sequence around the containers an element ends goes on where the element ended (R151, R152, R156). -/
theorem deliver_goes_on (hs : s.work.stack = fs ++ rest) (hl : leaves (s.work.pos + n) s.work.endBound fs (some e))
    (he : s.work.pos + n < e) :
    deliver n x s = .ok { s with
      work := { s.work with
        pos := s.work.pos + n, stack := rest, endBound := some e, items := gathered fs (s.work.items ++ [x])
        phase := .header .value } } := by
  rw [deliver_unwound hs hl, closeSequences_of_lt rfl he]

/-- An element that ends every container and the outermost sequence of an exposed DECODE_SEQUENCE returns the list
(R154). -/
theorem deliver_returns_sequence {bound : Nat} (hs : s.work.stack = fs)
    (hl : leaves (s.work.pos + n) s.work.endBound fs (some e)) (he : e ≤ s.work.pos + n)
    (hentry : s.work.entry = .sequence bound) :
    deliver n x s = .ok (endTransaction
      (.sequence (.ok (s.work.pos + n, gathered fs (s.work.items ++ [x])))) s) := by
  rw [deliver_unwound (rest := []) (by rw [hs, List.append_nil]) hl, closeSequences_of_le rfl rfl he, finishSequence]
  simp only [hentry]
  rfl

/-- An element that ends the containers decoded alone returns the outermost of them (R141). -/
theorem deliver_returns_element (hs : s.work.stack = fs ++ rest)
    (hl : leaves (s.work.pos + n) s.work.endBound fs none) (hg : gathered fs (s.work.items ++ [x]) = xs ++ [v]) :
    deliver n x s = .ok (endTransaction (.element (.ok (s.work.pos + n, v))) s) := by
  rw [deliver_unwound hs hl, closeSequences_alone rfl hg]
  rfl

/-- An empty container is left as soon as it is entered: it is delivered like a scalar without content. -/
theorem enterContainer_zero (k : ContainerKind) (s : State) :
    enterContainer k 0 s = deliver 0 (wrapItems k []) s := by
  rw [enterContainer, deliver, closeSequences_eq, closeSequences_eq]
  simp only [State.unwound, Nat.add_zero, unwind_of_le (Nat.le_refl _)]

/-! ### The value rows -/

/-- A content that decodes leaves the rest of the meaning to its value. -/
theorem commit_bind_of_ok {α : Type} {dec : Codec α} {a : α} {g : α → Codec State} (h : dec = .ok a) :
    commit s (dec >>= g) = commit s (g a) := by
  rw [h]; rfl

end

end Sys2Proof.Machine

open Sys2Proof Sys2Proof.Machine

/-- Settles O20: each row is its decoder, then `deliver`. -/
theorem valueRowsDeliverTheirValue : Obligations.ValueRowsDeliverTheirValue := fun s c _ =>
  ⟨fun _ h => commit_bind_of_ok (dec := decBoolean s.work.tagPos c) h,
    fun h => commit_bind_of_ok (dec := decSigned s.work.tagPos c) h,
    fun h => commit_bind_of_ok (dec := decUnsigned s.work.tagPos c) h,
    fun h => commit_bind_of_ok (dec := decFloat s.work.tagPos c) h,
    fun h => commit_bind_of_ok (dec := decUtcTime s.work.tagPos c) h,
    fun h => commit_bind_of_ok (dec := decBitString s.work.tagPos c) h, rfl, rfl, rfl⟩

/-- Settles O17, by the two cases of the content length. -/
theorem containersAreEntered : Obligations.ContainersAreEntered := by
  intro s
  have array_zero : exec (.array 0) s = commit s (deliver 0 (.array .nil) s) :=
    congrArg (commit s) (enterContainer_zero .array s)
  have struct_zero : exec (.struct 0) s = commit s (deliver 0 (.struct .nil) s) :=
    congrArg (commit s) (enterContainer_zero .struct s)
  refine ⟨fun n hn => ⟨?_, ?_⟩, array_zero, struct_zero, fun hm => ⟨?_, ?_⟩⟩
  · exact congrArg (commit s) (enterContainer_of_pos .array hn)
  · exact congrArg (commit s) (enterContainer_of_pos .struct hn)
  · rw [array_zero, deliver_of_more _ hm, commit_ok]
  · rw [struct_zero, deliver_of_more _ hm, commit_ok]

/-- Settles O18: `f` is left with the containers inside it, and the end bound around it decides what follows. -/
theorem lastElementClosesTheContainer : Obligations.LastElementClosesTheContainer := by
  intro s n e x inner rest f hstack hinner he
  have hs : s.work.stack = (inner ++ [f]) ++ rest := by rw [hstack, List.append_assoc]; rfl
  have hl : leaves (s.work.pos + n) s.work.endBound (inner ++ [f]) f.endBound := leaves_concat hinner he
  have hg := gathered_concat inner f (s.work.items ++ [x])
  refine ⟨fun e' hf hlt => ?_, fun e' b hf hle hrest hentry => ?_, fun hf => ?_⟩
  · rw [deliver_goes_on hs (hf ▸ hl) hlt, hg]
  · rw [deliver_returns_sequence (by rw [hs, hrest, List.append_nil]) (hf ▸ hl) hle hentry, hg]
  · exact deliver_returns_element hs (hf ▸ hl) hg

/-- Settles O19: the same ends with no container to leave. -/
theorem lastElementReturnsTheResult : Obligations.LastElementReturnsTheResult := fun _ _ _ hs =>
  ⟨fun _ _ hentry hb he => deliver_returns_sequence hs hb he hentry,
    fun hb => deliver_returns_element (fs := []) (rest := []) hs hb rfl⟩

end

section
/-! SUPPORT. How AllData, the PDU and the frame end in a stepwise transaction, what the scalar decoders make of the
content of a field, and the obligations of 42_pdu_codec.md about the PDU rows. -/

namespace Sys2Proof.Machine

section
variable {s : State} {c : List Byte} {a p e : Nat} {xs : List Value}

/-! ### The content of a field -/

/-- A legal u32 content is the number its bytes are (R175). -/
theorem decU32_of_legal (h : legalUnsigned c) : decU32 p c = .ok (BitVec.ofNat 32 (be c)) := by
  rcases decU32_cases p c with ⟨h0, -⟩ | ⟨hbig, -⟩ | ⟨-, x, hx, hn⟩
  · rcases h with ⟨h1, -⟩ | ⟨h5, -⟩ <;> omega
  · rcases h with ⟨-, h4⟩ | ⟨h5, hz⟩
    · omega
    · rcases hbig with ⟨-, hnz⟩ | h6
      · exact absurd hz hnz
      · omega
  · rw [hx, ← hn, BitVec.ofNat_toNat, BitVec.setWidth_eq]

theorem decU32_of_nil (h : c.length = 0) : decU32 p c = raise .unsupportedWidth p := by
  rw [decU32, decUnsigned, if_pos h]; rfl

theorem decU32_oversize (h : c.length = 5 ∧ c.headD 0#8 ≠ 0x00#8 ∨ 6 ≤ c.length) :
    decU32 p c = raise .oversizeUnsigned p := by
  rw [decU32, decUnsigned_oversize h]; rfl

/-- Eight bytes are the timestamp they were written from (R177). -/
theorem decTime_toList (p : Nat) (u : Octets 8) : decTime p u.toList = .ok u := by
  rw [decTime, if_neg (by simp), octets_toList]

/-- A field whose content decodes to `a` is done with the record `d a`. -/
theorem commit_fieldDone {α : Type} {dec : Codec α} {a : α} {n : Nat} (f : PduField) (d : α → GoosePdu)
    (hd : dec = .ok a) (hc : c.length = n) :
    commit s (dec >>= fun x => fieldDone f c.length (d x) s) = .next (s.fielded f n (d a)) := by
  rw [commit_bind_of_ok hd, hc, fieldDone_eq, commit_ok]

/-- The five u32 rows decode their content first, whatever field it is for. -/
theorem exec_u32Field (s : State) (tag : Byte) (c : List Byte) :
    ∀ i ∈ [Instr.pduTimeAllowedToLive tag c, .pduStNum tag c, .pduSqNum tag c, .pduConfRev tag c,
        .pduNumDatSetEntries tag c],
      ∃ g : BitVec 32 → Codec State, exec i s = commit s (decU32 s.work.tagPos c >>= g) := by
  simp only [List.forall_mem_cons]
  exact ⟨⟨_, rfl⟩, ⟨_, rfl⟩, ⟨_, rfl⟩, ⟨_, rfl⟩, ⟨_, rfl⟩, List.forall_mem_nil _⟩

/-! ### The end of AllData, of the PDU and of the frame -/

/-- The block decodes a PDU: an exposed DECODE_PDU, or the one of a frame. -/
abbrev State.InPdu (s : State) : Prop := s.work.entry = .pdu ∨ s.work.entry = .frame

theorem finishSequence_of_inPdu (h : s.InPdu) : finishSequence s = finishAllData s := by
  rcases h with h | h <;> rw [finishSequence, h]

/-- An exposed DECODE_PDU returns the PDU's declared end and the record (R171, R181). -/
theorem finishPdu_of_pdu (h : s.work.entry = .pdu) :
    finishPdu s = .ok (endTransaction (.pdu (.ok (s.work.pduEnd, s.work.pdu))) s) := by
  rw [finishPdu, h]

/-- A frame without a trailer ends with the PDU (R206, R207). -/
theorem finishPdu_of_no_trailer (h : s.work.entry = .frame)
    (ht : trailerPresent s.cfg s.buf s.work.pduEnd = .ok false) : finishPdu s = .ok (finishFrame s none) := by
  rw [finishPdu, h]
  simp only [ht]
  rfl

/-- A frame with a trailer goes on to it at the PDU's declared end (R181, R207). -/
theorem finishPdu_of_trailer (h : s.work.entry = .frame)
    (ht : trailerPresent s.cfg s.buf s.work.pduEnd = .ok true) :
    finishPdu s = .ok { s with work := { s.work with phase := .trailer, pos := s.work.pduEnd } } := by
  rw [finishPdu, h]
  simp only [ht]
  rfl

/-! ### AllData -/

/-- The state at the cursor `p` in AllData, with no container open: its tag is at `a`, its declared end is `e`, and `xs`
are the elements read so far. -/
def State.inAllData (s : State) (a p e : Nat) (xs : List Value) : State :=
  { s with work := { s.work with allDataPos := a, pos := p, stack := [], endBound := some e, items := xs } }

/-- The same state with the elements stored in the record: AllData is over, the cursor has not moved on. -/
def State.allDataStored (s : State) (a p e : Nat) (xs : List Value) : State :=
  { s with
    work :=
      { s.work with
        allDataPos := a, pos := p, stack := [], endBound := some e, items := xs
        pdu := { s.work.pdu with allData := xs } } }

/-- AllData is over: with the count of the list, the list joins the record and the PDU ends (R180). -/
theorem finishSequence_inAllData (h : s.InPdu) (hn : s.work.pdu.numDatSetEntries.toNat = xs.length) :
    finishSequence (s.inAllData a p e xs) = finishPdu (s.allDataStored a p e xs) := by
  rw [finishSequence_of_inPdu (s := s.inAllData a p e xs) h, finishAllData]
  exact if_neg (not_not.mpr hn)

/-- AllData is over with another count than the list has (R180). -/
theorem commit_allData_count_ne (h : s.InPdu) (hn : s.work.pdu.numDatSetEntries.toNat ≠ xs.length) :
    commit s (finishSequence (s.inAllData a p e xs)) = .next (s.failed .entryCountMismatch a) := by
  rw [finishSequence_of_inPdu (s := s.inAllData a p e xs) h, finishAllData]
  exact congrArg (commit s) (if_pos hn)

/-- AllData is over in an exposed DECODE_PDU (R181). -/
theorem commit_allData_pdu (h : s.work.entry = .pdu) (hn : s.work.pdu.numDatSetEntries.toNat = xs.length) :
    commit s (finishSequence (s.inAllData a p e xs)) =
      .next (endTransaction (.pdu (.ok (s.work.pduEnd, { s.work.pdu with allData := xs }))) s) := by
  rw [finishSequence_inAllData (.inl h) hn]
  exact congrArg (commit s) (finishPdu_of_pdu (s := s.allDataStored a p e xs) h)

/-- AllData is over in a frame that has no trailer (R207). -/
theorem commit_allData_no_trailer (h : s.work.entry = .frame)
    (hn : s.work.pdu.numDatSetEntries.toNat = xs.length)
    (ht : trailerPresent s.cfg s.buf s.work.pduEnd = .ok false) :
    commit s (finishSequence (s.inAllData a p e xs)) = .next (endTransaction
      (.decode (some (.ok ⟨s.work.eth, s.work.goose, { s.work.pdu with allData := xs }, none⟩))) s) := by
  rw [finishSequence_inAllData (.inr h) hn]
  exact congrArg (commit s) (finishPdu_of_no_trailer (s := s.allDataStored a p e xs) h ht)

/-- AllData is over in a frame that has a trailer (R207). -/
theorem commit_allData_trailer (h : s.work.entry = .frame)
    (hn : s.work.pdu.numDatSetEntries.toNat = xs.length)
    (ht : trailerPresent s.cfg s.buf s.work.pduEnd = .ok true) :
    commit s (finishSequence (s.inAllData a p e xs)) = .next { s with
      work := { s.work with
        allDataPos := a, stack := [], endBound := some e, items := xs, pdu := { s.work.pdu with allData := xs }
        pos := s.work.pduEnd, phase := .trailer } } := by
  rw [finishSequence_inAllData (.inr h) hn]
  exact congrArg (commit s) (finishPdu_of_trailer (s := s.allDataStored a p e xs) h ht)

/-- The value that ends every container and AllData itself leaves the end of the outermost sequence (R154, R180). -/
theorem deliver_ends_allData {n : Nat} {x : Value} (hl : leaves (s.work.pos + n) s.work.endBound s.work.stack (some e))
    (he : e ≤ s.work.pos + n) :
    deliver n x s = finishSequence
      (s.inAllData s.work.allDataPos (s.work.pos + n) e (gathered s.work.stack (s.work.items ++ [x]))) := by
  rw [deliver_unwound (rest := []) (List.append_nil _).symm hl, closeSequences_of_le rfl rfl he, State.inAllData]

/-- With its own tag AllData is opened, and its loop test runs (R179, R154). -/
theorem exec_pduAllData (s : State) (n : Nat) :
    exec (.pduAllData s.cfg.ptagAllData n) s =
      commit s (closeSequences (s.inAllData s.work.tagPos s.work.pos (s.work.pos + n) [])) :=
  congrArg (commit s) (if_neg (not_not.mpr rfl))

/-- AllData without content is over as soon as it is opened. -/
theorem exec_pduAllData_zero (s : State) :
    exec (.pduAllData s.cfg.ptagAllData 0) s =
      commit s (finishSequence (s.inAllData s.work.tagPos s.work.pos s.work.pos [])) := by
  rw [exec_pduAllData]
  exact congrArg (commit s) (closeSequences_of_le rfl rfl (Nat.le_refl s.work.pos))

end

end Sys2Proof.Machine

open Sys2Proof Sys2Proof.Machine

/-- Settles O21, by the test of the tag. -/
theorem pduTagIsChecked : Obligations.PduTagIsChecked := by
  intro s n
  refine ⟨?_, fun tag ht => ?_⟩
  · exact congrArg (commit s) (if_neg (not_not.mpr rfl))
  · exact congrArg (commit s) (if_pos ht)

/-- Settles O22: each row stores what its decoder makes of the content. -/
theorem rawFieldsHoldTheirContent : Obligations.RawFieldsHoldTheirContent := fun s _ b _ u =>
  ⟨rfl, rfl, rfl,
    commit_fieldDone (c := [b]) (dec := decBoolean s.work.tagPos [b]) .simulation
      (fun x => { s.work.pdu with simulation := x }) rfl rfl,
    commit_fieldDone (c := [b]) (dec := decBoolean s.work.tagPos [b]) .ndsCom
      (fun x => { s.work.pdu with ndsCom := x }) rfl rfl,
    commit_fieldDone (c := u.toList) .t (fun x => { s.work.pdu with t := x }) (decTime_toList s.work.tagPos u)
      u.length_toList⟩

/-- Settles O23: the number of the content, which 32 bits hold. -/
theorem numberFieldsHoldTheirNumber : Obligations.NumberFieldsHoldTheirNumber := by
  intro s tag c hc
  have hd : decU32 s.work.tagPos c = .ok (BitVec.ofNat 32 (be c)) := decU32_of_legal hc
  refine ⟨BitVec.ofNat 32 (be c), ?_, ?_, ?_, ?_, ?_, ?_⟩
  · rw [BitVec.toNat_ofNat, Nat.mod_eq_of_lt (be_lt_of_legalUnsigned hc)]
  · exact commit_fieldDone .timeAllowedToLive (fun x => { s.work.pdu with timeAllowedToLive := x }) hd rfl
  · exact commit_fieldDone .stNum (fun x => { s.work.pdu with stNum := x }) hd rfl
  · exact commit_fieldDone .sqNum (fun x => { s.work.pdu with sqNum := x }) hd rfl
  · exact commit_fieldDone .confRev (fun x => { s.work.pdu with confRev := x }) hd rfl
  · exact commit_fieldDone .numDatSetEntries (fun x => { s.work.pdu with numDatSetEntries := x }) hd rfl

/-- Settles O24: the field's decoder raises at the tag. -/
theorem illegalFieldsRaise : Obligations.IllegalFieldsRaise := by
  intro s tag c
  refine ⟨fun h1 => ⟨?_, ?_⟩, fun h8 => ?_, fun i hi => ?_⟩
  · exact commit_bind_of_raise (dec := decBoolean s.work.tagPos c) (if_pos h1)
  · exact commit_bind_of_raise (dec := decBoolean s.work.tagPos c) (if_pos h1)
  · exact commit_bind_of_raise (dec := decTime s.work.tagPos c) (if_pos h8)
  · obtain ⟨g, hg⟩ := exec_u32Field s tag c i hi
    rw [hg]
    exact ⟨fun h0 => commit_bind_of_raise (decU32_of_nil h0),
      fun hbig => commit_bind_of_raise (decU32_oversize hbig)⟩

/-- Settles O25: AllData with content goes on, AllData without is over at once with an empty list. -/
theorem allDataTagIsChecked : Obligations.AllDataTagIsChecked := by
  intro s n
  have count_zero : s.work.pdu.numDatSetEntries = 0#32 ↔
      s.work.pdu.numDatSetEntries.toNat = ([] : List Value).length := BitVec.toNat_inj.symm
  refine ⟨fun hn => ?_, fun hin hne => ?_, fun hpdu h0 => ?_, fun hframe h0 => ⟨fun ht => ?_, fun ht => ?_⟩,
    fun tag htag => ?_⟩
  · rw [exec_pduAllData]
    exact congrArg (commit s) (closeSequences_of_lt rfl (Nat.lt_add_of_pos_right hn))
  · rw [exec_pduAllData_zero, commit_allData_count_ne hin (mt count_zero.mpr hne)]
  · rw [exec_pduAllData_zero, commit_allData_pdu hpdu (count_zero.mp h0)]
  · rw [exec_pduAllData_zero, commit_allData_no_trailer hframe (count_zero.mp h0) ht]
  · rw [exec_pduAllData_zero, commit_allData_trailer hframe (count_zero.mp h0) ht]
  · exact congrArg (commit s) (if_pos htag)

/-- Settles O26: AllData is over with the gathered list, whose length is compared with the count. -/
theorem entryCountIsChecked : Obligations.EntryCountIsChecked := by
  intro s n e x hin hl he
  rw [deliver_ends_allData hl he]
  exact ⟨commit_allData_count_ne hin, fun hn => ⟨fun hpdu => commit_allData_pdu hpdu hn,
    fun hframe => commit_allData_no_trailer hframe hn, fun hframe => commit_allData_trailer hframe hn⟩⟩

end

section
/-! SUPPORT. What the field readers of DECODE_PDU make of the elements ENCODE_PDU writes, and the obligation of
42_pdu_codec.md about the round trip. -/

namespace Sys2Proof.Machine

section
variable {cfg : Cfg} {m : Memory} {start p : Nat} {tag : Byte} {a b c bs : List Byte} {α β : Type}

/-! ### Fields that read back -/

/-- Wherever the bytes stand, the field reader makes `x` of them and stops right after them. -/
def FieldReads (m : Memory) (field : Nat → Codec (Nat × α)) (bs : List Byte) (x : α) : Prop :=
  ∀ p, memRead m p bs.length = .ok bs → field p = .ok (p + bs.length, x)

/-- A field that reads back leaves the rest of the bytes to what follows it. -/
theorem FieldReads.bind {field : Nat → Codec (Nat × α)} {x : α} {k : Nat × α → Codec β} {r : Codec β}
    (ha : FieldReads m field a x) (hk : memRead m (p + a.length) b.length = .ok b → k (p + a.length, x) = r)
    (hm : memRead m p (a ++ b).length = .ok (a ++ b)) : (field p >>= k) = r := by
  obtain ⟨hma, hmb⟩ := memRead_append.mp hm
  rw [ha p hma]
  exact hk hmb

/-- The shape of the four field readers (R174 to R177): the header, the content, and what `dec` makes of the content. -/
def readField (cfg : Cfg) (m : Memory) (dec : Nat → List Byte → Codec α) (q : Nat) : Codec (Nat × α) := do
  let (_, len, v) ← decodeTagLength cfg m q
  let c ← memRead m v len
  let x ← dec q c
  return (v + len, x)

theorem fieldString_eq : fieldString cfg m = readField cfg m fun _ c => .ok c := rfl
theorem fieldU32_eq : fieldU32 cfg m = readField cfg m decU32 := rfl
theorem fieldBool_eq : fieldBool cfg m = readField cfg m decBoolean := rfl
theorem fieldTime_eq : fieldTime cfg m = readField cfg m decTime := rfl

/-- An encoded element reads back as a field, whatever its tag, where its content does (R178). -/
theorem readField_reads {dec : Nat → List Byte → Codec α} {x : α} (hmax : cfg.maxLenOctets ≤ 127)
    (he : encodeTlv cfg start tag c = .ok bs) (hx : ∀ q, dec q c = .ok x) :
    FieldReads m (readField cfg m dec) bs x := by
  intro p hm
  obtain ⟨v, ht, hcont, hend⟩ := decodeTagLength_encodeTlv hmax he hm
  rw [readField, ht]
  simp only [bind, Except.bind, hcont, hx, pure, Except.pure, hend]

theorem fieldString_reads (hmax : cfg.maxLenOctets ≤ 127) (he : encodeTlv cfg start tag (encString c) = .ok bs) :
    FieldReads m (fieldString cfg m) bs c :=
  fieldString_eq ▸ readField_reads hmax he fun _ => rfl

theorem fieldU32_reads (hmax : cfg.maxLenOctets ≤ 127) {u : Nat} (hu : u < 2 ^ 32)
    (he : encodeTlv cfg start tag (encUnsigned u) = .ok bs) :
    FieldReads m (fieldU32 cfg m) bs (BitVec.ofNat 32 u) :=
  fieldU32_eq ▸ readField_reads hmax he fun q => by
    rw [decU32_of_legal (encUnsigned_legal hu), be_encUnsigned hu]

theorem fieldU32_reads_bitVec (hmax : cfg.maxLenOctets ≤ 127) (w : BitVec 32)
    (he : encodeTlv cfg start tag (encUnsigned w.toNat) = .ok bs) : FieldReads m (fieldU32 cfg m) bs w := by
  have h := fieldU32_reads (m := m) hmax w.isLt he
  rwa [BitVec.ofNat_toNat, BitVec.setWidth_eq] at h

theorem fieldBool_reads (hmax : cfg.maxLenOctets ≤ 127) (htrue : cfg.boolTrueByte ≠ 0#8) {f : Bool}
    (he : encodeTlv cfg start tag (encBoolean cfg f) = .ok bs) : FieldReads m (fieldBool cfg m) bs f :=
  fieldBool_eq ▸ readField_reads hmax he fun q => decBoolean_encBoolean htrue q f

theorem fieldTime_reads (hmax : cfg.maxLenOctets ≤ 127) {u : Octets 8}
    (he : encodeTlv cfg start tag (encUtcTime u) = .ok bs) : FieldReads m (fieldTime cfg m) bs u :=
  fieldTime_eq ▸ readField_reads hmax he fun q => decTime_toList q u

/-! ### The PDU reads back -/

/-- The elements of a list in normal form, as the decoder lists them. -/
theorem norms_ofList_toList (xs : List Value) : (norms (Values.ofList xs)).toList = xs.map norm := by
  induction xs with
  | nil => rfl
  | cons x xs ih => rw [Values.ofList, norms, Values.toList, ih, List.map_cons]

/-- AllData reads back with the count of its elements (R179, R180, R182). -/
theorem decodeAllData_reads (hc : cfg.Valid) {xs : List Value} {count : BitVec 32} (hn : count.toNat = xs.length)
    (hxs : encodeValues cfg start (Values.ofList xs) = .ok c)
    (he : encodeTlv cfg start cfg.ptagAllData c = .ok bs) (hm : memRead m p bs.length = .ok bs) :
    decodeAllData cfg m count p = .ok (xs.map norm) := by
  obtain ⟨-, -, -, -, hmax, -⟩ := id hc
  obtain ⟨v, ht, hcont, -⟩ := decodeTagLength_encodeTlv hmax he hm
  have hseq := encodeValues_reads (m := m) hc _ hxs v (decodeFuel m v) hcont (Nat.le_refl _)
  rw [norms_ofList_toList] at hseq
  rw [decodeAllData, ht]
  simp only [bind, Except.bind, ne_eq, not_true_eq_false, if_false, hseq, List.length_map, hn, pure, Except.pure]

/-- What decoding makes of a PDU's encoding: the count of its elements, each in normal form (R184). -/
def normPdu (d : GoosePdu) : GoosePdu :=
  { d with numDatSetEntries := BitVec.ofNat 32 d.allData.length, allData := d.allData.map norm }

/-- The twelve elements read back in order (R171, R182). -/
theorem decodePduBody_reads (hc : cfg.Valid) {d : GoosePdu} (hn : d.allData.length < 2 ^ 32)
    (he : encodePduBody cfg start d = .ok bs) (hm : memRead m p bs.length = .ok bs) :
    decodePduBody cfg m p = .ok (normPdu d) := by
  obtain ⟨-, -, -, -, hmax, htrue⟩ := id hc
  simp only [encodePduBody, bind_eq_ok] at he
  obtain ⟨f1, h1, f2, h2, f3, h3, f4, h4, f5, h5, f6, h6, f7, h7, f8, h8, f9, h9, f10, h10, f11, h11, xs, hxs,
    f12, h12, he⟩ := he
  obtain rfl := Except.ok.inj he
  have hcount : (BitVec.ofNat 32 d.allData.length).toNat = d.allData.length := by
    rw [BitVec.toNat_ofNat, Nat.mod_eq_of_lt hn]
  simp only [List.append_assoc] at hm
  refine FieldReads.bind (fieldString_reads hmax h1) ?_ hm
  refine FieldReads.bind (fieldU32_reads_bitVec hmax _ h2) ?_
  refine FieldReads.bind (fieldString_reads hmax h3) ?_
  refine FieldReads.bind (fieldString_reads hmax h4) ?_
  refine FieldReads.bind (fieldTime_reads hmax h5) ?_
  refine FieldReads.bind (fieldU32_reads_bitVec hmax _ h6) ?_
  refine FieldReads.bind (fieldU32_reads_bitVec hmax _ h7) ?_
  refine FieldReads.bind (fieldBool_reads hmax htrue h8) ?_
  refine FieldReads.bind (fieldU32_reads_bitVec hmax _ h9) ?_
  refine FieldReads.bind (fieldBool_reads hmax htrue h10) ?_
  refine FieldReads.bind (fieldU32_reads hmax hn h11) fun hm => ?_
  simp only [decodeAllData_reads hc hcount hxs h12 hm]
  rfl

/-- DECODE_PDU reads an encoded PDU back and stops right after it (R184). -/
theorem decodePdu_reads (hc : cfg.Valid) {d : GoosePdu} (hn : d.allData.length < 2 ^ 32)
    (he : encodePdu cfg start d = .ok bs) : FieldReads m (decodePdu cfg m) bs (normPdu d) := by
  intro p hm
  obtain ⟨body, hbody, he⟩ := bind_eq_ok.mp he
  obtain ⟨-, -, -, -, hmax, -⟩ := id hc
  obtain ⟨v, ht, hcont, hend⟩ := decodeTagLength_encodeTlv hmax he hm
  rw [decodePdu, ht]
  simp only [bind, Except.bind, ne_eq, not_true_eq_false, if_false, decodePduBody_reads hc hn hbody hcont, pure,
    Except.pure, hend]

end

end Sys2Proof.Machine

open Sys2Proof Sys2Proof.Machine

/-- Settles O43: the fields read back one after the other, and a normal form is its own. -/
theorem pdusRoundTrip : Obligations.PdusRoundTrip := by
  intro cfg m d start p bs hc hn he hm
  have hread := decodePdu_reads hc hn he p hm
  rw [(encodePdu_writesSize d).length he] at hread
  refine ⟨hread, ?_⟩
  rw [List.map_map]
  exact List.map_congr_left fun x _ => norm_idem x

end

section
/-! SUPPORT. What DECODE makes of each part of a frame, what it answers between transactions, and the obligations of
43_frame_codec.md about reading a frame. -/

namespace Sys2Proof.Machine

section
variable {cfg : Cfg} {m : Memory} {a e o p : Nat} {hi lo : Byte} {w tci inner et : BitVec 16}

/-! ### 16-bit words in the buffer -/

theorem memRead_two :
    memRead m a 2 = .ok [hi, lo] ↔ a + 2 ≤ m.len ∧ hi = lookupCell a m.cells ∧ lo = lookupCell (a + 1) m.cells := by
  simp [memRead_eq_ok, List.range'_succ]

theorem memRead16_eq_ok : memRead16 m a = .ok w ↔ ∃ hi lo, memRead m a 2 = .ok [hi, lo] ∧ word16 hi lo = w := by
  constructor
  · intro h
    obtain ⟨c, hc, -⟩ := bind_eq_ok.mp h
    obtain ⟨hle, -⟩ := memRead_eq_ok.mp hc
    rw [memRead16_of_le hle] at h
    exact ⟨_, _, memRead_two.mpr ⟨hle, rfl, rfl⟩, Except.ok.inj h⟩
  · rintro ⟨hi, lo, h, rfl⟩
    obtain ⟨hle, rfl, rfl⟩ := memRead_two.mp h
    exact memRead16_of_le hle

theorem memRead16_of_memRead (h : memRead m a 2 = .ok [hi, lo]) : memRead16 m a = .ok (word16 hi lo) :=
  memRead16_eq_ok.mpr ⟨_, _, h, rfl⟩

theorem memRead16_in_bounds (h : memRead16 m a = .ok w) : a + 2 ≤ m.len := by
  obtain ⟨hi, lo, h, -⟩ := memRead16_eq_ok.mp h
  exact (memRead_two.mp h).1

/-- A written word is read back (R55). -/
theorem memRead16_of_word16Bytes (h : memRead m a (word16Bytes w).length = .ok (word16Bytes w)) :
    memRead16 m a = .ok w := by
  rw [word16Bytes_eq] at h
  exact memRead16_eq_ok.mpr ⟨_, _, h, word16_of_bytes w⟩

/-- The rest of the buffer begins with the two bytes read there. -/
theorem bytesFrom_of_memRead (h : memRead m a 2 = .ok [hi, lo]) : bytesFrom m a = hi :: lo :: bytesFrom m (a + 2) := by
  obtain ⟨hle, rfl, rfl⟩ := memRead_two.mp h
  rw [bytesFrom_cons (by omega), bytesFrom_cons (by omega)]

/-! ### The VLAN tag -/

theorem decodeVlan_untagged (h : memRead16 m (p + 12) = .ok et) (hv : et ≠ cfg.ethertypeVlan) :
    decodeVlan cfg m p = .ok (none, et, p + 14) := by
  rw [decodeVlan, h]
  exact if_neg hv

theorem decodeVlan_tagged (h : memRead16 m (p + 12) = .ok cfg.ethertypeVlan) (ht : memRead16 m (p + 14) = .ok tci)
    (hi : memRead16 m (p + 16) = .ok inner) :
    decodeVlan cfg m p = .ok (some (tci.extractLsb' 0 12), inner, p + 18) := by
  have hle := memRead16_in_bounds hi
  rw [decodeVlan, h]
  refine (if_pos rfl).trans ((if_neg (by simp only [Cfg.vlanTagBytes]; omega)).trans ?_)
  rw [ht, hi]
  rfl

theorem decodeVlan_cut (h : memRead16 m (p + 12) = .ok cfg.ethertypeVlan) (hlt : m.len < p + 18) :
    decodeVlan cfg m p = raise .bufferTooShort (p + 14) := by
  rw [decodeVlan, h]
  exact (if_pos rfl).trans (if_pos (by simp only [Cfg.vlanTagBytes]; omega))

/-- The resolved ethertype (R203): the word at s+12, or the one behind the VLAN tag. -/
theorem decodeVlan_eq_ok {vlan : Option (BitVec 12)} (h : decodeVlan cfg m p = .ok (vlan, et, o)) :
    memRead16 m (p + 12) = .ok et ∧ et ≠ cfg.ethertypeVlan ∨
      memRead16 m (p + 12) = .ok cfg.ethertypeVlan ∧ p + 18 ≤ m.len ∧ memRead16 m (p + 16) = .ok et := by
  obtain ⟨w, hw, -⟩ := bind_eq_ok.mp h
  by_cases hv : w = cfg.ethertypeVlan
  · subst hv
    by_cases h18 : p + 18 ≤ m.len
    · have hi := memRead16_of_le (m := m) (a := p + 16) (by omega)
      rw [decodeVlan_tagged hw (memRead16_of_le (by omega)) hi] at h
      cases h
      exact .inr ⟨hw, h18, hi⟩
    · rw [decodeVlan_cut hw (by omega)] at h
      exact absurd h raise_ne_ok
  · rw [decodeVlan_untagged hw hv] at h
    cases h
    exact .inl ⟨hw, hv⟩

/-! ### The PRP trailer -/

/-- A LAN has its own designator, and no other (R208). -/
theorem lanOf_eq_some {id : BitVec 4} {lan : Lan} (h : lanOf cfg id = some lan) : id = lanId cfg lan := by
  unfold lanOf at h
  split at h
  · cases h
    assumption
  · split at h
    · cases h
      assumption
    · cases h

theorem lanOf_lanId (h : cfg.prpLanA ≠ cfg.prpLanB) (lan : Lan) : lanOf cfg (lanId cfg lan) = some lan := by
  cases lan with
  | A => exact if_pos rfl
  | B => exact (if_neg h.symm).trans (if_pos rfl)

theorem trailerPresent_of_marker (hlen : e + 6 = m.len) (h : memRead16 m (e + 4) = .ok w) :
    trailerPresent cfg m e = .ok (decide (w = cfg.prpSuffix)) := by
  obtain rfl := Except.ok.inj (h.symm.trans (memRead16_of_le (memRead16_in_bounds h)))
  rw [trailerPresent_eq, decide_eq_true hlen, Bool.true_and]

theorem trailerPresent_of_ne (hlen : e + 6 ≠ m.len) : trailerPresent cfg m e = .ok false := by
  rw [trailerPresent_eq, decide_eq_false hlen, Bool.false_and]

theorem decodePrp_absent (h : trailerPresent cfg m e = .ok false) : decodePrp cfg m e = .ok none := by
  rw [decodePrp, h]
  rfl

theorem decodePrp_present {seq : BitVec 16} {lan : Lan} (h : trailerPresent cfg m e = .ok true)
    (hs : memRead16 m e = .ok seq) (hw : memRead16 m (e + 2) = .ok w)
    (hl : lanOf cfg (w.extractLsb' 12 4) = some lan) :
    decodePrp cfg m e = .ok (some ⟨seq, lan, w.extractLsb' 0 12⟩) := by
  rw [decodePrp, h]
  simp only [bind, Except.bind, hs, hw, hl, if_true, pure, Except.pure]

/-- A trailer that is read is the last six bytes: sequence number, LAN designator above the size, marker (R207, R208). -/
theorem decodePrp_eq_some {r : PrpTrailer} (h : decodePrp cfg m e = .ok (some r)) :
    e + 6 = m.len ∧ memRead16 m e = .ok r.seq ∧ memRead16 m (e + 2) = .ok (lanId cfg r.lan ++ r.size) ∧
      memRead16 m (e + 4) = .ok cfg.prpSuffix := by
  obtain ⟨present, hp, h⟩ := bind_eq_ok.mp h
  cases present with
  | false => cases h
  | true =>
    obtain ⟨hlen, hmark⟩ := trailerPresent_eq_true hp
    obtain ⟨seq, hs, h⟩ := bind_eq_ok.mp h
    obtain ⟨w, hw, h⟩ := bind_eq_ok.mp h
    split at h
    · rename_i lan hl
      cases h
      refine ⟨hlen, hs, ?_, hmark ▸ memRead16_of_le (by omega)⟩
      rw [hw, ← lanOf_eq_some hl, BitVec.extractLsb'_append_extractLsb'_eq_extractLsb' (by rfl)]
      simp
    · exact absurd h raise_ne_ok

/-! ### The frame -/

theorem decodeFrame_of_lt (h : m.len < p + 14) : decodeFrame cfg m p = raise .bufferTooShort p := if_pos h

/-- Other traffic (R204). -/
theorem decodeFrame_other {vlan : Option (BitVec 12)} (h : p + 14 ≤ m.len)
    (hv : decodeVlan cfg m p = .ok (vlan, et, o)) (hne : et ≠ cfg.ethertypeGoose) :
    decodeFrame cfg m p = .ok none := by
  rw [decodeFrame, if_neg (by omega), Cfg.macBytes, memRead_of_le (by omega), memRead_of_le (by omega), hv]
  exact if_pos hne

/-- A GOOSE frame is its parts, each read where the one before it ends (R200, R209). -/
theorem decodeFrame_goose {dst src : List Byte} {k : GoosePacket} (hd : memRead m p 6 = .ok dst)
    (hs : memRead m (p + 6) 6 = .ok src) (hv : decodeVlan cfg m p = .ok (k.eth.vlan, cfg.ethertypeGoose, o))
    (hg : decodeGooseHeader m o = .ok k.goose) (hpdu : decodePdu cfg m (o + 8) = .ok (e, k.pdu))
    (hprp : decodePrp cfg m e = .ok k.prp) (h : p + 14 ≤ m.len) :
    decodeFrame cfg m p = .ok (some { k with eth := ⟨octets 6 dst, octets 6 src, k.eth.vlan⟩ }) := by
  rw [decodeFrame, if_neg (by omega), Cfg.macBytes, hd, hs, hv]
  simp only [bind, Except.bind, ne_eq, not_true_eq_false, if_false, hg, hpdu, hprp, pure, Except.pure]

/-- A DECODE that answers without an error: other traffic, or a GOOSE frame that ends with its trailer (R201, R207). -/
theorem decodeFrame_eq_ok {r : Option GoosePacket} (h : decodeFrame cfg m p = .ok r) :
    p + 14 ≤ m.len ∧ ∃ vlan et o, decodeVlan cfg m p = .ok (vlan, et, o) ∧
      (et ≠ cfg.ethertypeGoose ∧ r = none ∨
        et = cfg.ethertypeGoose ∧ ∃ k e, r = some k ∧ decodePrp cfg m e = .ok k.prp) := by
  by_cases hlt : m.len < p + 14
  · rw [decodeFrame_of_lt hlt] at h
    exact absurd h raise_ne_ok
  rw [decodeFrame, if_neg (by omega)] at h
  obtain ⟨dst, -, h⟩ := bind_eq_ok.mp h
  obtain ⟨src, -, h⟩ := bind_eq_ok.mp h
  obtain ⟨⟨vlan, et, o⟩, hv, h⟩ := bind_eq_ok.mp h
  refine ⟨by omega, vlan, et, o, hv, ?_⟩
  simp only at h
  by_cases hg : et = cfg.ethertypeGoose
  · rw [if_neg (not_not.mpr hg)] at h
    obtain ⟨goose, -, h⟩ := bind_eq_ok.mp h
    obtain ⟨⟨e, pdu⟩, -, h⟩ := bind_eq_ok.mp h
    obtain ⟨prp, hprp, h⟩ := bind_eq_ok.mp h
    cases h
    exact .inr ⟨hg, _, e, rfl, hprp⟩
  · rw [if_pos hg] at h
    cases h
    exact .inl ⟨hg, rfl⟩

theorem decodeFrame_eq_none :
    decodeFrame cfg m p = .ok none ↔
      p + 14 ≤ m.len ∧ ∃ vlan et o, decodeVlan cfg m p = .ok (vlan, et, o) ∧ et ≠ cfg.ethertypeGoose := by
  constructor
  · intro h
    obtain ⟨hle, vlan, et, o, hv, ⟨hne, -⟩ | ⟨-, k, e, hk, -⟩⟩ := decodeFrame_eq_ok h
    · exact ⟨hle, vlan, et, o, hv, hne⟩
    · cases hk
  · rintro ⟨hle, vlan, et, o, hv, hne⟩
    exact decodeFrame_other hle hv hne

end

/-! ### DECODE between transactions -/

section
variable {s : State} {hand : Option Memory} {a : Nat} {r : Response} {x : Codec (Option GoosePacket)}

theorem exec_decode_of_response (hp : s.work.phase = .idle)
    (h : decodeResponse (decodeFrame s.cfg (handOver hand s).buf a) = .ok r) :
    exec (.decode hand a) s = .next (endTransaction r (handOver hand s)) := by
  change execDecode hand a s = _
  simp only [execDecode, hp, h]

theorem decodeResponse_eq_none : decodeResponse x = .ok (.decode none) ↔ x = .ok none := by
  constructor
  · intro h
    unfold decodeResponse at h
    split at h <;> cases h
    rfl
  · rintro rfl
    rfl

/-- DECODE answers `None` exactly where the frame decoder finds other traffic. -/
theorem exec_decode_none_iff (hp : s.work.phase = .idle) :
    exec (.decode none a) s = .next (endTransaction (.decode none) s) ↔ decodeFrame s.cfg s.buf a = .ok none := by
  constructor
  · intro h
    obtain ⟨r, hr, ht⟩ := execDecode_eq_next h
    have hout : some (Response.decode none) = some r := congrArg State.outcome ht
    exact decodeResponse_eq_none.mp (hr.trans (congrArg Except.ok (Option.some.inj hout).symm))
  · intro h
    exact exec_decode_of_response (hand := none) hp (decodeResponse_eq_none.mpr h)

end

/-! ### Ethertype words cut off by the buffer's end -/

section
variable {s : State} {cfg : Cfg} {first : Bool} {hi lo : Byte} {rest : List Byte} {off : Nat}

theorem decodeEthertype_cut_vlan (hv : word16 hi lo = cfg.ethertypeVlan) (hr : rest.length < 4) :
    decodeEthertype cfg true (hi :: lo :: rest) = .error (.tooShort 2) := by
  refine (if_pos ⟨rfl, hv⟩).trans ?_
  split
  · simp only [List.length_cons] at hr
    omega
  · rfl

theorem decodeEthertype_cut_goose (hv : first = true → word16 hi lo ≠ cfg.ethertypeVlan)
    (hg : word16 hi lo = cfg.ethertypeGoose) (hr : rest.length < 8) :
    decodeEthertype cfg first (hi :: lo :: rest) = .error (.tooShort 2) := by
  refine (if_neg (not_and.mpr hv)).trans ((if_pos hg).trans ?_)
  split
  · simp only [List.length_cons] at hr
    omega
  · rfl

/-- Bytes that end too soon at a word raise BufferTooShort at the read that fails (R251). -/
theorem step_of_tooShort {q : Position} (hp : s.work.phase ≠ .idle)
    (hf : fetch s = fetchAt s q s.work.pos s.work.pos)
    (hd : decode s.cfg q (bytesFrom s.buf s.work.pos) = .error (.tooShort off)) :
    step s = .next (s.failed .bufferTooShort (s.work.pos + off)) := by
  rw [fetchAt, hd] at hf
  exact step_of_fetch_error hp hf

end

end Sys2Proof.Machine

open Sys2Proof Sys2Proof.Machine

/-- Settles O28: the low 12 bits of the TCI are its remainder. -/
theorem ethertypeRowsDispatch : Obligations.EthertypeRowsDispatch := by
  intro s
  refine ⟨fun tci inner => ⟨tci.extractLsb' 0 12, ?_, rfl⟩, fun h => rfl, fun w => rfl⟩
  rw [BitVec.extractLsb'_toNat, Nat.shiftRight_zero]

/-- Settles O30, by the LAN each designator names. -/
theorem prpTrailerEndsTheFrame : Obligations.PrpTrailerEndsTheFrame := by
  intro s seq size
  have named : ∀ {id lan}, lanOf s.cfg id = some lan →
      exec (.prpTrailer seq id size) s = .next (finishFrame s (some ⟨seq, lan, size⟩)) := by
    intro id lan h
    change execPrpTrailer seq id size s = _
    rw [execPrpTrailer, h, commit_ok]
  refine ⟨named (if_pos rfl), fun hne => named ((if_neg hne).trans (if_pos rfl)), fun id ha hb => ?_⟩
  have hnone : lanOf s.cfg id = none := (if_neg ha).trans (if_neg hb)
  change execPrpTrailer seq id size s = _
  rw [execPrpTrailer, hnone, commit_raise]

/-- Settles O27, by what the trailer test answers. -/
theorem trailerIsLookedFor : Obligations.TrailerIsLookedFor := by
  intro s m1 m0 hf
  refine ⟨fun hm hlen => ?_, fun hne => finishPdu_of_no_trailer hf (trailerPresent_of_ne hne)⟩
  have ht := trailerPresent_of_marker (cfg := s.cfg) hlen (memRead16_of_memRead hm)
  exact ⟨fun hw => finishPdu_of_trailer hf (ht.trans (congrArg _ (decide_eq_true hw))),
    fun hw => finishPdu_of_no_trailer hf (ht.trans (congrArg _ (decide_eq_false hw)))⟩

/-- Settles O29: the frame's first test, and what the decoder makes of a word whose bytes end too soon. -/
theorem cutHeadersRaise : Obligations.CutHeadersRaise := by
  refine ⟨fun s start hp hlt => ?_, fun s hi lo hm => ⟨fun hp hv hlt => ?_, fun hp hg hlt => ?_⟩⟩
  · exact exec_decode_of_response (hand := none) hp (by rw [handOver_none, decodeFrame_of_lt hlt]; rfl)
  · refine step_of_tooShort (q := .ethertype) (by simp [hp]) (by simp only [fetch, hp]) ?_
    rw [bytesFrom_of_memRead hm]
    exact decodeEthertype_cut_vlan hv (by rw [bytesFrom_length]; omega)
  · have hrest : (bytesFrom s.buf (s.work.pos + 2)).length < 8 := by rw [bytesFrom_length]; omega
    rcases hp with ⟨hp, hv⟩ | hp
    · refine step_of_tooShort (q := .ethertype) (by simp [hp]) (by simp only [fetch, hp]) ?_
      rw [bytesFrom_of_memRead hm]
      exact decodeEthertype_cut_goose (fun _ => hv) hg hrest
    · refine step_of_tooShort (q := .innerEthertype) (by simp [hp]) (by simp only [fetch, hp]) ?_
      rw [bytesFrom_of_memRead hm]
      exact decodeEthertype_cut_goose (first := false) nofun hg hrest

/-- Settles O31: the frame decoder is never broken (R155), so each of its answers is an outcome. -/
theorem decodeAlwaysAnswers : Obligations.DecodeAlwaysAnswers := by
  intro s hand start hp
  cases hd : decodeFrame s.cfg (handOver hand s).buf start with
  | ok r =>
    cases r with
    | none => exact ⟨_, exec_decode_of_response hp (by rw [hd]; rfl), .inr (.inr ⟨rfl, rfl⟩)⟩
    | some k => exact ⟨_, exec_decode_of_response hp (by rw [hd]; rfl), .inl ⟨k, rfl, rfl⟩⟩
  | error e =>
    cases e with
    | raised e => exact ⟨_, exec_decode_of_response hp (by rw [hd]; rfl), .inr (.inl ⟨e, rfl, rfl⟩)⟩
    | broken f => exact (decodeFrame_raises _ hd).elim

/-- Settles O33: the frame decoder finds other traffic by the resolved ethertype alone. -/
theorem noneMeansOtherTraffic : Obligations.NoneMeansOtherTraffic := by
  intro s start hp
  rw [exec_decode_none_iff hp, decodeFrame_eq_none]
  refine and_congr_right fun hle => ⟨?_, ?_⟩
  · rintro ⟨vlan, et, o, hd, hne⟩
    rcases decodeVlan_eq_ok hd with ⟨hw, hv⟩ | ⟨hw, h18, hinner⟩
    · obtain ⟨hi, lo, hm, rfl⟩ := memRead16_eq_ok.mp hw
      exact ⟨hi, lo, hm, .inl ⟨hv, hne⟩⟩
    · obtain ⟨hi, lo, hm, hv⟩ := memRead16_eq_ok.mp hw
      obtain ⟨hi', lo', hm', rfl⟩ := memRead16_eq_ok.mp hinner
      exact ⟨hi, lo, hm, .inr ⟨hv, h18, hi', lo', hm', hne⟩⟩
  · rintro ⟨hi, lo, hm, ⟨hv, hne⟩ | ⟨hv, h18, hi', lo', hm', hne⟩⟩
    · exact ⟨_, _, _, decodeVlan_untagged (memRead16_of_memRead hm) hv, hne⟩
    · exact ⟨_, _, _, decodeVlan_tagged (hv ▸ memRead16_of_memRead hm) (memRead16_of_le (by omega))
        (memRead16_of_memRead hm'), hne⟩

/-- Settles O34: a GOOSE frame's trailer was read at the PDU's declared end, six bytes before the buffer's. -/
theorem trailerIsTheLastSixBytes : Obligations.TrailerIsTheLastSixBytes := by
  intro cfg m start k r hk hr
  obtain ⟨-, -, -, -, -, ⟨-, hnone⟩ | ⟨-, k', e, hsome, hprp⟩⟩ := decodeFrame_eq_ok hk
  · cases hnone
  · cases hsome
    rw [hr] at hprp
    obtain ⟨hlen, hseq, hword, hmark⟩ := decodePrp_eq_some hprp
    refine ⟨_, by omega, ?_, ?_, ?_, rfl⟩
    · rwa [show m.len - 6 = e by omega]
    · rwa [show m.len - 4 = e + 2 by omega]
    · rwa [show m.len - 2 = e + 4 by omega]

end

section
/-! SUPPORT. The bytes of a frame as one string of parts, what DECODE makes of them, and the obligations of
43_frame_codec.md about writing a frame and reading it back. -/

namespace Sys2Proof.Machine

/-! ### The bytes of a packet -/

/-- The VLAN tag of a frame, where it has one (R212). -/
def vlanBytes (cfg : Cfg) : Option (BitVec 12) → List Byte
  | some vid => word16Bytes cfg.ethertypeVlan ++ word16Bytes (vid.setWidth 16)
  | none => []

/-- The four words of a GOOSE header (R205). -/
def gooseHeaderBytes (g : GooseHeader) : List Byte :=
  word16Bytes g.appid ++ (word16Bytes g.length ++ (word16Bytes g.reserved1 ++ word16Bytes g.reserved2))

/-- The PRP trailer of a frame, where it has one (R81, R215). -/
def prpBytes (cfg : Cfg) : Option PrpTrailer → List Byte
  | some r => word16Bytes r.seq ++ (word16Bytes (lanId cfg r.lan ++ r.size) ++ word16Bytes cfg.prpSuffix)
  | none => []

/-- The frame whose every field is the packet's own, around the PDU bytes `p`. ENCODE writes it for the packet with its
computed fields filled in: `frameBytes_eq`. -/
def packetBytes (cfg : Cfg) (k : GoosePacket) (p : List Byte) : List Byte :=
  k.eth.dst.toList ++ (k.eth.src.toList ++ (vlanBytes cfg k.eth.vlan ++ (word16Bytes cfg.ethertypeGoose ++
    (gooseHeaderBytes k.goose ++ (p ++ prpBytes cfg k.prp)))))

/-- A packet with the fields ENCODE computes for a PDU of `pl` bytes (R214, R215, R218). -/
def computed (k : GoosePacket) (pl : Nat) : GoosePacket :=
  { k with
    goose := { k.goose with length := BitVec.ofNat 16 (pl + 8), reserved1 := 0#16, reserved2 := 0#16 }
    prp := k.prp.map fun r => { r with size := BitVec.ofNat 12 (8 + pl + 6) } }

section
variable {cfg : Cfg} {k : GoosePacket} {p f : List Byte} {start : Nat}

@[simp] theorem gooseHeaderBytes_length (g : GooseHeader) : (gooseHeaderBytes g).length = 8 := by
  simp [gooseHeaderBytes]

theorem bytesBE_two (v : Nat) : bytesBE v 2 = word16Bytes (BitVec.ofNat 16 v) :=
  be_inj (by simp) (by simp [word16Bytes])

/-- The LAN designator above the size, as the number ENCODE writes (R215). -/
theorem lan_append_size {id : BitVec 4} {n : Nat} (h : n < 0x1000) :
    id ++ BitVec.ofNat 12 n = BitVec.ofNat 16 (id.toNat * 0x1000 + n) := by
  apply BitVec.eq_of_toNat_eq
  have hid := id.isLt
  rw [BitVec.toNat_append, ← Nat.shiftLeft_add_eq_or_of_lt (BitVec.isLt _), Nat.shiftLeft_eq, BitVec.toNat_ofNat,
    BitVec.toNat_ofNat]
  omega

/-- ENCODE writes the packet with its computed fields, where the sizes fit them (R211 to R217). -/
theorem frameBytes_eq (h : ¬ Overflows k p.length) : frameBytes cfg k p = packetBytes cfg (computed k p.length) p := by
  obtain ⟨-, h12⟩ := not_or.mp h
  have hz : word16Bytes 0#16 = [0x00#8, 0x00#8] := by decide
  rw [frameBytes, packetBytes, computed, gooseHeaderBytes, hz]
  cases hr : k.prp with
  | none => cases k.eth.vlan <;> simp [vlanBytes, prpBytes, bytesBE_two]
  | some r =>
    have hsize : 8 + p.length + 6 < 0x1000 := by simp only [hr, Option.isSome_some, true_and] at h12; omega
    cases k.eth.vlan <;> simp [vlanBytes, prpBytes, bytesBE_two, lan_append_size hsize]

/-- A frame that ENCODE computes: its PDU has `pduSize` bytes and the sizes fit their fields (R217). -/
theorem encodeFrame_eq_ok (h : encodeFrame cfg k start = .ok f) :
    ∃ p, encodePdu cfg start k.pdu = .ok p ∧ p.length = pduSize cfg k.pdu ∧ ¬ Overflows k p.length ∧
      f = packetBytes cfg (computed k p.length) p := by
  cases hp : encodePdu cfg start k.pdu with
  | error e => exact absurd ((encodeFrame_of_pdu_error hp).symm.trans h) raise_ne_ok
  | ok p =>
    by_cases ho : Overflows k p.length
    · exact absurd ((encodeFrame_of_overflows hp ho).symm.trans h) raise_ne_ok
    · refine ⟨p, rfl, (encodePdu_writesSize _).length hp, ho, ?_⟩
      rw [← frameBytes_eq ho]
      exact Except.ok.inj (h.symm.trans (encodeFrame_of_fits hp ho))

end

/-! ### What ENCODE reads of a packet -/

section
variable {cfg : Cfg} {k k' : GoosePacket} {start : Nat} {s : State} {macs tag rest : List Byte}

/-- Of the trailer ENCODE reads the sequence number and the LAN, of the GOOSE header the APPID (R210 to R218). -/
theorem encodeFrame_congr (heth : k'.eth = k.eth) (happid : k'.goose.appid = k.goose.appid)
    (hpdu : encodePdu cfg start k'.pdu = encodePdu cfg start k.pdu)
    (hprp : k'.prp.map (fun r => (r.seq, r.lan)) = k.prp.map fun r => (r.seq, r.lan)) :
    encodeFrame cfg k' start = encodeFrame cfg k start := by
  have hsome : k'.prp.isSome = k.prp.isSome := by
    rw [← Option.isSome_map, hprp, Option.isSome_map]
  have hbytes : frameBytes cfg k' = frameBytes cfg k := by
    funext p
    rw [frameBytes, frameBytes, heth, happid]
    cases hk : k.prp with
    | none =>
      rw [hk, Option.map_none] at hprp
      rw [Option.map_eq_none_iff.mp hprp]
    | some r =>
      rw [hk, Option.map_some] at hprp
      obtain ⟨r', hr', heq⟩ := Option.map_eq_some_iff.mp hprp
      obtain ⟨hseq, hlan⟩ := Prod.mk.inj heq
      simp only [hr', hseq, hlan]
  rw [encodeFrame, encodeFrame, hpdu, hsome, hbytes]

theorem exec_encode_congr (h : encodeFrame s.cfg k' start = encodeFrame s.cfg k start) (hand : Option Memory) :
    exec (.encode k' hand start) s = exec (.encode k hand start) s := by
  change execEncode k' hand start s = execEncode k hand start s
  rw [execEncode, execEncode, encodeInto, encodeInto, h]

/-- Four bytes put in behind the MAC addresses move what follows them and nothing else (R219). -/
theorem insert_after_macs (hm : macs.length = 12) (ht : tag.length = 4) :
    (macs ++ (tag ++ rest)).length = (macs ++ rest).length + 4 ∧
      (macs ++ (tag ++ rest)).take 12 = (macs ++ rest).take 12 ∧
      (macs ++ (tag ++ rest)).drop 16 = (macs ++ rest).drop 12 ∧ ((macs ++ (tag ++ rest)).drop 12).take 4 = tag := by
  refine ⟨?_, ?_, ?_, ?_⟩
  · simp only [List.length_append, ht]
    omega
  · rw [List.take_left' hm, List.take_left' hm]
  · rw [List.drop_left' hm, ← List.append_assoc, List.drop_left' (by rw [List.length_append, hm, ht])]
  · rw [List.drop_left' hm, List.take_left' ht]

end

/-! ### Frames that read back -/

section
variable {cfg : Cfg} {m : Memory} {a : Nat} {k : GoosePacket} {d : GoosePdu} {p : List Byte}

/-- The VLAN tag and the ethertype behind it, or the ethertype alone (R203). -/
theorem decodeVlan_reads {vlan : Option (BitVec 12)} (hne : cfg.ethertypeGoose ≠ cfg.ethertypeVlan)
    (hv : memRead m (a + 12) (vlanBytes cfg vlan).length = .ok (vlanBytes cfg vlan))
    (he : memRead m (a + 12 + (vlanBytes cfg vlan).length) (word16Bytes cfg.ethertypeGoose).length =
      .ok (word16Bytes cfg.ethertypeGoose)) :
    decodeVlan cfg m a = .ok (vlan, cfg.ethertypeGoose, a + 14 + (vlanBytes cfg vlan).length) := by
  have he := memRead16_of_word16Bytes he
  cases vlan with
  | none => exact decodeVlan_untagged he hne
  | some vid =>
    obtain ⟨hmark, htci⟩ := memRead_append.mp hv
    have hvid : (vid.setWidth 16).extractLsb' 0 12 = vid := BitVec.eq_of_toNat_eq (by simp [Nat.mod_eq_of_lt vid.isLt])
    rw [decodeVlan_tagged (memRead16_of_word16Bytes hmark) (memRead16_of_word16Bytes htci) he, hvid]
    rfl

theorem decodeGooseHeader_reads {g : GooseHeader}
    (h : memRead m a (gooseHeaderBytes g).length = .ok (gooseHeaderBytes g)) : decodeGooseHeader m a = .ok g := by
  obtain ⟨happid, h⟩ := memRead_append.mp h
  obtain ⟨hlen, h⟩ := memRead_append.mp h
  obtain ⟨hr1, hr2⟩ := memRead_append.mp h
  have hr2 := memRead16_of_word16Bytes hr2
  have hin := memRead16_in_bounds hr2
  simp only [word16Bytes_length, Nat.add_assoc, Nat.reduceAdd] at hlen hr1 hr2 hin
  rw [decodeGooseHeader, if_neg (by omega)]
  simp only [bind, Except.bind, memRead16_of_word16Bytes happid, memRead16_of_word16Bytes hlen,
    memRead16_of_word16Bytes hr1, hr2, pure, Except.pure]

/-- A trailer that ends the buffer is read, and none is where the buffer ends with the PDU (R207, R208). -/
theorem decodePrp_reads {r : Option PrpTrailer} (hlan : cfg.prpLanA ≠ cfg.prpLanB)
    (h : memRead m a (prpBytes cfg r).length = .ok (prpBytes cfg r)) (hend : a + (prpBytes cfg r).length = m.len) :
    decodePrp cfg m a = .ok r := by
  cases r with
  | none => exact decodePrp_absent (trailerPresent_of_ne (by simp [prpBytes] at hend; omega))
  | some r =>
    obtain ⟨hseq, h⟩ := memRead_append.mp h
    obtain ⟨hword, hmark⟩ := memRead_append.mp h
    have ht := trailerPresent_of_marker (cfg := cfg) (by simpa [prpBytes] using hend) (memRead16_of_word16Bytes hmark)
    rw [decide_eq_true rfl] at ht
    rw [decodePrp_present ht (memRead16_of_word16Bytes hseq) (memRead16_of_word16Bytes hword) (lan := r.lan)
      (by rw [BitVec.extractLsb'_append_eq_left, lanOf_lanId hlan]), BitVec.extractLsb'_append_eq_right]

/-- A frame that ends the buffer reads back as its packet, with what its PDU reads back as (R200). -/
theorem decodeFrame_packetBytes (hc : cfg.Valid) (hp : FieldReads m (decodePdu cfg m) p d)
    (h : memRead m a (packetBytes cfg k p).length = .ok (packetBytes cfg k p))
    (hend : a + (packetBytes cfg k p).length = m.len) :
    decodeFrame cfg m a = .ok (some { k with pdu := d }) := by
  obtain ⟨-, hne, hlan, -⟩ := hc
  obtain ⟨hdst, h⟩ := memRead_append.mp h
  obtain ⟨hsrc, h⟩ := memRead_append.mp h
  obtain ⟨hvlan, h⟩ := memRead_append.mp h
  obtain ⟨het, h⟩ := memRead_append.mp h
  obtain ⟨hgoose, h⟩ := memRead_append.mp h
  obtain ⟨hpdu, hprp⟩ := memRead_append.mp h
  simp only [Vector.length_toList, word16Bytes_length, gooseHeaderBytes_length] at hdst hsrc hvlan het hgoose hpdu hprp
  have ho : a + 6 + 6 + (vlanBytes cfg k.eth.vlan).length + 2 = a + 14 + (vlanBytes cfg k.eth.vlan).length := by omega
  rw [ho] at hgoose hpdu hprp
  simp only [packetBytes, List.length_append, Vector.length_toList, word16Bytes_length, gooseHeaderBytes_length] at hend
  have htrailer := decodePrp_reads hlan hprp (by omega)
  have hframe := decodeFrame_goose (k := { k with pdu := d }) hdst hsrc (decodeVlan_reads hne hvlan het)
    (decodeGooseHeader_reads hgoose) (hp _ hpdu) htrailer (by omega)
  rwa [octets_toList, octets_toList] at hframe

end

/-! ### Sizes of lists -/

section
variable {cfg : Cfg}

/-- Every value takes at least its tag byte (R158). -/
theorem valueSize_pos (x : Value) : 1 ≤ valueSize cfg x := by
  cases x <;> rw [valueSize, tlvSize] <;> omega

theorem length_le_valuesSize (xs : List Value) : xs.length ≤ valuesSize cfg (Values.ofList xs) := by
  induction xs with
  | nil => exact Nat.zero_le _
  | cons x xs ih =>
    have := valueSize_pos (cfg := cfg) x
    rw [Values.ofList, valuesSize, List.length_cons]
    omega

/-- A PDU takes at least a byte for each of its elements (R183). -/
theorem allData_length_le_pduSize (d : GoosePdu) : d.allData.length ≤ pduSize cfg d :=
  calc d.allData.length
    _ ≤ valuesSize cfg (Values.ofList d.allData) := length_le_valuesSize _
    _ ≤ tlvSize cfg (valuesSize cfg (Values.ofList d.allData)) := le_tlvSize _ _
    _ ≤ _ := Nat.le_add_left _ _
    _ ≤ pduSize cfg d := le_tlvSize _ _

end

/-! ### The round trip -/

section
variable {cfg : Cfg} {m : Memory} {a start : Nat} {k : GoosePacket} {f : List Byte}

/-- A frame that ENCODE computes and that ends the buffer reads back as the packet with its computed fields, its
elements in normal form (R221). -/
theorem decodeFrame_reads (hc : cfg.Valid) (hf : encodeFrame cfg k start = .ok f)
    (hm : memRead m a f.length = .ok f) (hend : a + f.length = m.len) :
    decodeFrame cfg m a = .ok (some { computed k (pduSize cfg k.pdu) with pdu := normPdu k.pdu }) := by
  obtain ⟨p, hp, hl, hfits, rfl⟩ := encodeFrame_eq_ok hf
  obtain ⟨h16, -⟩ := not_or.mp hfits
  have hcount := allData_length_le_pduSize (cfg := cfg) k.pdu
  rw [← hl]
  exact decodeFrame_packetBytes hc (decodePdu_reads hc (by omega) hp) hm hend

end

end Sys2Proof.Machine

open Sys2Proof Sys2Proof.Machine

/-- Settles O44: the frame stands at the offset and ends the cut buffer, so `decodeFrame_reads` reads it back. -/
theorem framesRoundTrip : Obligations.FramesRoundTrip := by
  intro s t k hand start n hc hw h hout
  rcases execEncode_eq_next h with ⟨m, n', hm, rfl⟩ | ⟨e, -, rfl⟩
  · obtain rfl : n' = n := by simpa using hout
    obtain ⟨f, hf, rfl, hwrite⟩ := encodeInto_eq_ok hm
    obtain ⟨hle, -, -⟩ := memWrite_eq_ok hwrite
    have hin : start + f.length ≤ m.len := memWrite_len hwrite ▸ hle
    have hread : memRead (memCut m (start + f.length)) start f.length = .ok f :=
      (memRead_memCut (Nat.le_refl _) hin).trans (memRead_memWrite_same hw hwrite)
    have hd := decodeFrame_reads hc hf hread (by rw [memCut_len]; omega)
    exact exec_decode_of_response rfl (by
      simp only [endTransaction_buf, endTransaction_cfg, handOver_cfg, handOver_some_buf, hd, decodeResponse]
      rfl)
  · cases hout

/-- Settles O37: what ENCODE reads of the two packets is the same. -/
theorem computedFieldsAreNotRead : Obligations.ComputedFieldsAreNotRead := by
  intro s k hand start l r1 r2 count size
  refine exec_encode_congr ?_ hand
  exact encodeFrame_congr rfl rfl rfl (Option.map_map _ _ _)

/-- Settles O38: both frames are `packetBytes` around the same PDU bytes, and differ in the VLAN tag alone. -/
theorem vlanAddsFourBytes : Obligations.VlanAddsFourBytes := by
  intro cfg k vid start f f' hv hf hf'
  obtain ⟨p, hp, -, -, rfl⟩ := encodeFrame_eq_ok hf
  obtain ⟨p', hp', -, -, rfl⟩ := encodeFrame_eq_ok hf'
  obtain rfl : p = p' := Except.ok.inj (hp.symm.trans hp')
  simp only [packetBytes, computed, hv, vlanBytes, List.nil_append]
  rw [← List.append_assoc k.eth.dst.toList, ← List.append_assoc k.eth.dst.toList]
  exact insert_after_macs (by simp) (by simp)

/-- Settles O39: both frames are `packetBytes` around the same PDU bytes, and differ in the trailer alone. -/
theorem prpAddsSixBytes : Obligations.PrpAddsSixBytes := by
  intro cfg k r start f f' hr hf hf'
  obtain ⟨p, hp, hl, -, rfl⟩ := encodeFrame_eq_ok hf
  obtain ⟨p', hp', -, -, rfl⟩ := encodeFrame_eq_ok hf'
  obtain rfl : p = p' := Except.ok.inj (hp.symm.trans hp')
  simp only [packetBytes, computed, hr, prpBytes, Option.map_none, Option.map_some, hl, List.append_assoc,
    List.append_nil]

end

section
/-! SUPPORT. How a transaction starts, goes on and ends, and the obligations of 10_state.md and 70_reset_and_hazards.md
that rest on it. -/

namespace Sys2Proof.Machine

section
variable {s t : State} {i : Instr} {n hdr start : Nat} {tag : Byte}

/-! ### The end of a lone DECODE_TAG_LENGTH -/

/-- In an exposed DECODE_TAG_LENGTH a length row whose content lies in the buffer is the result (R101). -/
theorem commit_latchHeader_alone (he : s.work.entry = .tagLength) (ht : memByte? s.buf s.work.pos = some tag)
    (h : s.work.pos + hdr + n ≤ s.buf.len) :
    commit s (latchHeader hdr n s) = .next (endTransaction (.tagLength (.ok (tag, n, s.work.pos + hdr))) s) := by
  obtain ⟨hlt, rfl⟩ := memByte?_eq_some.mp ht
  rw [latchHeader, contentInBuffer_eq_ok (u := ()).mpr h, memReadByte_of_lt hlt, he]
  rfl

/-! ### What is fetched in any state -/

/-- No request is ever fetched: a request is no byte string (R25). -/
theorem fetch_not_request (h : fetch s = .ok i) : isRequestInstr i = false := by
  unfold fetch at h
  split at h
  · cases h
  · exact (decodeEthertype_within (first := true) (fetchAt_eq_ok.mp h)).notRequest
  · exact (decodeEthertype_within (first := false) (fetchAt_eq_ok.mp h)).notRequest
  · exact (decodeLength_advance (fetchAt_eq_ok.mp h)).1
  · obtain ⟨c, -, hi⟩ := bind_eq_ok.mp h
    exact Except.ok.inj hi ▸ tagInstr_not_request _ _ _ _ _
  · exact (decodeTrailer_within (fetchAt_eq_ok.mp h)).notRequest

/-! ### Where a transaction goes -/

/-- The transaction is over with an outcome and no working value, or it goes on with the cursor no further back than
`pos`, or at the trailer that stands at `pduEnd`. -/
def Proceeds (pos pduEnd : Nat) (t : State) : Prop :=
  t.work = Work.idle ∧ t.outcome.isSome ∨
    t.work.phase ≠ .idle ∧ (pos ≤ t.work.pos ∨ t.work.phase = .trailer ∧ t.work.pos = pduEnd)

theorem Proceeds.ended {pos pduEnd : Nat} (r : Response) (s : State) : Proceeds pos pduEnd (endTransaction r s) :=
  .inl ⟨rfl, rfl⟩

theorem Proceeds.goesOn {pos pduEnd : Nat} (hp : t.work.phase ≠ .idle) (h : pos ≤ t.work.pos) :
    Proceeds pos pduEnd t := .inr ⟨hp, .inl h⟩

theorem Finished.proceeds (h : Finished s t) (pos : Nat) : Proceeds pos s.work.pduEnd t := by
  obtain ⟨-, ⟨r, hw, hr⟩ | ⟨hp, hpos, -⟩⟩ := h
  · exact .inl ⟨hw, by rw [hr]; rfl⟩
  · exact .inr ⟨by simp [hp], .inr ⟨hp, hpos⟩⟩

/-- The loop test leaves the cursor where it is, unless a trailer comes next. -/
theorem closeSequences_proceeds (h : closeSequences s = .ok t) : Proceeds s.work.pos s.work.pduEnd t := by
  rcases closeSequences_spec s with ⟨e, -, -, h'⟩ | h' | ⟨u, h', hf⟩ | ⟨-, -, h'⟩
  · obtain rfl := Except.ok.inj (h'.symm.trans h)
    exact .goesOn (by simp) (Nat.le_refl _)
  · simp [h'] at h
  · obtain rfl := Except.ok.inj (h'.symm.trans h)
    exact hf.proceeds _
  · simp [h'] at h

/-- A lower start is as good. -/
theorem Proceeds.mono {pos pos' pduEnd : Nat} (h : Proceeds pos' pduEnd t) (hle : pos ≤ pos') :
    Proceeds pos pduEnd t :=
  h.imp_right fun ⟨hp, hc⟩ => ⟨hp, hc.imp_left hle.trans⟩

theorem headerDone_ne_idle {p : Phase} (hp : p ≠ .idle) : headerDone p ≠ .idle := by
  cases p with
  | header ctx => exact nofun
  | _ => exact hp

/-- Every instruction of a transaction ends it cleanly or moves the cursor on (R23, R244). -/
theorem Effect.proceeds (h : Effect s i t) (hp : s.work.phase ≠ .idle) : Proceeds s.work.pos s.work.pduEnd t := by
  cases h with
  | ended r => exact .ended r s
  | delivered h => exact (closeSequences_proceeds h).mono (Nat.le_add_right _ _)
  | entered h | allDataOpened h => exact (closeSequences_proceeds h).mono (Nat.le_refl _)
  | latched _ _ h =>
    obtain ⟨-, tag, -, ⟨-, rfl⟩ | ⟨-, rfl⟩⟩ := latchHeader_eq_ok h
    · exact .ended _ s
    · exact .goesOn (headerDone_ne_idle hp) (Nat.le_add_right _ _)
  | pduOpened => exact .goesOn (by simp) (Nat.le_refl _)
  | fielded | vlanRead | gooseRead => exact .goesOn (by simp) (Nat.le_add_right _ _)

/-- A step within a transaction ends it cleanly or moves the cursor on, and changes nothing outside the working values
and the outcome. -/
theorem step_proceeds (hp : s.work.phase ≠ .idle) (h : step s = .next t) :
    SameBlock s t ∧ Proceeds s.work.pos s.work.pduEnd t := by
  cases hf : fetch s with
  | ok i =>
    rw [step_of_fetch hp hf] at h
    have hi := exec_effect (fetch_not_request hf) h
    exact ⟨hi.sameBlock, hi.proceeds hp⟩
  | error e =>
    rw [step_of_fetch_error hp hf] at h
    obtain h | ⟨e', -, rfl⟩ := commit_eq_next.mp h
    · cases h
    · exact ⟨.ended _ s, .ended _ s⟩

/-! ### Opening a frame -/

theorem openTransaction_frame_of_lt (h : s.buf.len < start + 14) :
    openTransaction .frame start s = raise .bufferTooShort start := if_pos h

/-- A frame is opened with the MAC addresses read (R202). -/
theorem openTransaction_frame_of_le {dst src : List Byte} (h : start + 14 ≤ s.buf.len)
    (hd : memRead s.buf start 6 = .ok dst) (hs : memRead s.buf (start + 6) 6 = .ok src) :
    openTransaction .frame start s = .ok (s.withWork { Work.idle with
      phase := .ethertype, pos := start + 12, eth := ⟨octets 6 dst, octets 6 src, none⟩ }) := by
  rw [openTransaction, if_neg (by omega), Cfg.macBytes, hd, hs]
  rfl

end

end Sys2Proof.Machine

open Sys2Proof Sys2Proof.Machine

/-- Settles O54, by the alternative of `step_proceeds` that ends the transaction. -/
theorem endedTransactionsLeaveNothing : Obligations.EndedTransactionsLeaveNothing := by
  intro s t hp h ht
  obtain ⟨⟨-, hbuf, -⟩, ⟨hw, ho⟩ | ⟨hne, -⟩⟩ := step_proceeds hp h
  · exact ⟨hw, ho, hbuf⟩
  · exact absurd ht hne

/-- Settles O55, by the alternative of `step_proceeds` that goes on. -/
theorem cursorMovesForward : Obligations.CursorMovesForward := by
  intro s t hp h ht
  obtain ⟨-, ⟨hw, -⟩ | ⟨-, hc⟩⟩ := step_proceeds hp h
  · exact absurd (congrArg (·.phase) hw) ht
  · exact hc

/-- Settles O7: each row is `latchHeader` with its form's header length. -/
theorem loneTagLengthIsReturned : Obligations.LoneTagLengthIsReturned := fun _ _ he ht =>
  ⟨fun _ => commit_latchHeader_alone he ht, fun _ => commit_latchHeader_alone he ht,
    fun _ => commit_latchHeader_alone he ht, fun _ => commit_latchHeader_alone he ht,
    fun _ => commit_latchHeader_alone he ht⟩

/-- Settles O50: the block is idle and its queue is empty. -/
theorem resetHasInv : Obligations.ResetHasInv := inv_of_idle rfl (List.forall_mem_nil _) rfl

/-- Settles O57, by the first test of both requests. -/
theorem requestsMidTransactionAreRefused : Obligations.RequestsMidTransactionAreRefused := by
  intro s hp
  refine ⟨fun k hand start => ?_, fun hand start => ?_⟩
  · change execEncode k hand start s = _
    unfold execEncode
    split
    · contradiction
    · rfl
  · change execDecode hand start s = _
    unfold execDecode
    split
    · contradiction
    · rfl

/-- Settles O58: no address is below length 0, and a step takes nothing from an empty queue. -/
theorem resetIsIdle : Obligations.ResetIsIdle :=
  ⟨rfl, rfl, fun a => if_neg (Nat.not_lt_zero a), fun s hp hq => by simp only [step, hp, hq]⟩

/-- Settles O59, by the entries and the tests of each. -/
theorem transactionsStartClean : Obligations.TransactionsStartClean := by
  intro s start
  refine ⟨rfl, rfl, rfl, fun bound h => if_pos h, fun bound h => if_neg (by omega), openTransaction_frame_of_lt,
    fun h => ?_⟩
  have hd := memRead_of_le (m := s.buf) (a := start) (n := 6) (by omega)
  have hs := memRead_of_le (m := s.buf) (a := start + 6) (n := 6) (by omega)
  have hdl := toList_octets (memRead_length hd)
  have hsl := toList_octets (memRead_length hs)
  exact ⟨_, _, hd.trans (congrArg _ hdl.symm), hs.trans (congrArg _ hsl.symm), openTransaction_frame_of_le h hd hs⟩

end

section
/-! SUPPORT. A stepwise DECODE against the whole-frame decoder: what each step is in terms of the decoder's own
operations, a relation between a state and the decoder's answer from there on, and the obligation of 43_frame_codec.md
that the two end alike. -/

namespace Sys2Proof.Machine

section
variable {s : State} {ctx : TagContext} {tag l0 : Byte} {pos hdr n : Nat} {cfg : Cfg} {m : Memory}

/-! ### A header step is DECODE_TAG_LENGTH -/

/-- DECODE_TAG_LENGTH by the first length octet (R101). -/
theorem decodeTagLength_eq (ht : memByte? m pos = some tag) (hl : memByte? m (pos + 1) = some l0) :
    decodeTagLength cfg m pos =
      if l0.toNat < 0x80 then contentInBuffer m pos 2 l0.toNat >>= fun _ => .ok (tag, l0.toNat, pos + 2)
      else if l0.toNat = 0x80 ∨ l0.toNat > 0x80 + cfg.maxLenOctets then raise .malformedLength pos
      else longLength m pos (l0.toNat - 0x80) >>= fun len =>
        contentInBuffer m pos (2 + (l0.toNat - 0x80)) len >>= fun _ =>
          .ok (tag, len, pos + (2 + (l0.toNat - 0x80))) := by
  obtain ⟨hlt, rfl⟩ := memByte?_eq_some.mp ht
  obtain ⟨hlt', rfl⟩ := memByte?_eq_some.mp hl
  rw [decodeTagLength, if_neg (by omega), memReadByte_of_lt hlt, memReadByte_of_lt hlt']
  rfl

/-- The state that holds what DECODE_TAG_LENGTH answers. -/
def State.hold (s : State) (ctx : TagContext) (r : Byte × Nat × Nat) : State :=
  s.headed ctx r.1 (r.2.2 - s.work.pos) r.2.1

/-- Outside an exposed DECODE_TAG_LENGTH a header is held exactly where its content lies in the buffer (R101). -/
theorem latchHeader_eq (hp : s.work.phase = .header ctx) (he : s.work.entry ≠ .tagLength)
    (ht : memByte? s.buf s.work.pos = some tag) :
    latchHeader hdr n s = (contentInBuffer s.buf s.work.pos hdr n >>= fun _ => .ok (tag, n, s.work.pos + hdr)) >>=
      fun r => .ok (s.hold ctx r) := by
  by_cases h : s.work.pos + hdr + n ≤ s.buf.len
  · rw [latchHeader_of_le h hp he ht, contentInBuffer_eq_ok (u := ()).mpr h]
    change _ = Except.ok (s.headed ctx tag (s.work.pos + hdr - s.work.pos) n)
    rw [Nat.add_sub_cancel_left]
  · rw [latchHeader_of_lt (by omega), contentInBuffer, if_pos (by omega)]
    rfl

/-- A header cut off in its length octets raises BufferTooShort at the tag byte (R101). -/
theorem step_at_header_cut (hp : s.work.phase = .header ctx)
    (hd : decodeLength s.cfg (bytesFrom s.buf (s.work.pos + 1)) = .error (.tooShort 0)) :
    step s = commit s (raise .bufferTooShort s.work.pos) := by
  refine step_of_fetch_error (by simp [hp]) ?_
  simp only [fetch, hp, fetchAt, decode, hd]
  rfl

/-- Every form of a length, cut off or not, is read as DECODE_TAG_LENGTH reads it (R72, R73, R101). -/
theorem step_at_header_eq (hp : s.work.phase = .header ctx) (he : s.work.entry ≠ .tagLength) :
    step s = commit s (decodeTagLength s.cfg s.buf s.work.pos >>= fun r => .ok (s.hold ctx r)) := by
  by_cases hlt : s.buf.len < s.work.pos + 2
  · rw [decodeTagLength, if_pos hlt]
    exact step_at_header_cut hp (by rw [bytesFrom_of_le (by omega)]; rfl)
  have ht : memByte? s.buf s.work.pos = some _ := memByte?_eq_some.mpr ⟨by omega, rfl⟩
  have hl : memByte? s.buf (s.work.pos + 1) = some _ := memByte?_eq_some.mpr ⟨by omega, rfl⟩
  have hbytes : bytesFrom s.buf (s.work.pos + 1) = _ :: bytesFrom s.buf (s.work.pos + 2) := bytesFrom_cons (by omega)
  rw [decodeTagLength_eq ht hl]
  generalize lookupCell (s.work.pos + 1) s.buf.cells = l0 at hbytes
  rcases decodeLength_cases s.cfg l0 (bytesFrom s.buf (s.work.pos + 2)) with
    ⟨hs, hd⟩ | ⟨hi, hd⟩ | ⟨htoo, hd⟩ | ⟨n, hn, ⟨h1, h4, hmax⟩, ⟨hcut, hd⟩ | ⟨hall, hd⟩⟩ <;> rw [← hbytes] at hd
  · have hv : (l0.setWidth 7).toNat = l0.toNat := by rw [BitVec.toNat_setWidth, Nat.mod_eq_of_lt hs]
    rw [step_at_header hp hd, if_pos hs, exec_lengthRow (li := .lenShort _) (congrArg some hv), latchHeader_eq hp he ht]
    rfl
  · rw [step_at_header hp hd, if_neg (by omega), if_pos (.inl hi)]
    rfl
  · obtain ⟨hgt, -⟩ := tooManyLengthOctets_iff.mp htoo
    rw [step_at_header hp hd, if_neg (by omega)]
    change commit s (if _ then _ else _) = _
    by_cases hmax : l0.toNat > 0x80 + s.cfg.maxLenOctets
    · rw [if_pos (.inr hmax), if_pos (.inr hmax)]
      rfl
    · rw [if_neg (by omega), if_neg (by omega), bind_assoc]
      simp only [latchHeader_eq hp he ht]
  · rw [bytesFrom_length] at hcut
    rw [step_at_header_cut hp hd, if_neg (by omega), if_neg (by omega), longLength, if_pos (by omega)]
    rfl
  · rw [bytesFrom_length] at hall
    rw [step_at_header hp hd, if_neg (by omega), if_neg (by omega), show l0.toNat - 0x80 = n by omega]
    rcases longLength_cases s.buf s.work.pos n with ⟨h, -⟩ | ⟨o, ho, e⟩
    · omega
    have hb := be_lt o
    rw [memRead_length ho] at hb
    rw [bytesFrom_take ho, exec_lengthRow (longRow_lengthValue h1 h4 hb), longRow_lengthOctetCount h1 h4,
      show 1 + (n + 1) = 2 + n by omega, latchHeader_eq hp he ht, e]
    rfl

/-! ### A word step is what the frame decoder does at that word -/

theorem bytesFrom_word (h : pos + 2 ≤ m.len) :
    ∃ hi lo, memRead16 m pos = .ok (word16 hi lo) ∧ bytesFrom m pos = hi :: lo :: bytesFrom m (pos + 2) :=
  ⟨_, _, memRead16_of_le h, by rw [bytesFrom_cons (by omega), bytesFrom_cons (by omega)]⟩

/-- The cursor is at an ethertype word: the first one of the frame, or the one behind the VLAN tag. -/
def State.AtWord (s : State) (first : Bool) : Prop :=
  first = true ∧ s.work.phase = .ethertype ∨ first = false ∧ s.work.phase = .innerEthertype

variable {first : Bool} {i : Instr} {off : Nat} {w : BitVec 16}

theorem State.AtWord.step_of_ok (hp : s.AtWord first)
    (hd : decodeEthertype s.cfg first (bytesFrom s.buf s.work.pos) = .ok i) : step s = exec i s := by
  rcases hp with ⟨rfl, hp⟩ | ⟨rfl, hp⟩
  · exact step_of_decode (q := .ethertype) (by simp [hp]) (by simp only [fetch, hp]) hd
  · exact step_of_decode (q := .innerEthertype) (by simp [hp]) (by simp only [fetch, hp]) hd

theorem State.AtWord.step_of_cut (hp : s.AtWord first)
    (hd : decodeEthertype s.cfg first (bytesFrom s.buf s.work.pos) = .error (.tooShort off)) :
    step s = .next (s.failed .bufferTooShort (s.work.pos + off)) := by
  rcases hp with ⟨rfl, hp⟩ | ⟨rfl, hp⟩
  · exact step_of_tooShort (q := .ethertype) (by simp [hp]) (by simp only [fetch, hp]) hd
  · exact step_of_tooShort (q := .innerEthertype) (by simp [hp]) (by simp only [fetch, hp]) hd

/-- The state behind the VLAN tag. -/
def State.vlanRead (s : State) (tci : BitVec 16) : State :=
  { s with
    work := { s.work with
      eth := { s.work.eth with vlan := some (tci.extractLsb' 0 12) }, pos := s.work.pos + 4, phase := .innerEthertype } }

/-- The state behind the GOOSE header, at the PDU. -/
def State.gooseRead (s : State) (g : GooseHeader) : State :=
  { s with work := { s.work with goose := g, pos := s.work.pos + 10, phase := .header .pdu } }

/-- The VLAN marker (R203): the tag is read, or its bytes end too soon. -/
theorem step_at_vlan (hp : s.work.phase = .ethertype) (hw : memRead16 s.buf s.work.pos = .ok s.cfg.ethertypeVlan) :
    step s = commit s (if s.work.pos + 6 > s.buf.len then raise .bufferTooShort (s.work.pos + 2)
      else memRead16 s.buf (s.work.pos + 2) >>= fun tci => .ok (s.vlanRead tci)) := by
  have hat : s.AtWord true := .inl ⟨rfl, hp⟩
  obtain ⟨hi, lo, hm, hv⟩ := memRead16_eq_ok.mp hw
  have hbytes := bytesFrom_of_memRead hm
  by_cases hlt : s.work.pos + 6 > s.buf.len
  · rw [if_pos hlt, commit_raise]
    refine hat.step_of_cut ?_
    rw [hbytes]
    exact decodeEthertype_cut_vlan hv (by rw [bytesFrom_length]; omega)
  · obtain ⟨t1, t0, htci, hbytes'⟩ := bytesFrom_word (m := s.buf) (pos := s.work.pos + 2) (by omega)
    obtain ⟨e1, e0, -, hbytes''⟩ := bytesFrom_word (m := s.buf) (pos := s.work.pos + 2 + 2) (by omega)
    rw [if_neg hlt, htci]
    refine hat.step_of_ok (i := .ethVlanMarker (word16 t1 t0) (word16 e1 e0)) ?_
    rw [hbytes, hbytes', hbytes'']
    exact if_pos ⟨rfl, hv⟩

/-- Any other ethertype word (R204, R205): the GOOSE header is read, or the frame is other traffic. -/
theorem State.AtWord.step_eq (hp : s.AtWord first) (hw : memRead16 s.buf s.work.pos = .ok w)
    (hv : first = true → w ≠ s.cfg.ethertypeVlan) :
    step s = commit s (if w ≠ s.cfg.ethertypeGoose then .ok (endTransaction (.decode none) s)
      else decodeGooseHeader s.buf (s.work.pos + 2) >>= fun g => .ok (s.gooseRead g)) := by
  obtain ⟨hi, lo, hm, rfl⟩ := memRead16_eq_ok.mp hw
  have hbytes := bytesFrom_of_memRead hm
  by_cases hg : word16 hi lo = s.cfg.ethertypeGoose
  · rw [if_neg (not_not.mpr hg), decodeGooseHeader]
    by_cases hlt : s.work.pos + 2 + 8 > s.buf.len
    · rw [if_pos hlt]
      refine hp.step_of_cut ?_
      rw [hbytes]
      exact decodeEthertype_cut_goose hv hg (by rw [bytesFrom_length]; omega)
    · obtain ⟨a1, a0, ha, hba⟩ := bytesFrom_word (m := s.buf) (pos := s.work.pos + 2) (by omega)
      obtain ⟨l1, l0, hl, hbl⟩ := bytesFrom_word (m := s.buf) (pos := s.work.pos + 2 + 2) (by omega)
      obtain ⟨r1, r0, hr, hbr⟩ := bytesFrom_word (m := s.buf) (pos := s.work.pos + 2 + 2 + 2) (by omega)
      obtain ⟨q1, q0, hq, hbq⟩ := bytesFrom_word (m := s.buf) (pos := s.work.pos + 2 + 2 + 2 + 2) (by omega)
      rw [if_neg hlt, ha, hl, hr, hq]
      refine hp.step_of_ok
        (i := .ethGooseEthertype ⟨word16 a1 a0, word16 l1 l0, word16 r1 r0, word16 q1 q0⟩) ?_
      rw [hbytes, hba, hbl, hbr, hbq]
      exact (if_neg (not_and.mpr hv)).trans (if_pos hg)
  · rw [if_pos hg]
    refine hp.step_of_ok (i := .ethOtherEthertype (word16 hi lo)) ?_
    rw [hbytes]
    exact (if_neg (not_and.mpr hv)).trans (if_neg hg)

/-- A trailer step is what the frame decoder does at the PDU's end (R208). -/
theorem step_at_trailer_eq (hp : s.work.phase = .trailer)
    (ht : trailerPresent s.cfg s.buf s.work.pos = .ok true) :
    step s = commit s (decodePrp s.cfg s.buf s.work.pos >>= fun r => .ok (finishFrame s r)) := by
  obtain ⟨hlen, hmark⟩ := trailerPresent_eq_true ht
  obtain ⟨s1, s0, hs, hbs⟩ := bytesFrom_word (m := s.buf) (pos := s.work.pos) (by omega)
  obtain ⟨w1, w0, hw, hbw⟩ := bytesFrom_word (m := s.buf) (pos := s.work.pos + 2) (by omega)
  have hd : decodeTrailer s.cfg (bytesFrom s.buf s.work.pos) = .ok (.prpTrailer (word16 s1 s0)
      ((word16 w1 w0).extractLsb' 12 4) ((word16 w1 w0).extractLsb' 0 12)) := by
    rw [hbs, hbw, bytesFrom_cons (by omega), bytesFrom_cons (by omega)]
    exact if_pos hmark
  rw [step_of_decode (q := .trailer) (by simp [hp]) (by simp only [fetch, hp]) hd, decodePrp, ht]
  simp only [bind, Except.bind, if_true, hs, hw]
  change execPrpTrailer _ _ _ s = _
  rw [execPrpTrailer]
  cases lanOf s.cfg ((word16 w1 w0).extractLsb' 12 4) <;> rfl

end

/-! ### The frame decoder by its parts -/

/-- The frame decoder from the PDU on (R206 to R209). -/
def decodePacket (cfg : Cfg) (m : Memory) (eth : EthernetFrameHeader) (g : GooseHeader) (p : Nat) :
    Codec (Option GoosePacket) :=
  decodePdu cfg m p >>= fun r => decodePrp cfg m r.1 >>= fun prp => .ok (some ⟨eth, g, r.2, prp⟩)

/-- The frame decoder from the resolved ethertype on (R204, R205). -/
def decodeTraffic (cfg : Cfg) (m : Memory) (eth : EthernetFrameHeader) (et : BitVec 16) (o : Nat) :
    Codec (Option GoosePacket) :=
  if et ≠ cfg.ethertypeGoose then .ok none
  else decodeGooseHeader m o >>= fun g => decodePacket cfg m eth g (o + 8)

theorem decodeFrame_eq_traffic {cfg : Cfg} {m : Memory} {p : Nat} {dst src : List Byte} (h : p + 14 ≤ m.len)
    (hd : memRead m p 6 = .ok dst) (hs : memRead m (p + 6) 6 = .ok src) :
    decodeFrame cfg m p = decodeVlan cfg m p >>= fun r =>
      decodeTraffic cfg m ⟨octets 6 dst, octets 6 src, r.1⟩ r.2.1 r.2.2 := by
  rw [decodeFrame, if_neg (by omega), Cfg.macBytes, hd, hs]
  rfl

/-! ### Runs -/

/-- Some number of steps leads from `s` to `t`. -/
def Reaches (s t : State) : Prop := ∃ n, Host.Core.run Sys2Proof.core n s = .next t

theorem Reaches.refl (s : State) : Reaches s s := ⟨0, rfl⟩

theorem run_of_step {M : Host.Core} {s t : M.State} (h : M.step s = .next t) (n : Nat) :
    M.run (n + 1) s = M.run n t := by
  rw [Host.Core.run, h]

theorem Reaches.of_step {s t u : State} (h : step s = .next t) (hr : Reaches t u) : Reaches s u := by
  obtain ⟨n, hn⟩ := hr
  exact ⟨n + 1, (run_of_step (M := Sys2Proof.core) h n).trans hn⟩

/-! ### A state that ends as the decoder answers -/

/-- From `s` the block runs to the end of the transaction, with the outcome of the decoder's answer `x`. Of a decoder
that is broken nothing is asked: `decodeFrame_raises` says that there is none. -/
def EndsAs (s : State) (x : Codec (Option GoosePacket)) : Prop :=
  ∀ r, decodeResponse x = .ok r → Reaches s (endTransaction r s)

/-- What a meaning answers in the block of `s` agrees with what the decoder answers: both raise the same error, or the
next state ends as the decoder does. -/
def Agrees (s : State) (c : Codec State) (x : Codec (Option GoosePacket)) : Prop :=
  ∀ r, decodeResponse x = .ok r → (∃ t, c = .ok t ∧ Reaches t (endTransaction r s)) ∨
    ∃ e, c = .error (.raised e) ∧ r = .decode (some (.error e))

section
variable {s t : State} {c : Codec State} {x : Codec (Option GoosePacket)} {α : Type}

theorem endTransaction_congr (h : SameBlock s t) (r : Response) : endTransaction r t = endTransaction r s := by
  obtain ⟨hcfg, hbuf, hreq⟩ := h
  simp only [endTransaction, hcfg, hbuf, hreq]

/-- Only the block of the state matters. -/
theorem Agrees.of_sameBlock (hb : SameBlock s t) (h : Agrees t c x) : Agrees s c x := by
  intro r hr
  rw [← endTransaction_congr hb]
  exact h r hr

theorem Agrees.error (e : Stop) : Agrees s (.error e) (.error e) := by
  intro r hr
  cases e with
  | raised e => exact .inr ⟨e, rfl, (Except.ok.inj hr).symm⟩
  | broken f => cases hr

/-- A computation that both run first. -/
theorem Agrees.bind {y : Codec α} {f : α → Codec State} {g : α → Codec (Option GoosePacket)}
    (h : ∀ a, y = .ok a → Agrees s (f a) (g a)) : Agrees s (y >>= f) (y >>= g) := by
  cases y with
  | ok a => exact h a rfl
  | error e => exact .error e

/-- A test that both make. -/
theorem Agrees.check {p : Prop} [Decidable p] {y : Codec α} {g : α → Codec (Option GoosePacket)} {r : ErrorReason}
    {q : Nat} (h : ¬ p → Agrees s c (y >>= g)) :
    Agrees s (if p then raise r q else c) ((if p then raise r q else y) >>= g) := by
  split
  · exact .error _
  · exact h (by assumption)

/-- The next state decides. -/
theorem EndsAs.agrees (h : EndsAs t x) (hb : SameBlock s t) : Agrees s (.ok t) x :=
  fun r hr => .inl ⟨t, rfl, endTransaction_congr hb r ▸ h r hr⟩

/-- The transaction ends with the outcome of the decoder's answer. -/
theorem Agrees.ended {r : Response} (hr : decodeResponse x = .ok r) : Agrees s (.ok (endTransaction r s)) x :=
  fun _ hr' => .inl ⟨_, rfl, Except.ok.inj (hr.symm.trans hr') ▸ .refl _⟩

/-- An error of a frame is wrapped by DECODE (R206), so a step that agrees with the decoder leads to its answer. -/
theorem Agrees.endsAs (h : Agrees s c x) (hs : step s = commit s c) (he : s.work.entry = .frame) : EndsAs s x := by
  intro r hr
  rcases h r hr with ⟨t, rfl, ht⟩ | ⟨e, rfl, rfl⟩
  · exact .of_step hs ht
  · refine .of_step hs ?_
    rw [takeError, he]
    exact .refl _

end

/-! ### Elements -/

section
variable {s : State} {ctx : TagContext}

/-- The header of an element agrees with DECODE_TAG_LENGTH: what is left is the step that dispatches the tag, whose
content can be read. -/
theorem endsAs_header {k : Byte × Nat × Nat → Codec (Option GoosePacket)} (he : s.work.entry = .frame)
    (hp : s.work.phase = .header ctx)
    (h : ∀ tag hdr len c, memRead s.buf (s.work.pos + hdr) len = .ok c →
      step (s.headed ctx tag hdr len) = exec (tagInstr s.cfg ctx tag len c) (s.headed ctx tag hdr len) →
      EndsAs (s.headed ctx tag hdr len) (k (tag, len, s.work.pos + hdr))) :
    EndsAs s (decodeTagLength s.cfg s.buf s.work.pos >>= k) := by
  refine Agrees.endsAs (.bind fun ⟨tag, len, v⟩ hd => ?_) (step_at_header_eq hp (by simp [he])) he
  obtain ⟨-, hv, hin, -⟩ := decodeTagLength_eq_ok hd
  obtain ⟨hdr, rfl⟩ : ∃ hdr, v = s.work.pos + hdr := ⟨v - s.work.pos, by omega⟩
  have hc := memRead_of_le hin
  refine EndsAs.agrees ?_ ⟨rfl, rfl, rfl⟩
  rw [State.hold, Nat.add_sub_cancel_left]
  exact h tag hdr len _ hc (step_at_tag rfl hc)

/-- The state in which elements have been read up to `q` and the current list is `xs`; what their headers left behind is
`h`'s. -/
def State.readTo (s : State) (h : Work) (q : Nat) (xs : List Value) : State :=
  { s with
    work := { s.work with
      phase := h.phase, tagPos := h.tagPos, tag := h.tag, len := h.len, pos := q, items := xs } }

/-- A container that the cursor has passed is left. -/
theorem closeSequences_leaves {f : Frame} {fs : List Frame} {e : Nat} (hs : s.work.stack = f :: fs)
    (hb : s.work.endBound = some e) (hle : e ≤ s.work.pos) :
    closeSequences s = closeSequences { s with
      work := { s.work with
        stack := fs, endBound := f.endBound, items := f.items ++ [wrapItems f.kind s.work.items] } } := by
  simp only [closeSequences_eq, State.unwound, hs, hb, unwind_of_le hle]

/-- Two ladders of the same tests agree where their rungs do. -/
theorem exec_ite {p : Prop} [Decidable p] {i j : Instr} {x y : Codec Value} {g : Value → Codec State}
    (h : exec i s = commit s (x >>= g)) (h' : exec j s = commit s (y >>= g)) :
    exec (if p then i else j) s = commit s ((if p then x else y) >>= g) := by
  split
  · exact h
  · exact h'

/-- A scalar row is the scalar arms of DECODE_ELEMENT, then its delivery (R141). -/
theorem exec_valueInstr_scalar {tag : Byte} {len : Nat} {c : List Byte} (ha : tag ≠ s.cfg.tagArray)
    (hst : tag ≠ s.cfg.tagStructure) :
    exec (valueInstr s.cfg tag len c) s =
      commit s (decodeScalar s.cfg s.work.tagPos tag c >>= fun x => deliver c.length x s) := by
  rw [valueInstr, if_neg ha, if_neg hst, decodeScalar]
  have boolean : exec (.boolean c) s = commit s
      ((decBoolean s.work.tagPos c >>= fun b => pure (.boolean b)) >>= fun x => deliver c.length x s) := by
    rw [bind_assoc]
    rfl
  exact exec_ite boolean <| exec_ite rfl <| exec_ite rfl <| exec_ite rfl <| exec_ite rfl <| exec_ite rfl <|
    exec_ite rfl <| exec_ite rfl <| exec_ite rfl rfl

/-- A stepwise element agrees with DECODE_ELEMENT of this fuel (R141), if what follows the element agrees: the loop test
with the value in the list, wherever the element ended. -/
def ElementAgrees (fuel : Nat) : Prop :=
  ∀ (s : State) (k : Nat × Value → Codec (Option GoosePacket)), s.work.entry = .frame →
    s.work.phase = .header .value →
    (∀ h q x, Agrees s (closeSequences (s.readTo h q (s.work.items ++ [x]))) (k (q, x))) →
    EndsAs s (decodeElement s.cfg s.buf fuel s.work.pos >>= k)

/-- The loop test of a stepwise sequence agrees with DECODE_SEQUENCE of this fuel (R154), if what follows the sequence
agrees: the loop test once more, with the sequence read and the cursor at its bound or past it. -/
def SequenceAgrees (fuel : Nat) : Prop :=
  ∀ (s : State) (k : Nat × List Value → Codec (Option GoosePacket)) (bound : Nat), s.work.entry = .frame →
    s.work.endBound = some bound →
    (∀ h q xs, bound ≤ q → Agrees s (closeSequences (s.readTo h q (s.work.items ++ xs))) (k (q, xs))) →
    Agrees s (closeSequences s) (decodeSequence s.cfg s.buf fuel s.work.pos bound >>= k)

/-- A container's content is a sequence, after which the container is one value of the list around it (R151, R152). -/
theorem SequenceAgrees.container {fuel : Nat} (ih : SequenceAgrees fuel) {k : Nat × Value → Codec (Option GoosePacket)}
    (kind : ContainerKind) (n : Nat) (he : s.work.entry = .frame)
    (hk : ∀ h q x, Agrees s (closeSequences (s.readTo h q (s.work.items ++ [x]))) (k (q, x))) :
    Agrees s (enterContainer kind n s)
      ((decodeSequence s.cfg s.buf fuel s.work.pos (s.work.pos + n) >>= fun r => pure (r.1, wrapItems kind r.2)) >>=
        k) := by
  rw [bind_assoc, enterContainer]
  refine Agrees.of_sameBlock ⟨rfl, rfl, rfl⟩ (ih { s with
    work := { s.work with
      stack := ⟨kind, s.work.endBound, s.work.items⟩ :: s.work.stack, endBound := some (s.work.pos + n)
      items := [] } } _ _ he rfl fun h q xs hq => ?_)
  rw [closeSequences_leaves rfl rfl hq]
  exact (hk h q (wrapItems kind xs)).of_sameBlock ⟨rfl, rfl, rfl⟩

theorem SequenceAgrees.element {fuel : Nat} (ih : SequenceAgrees fuel) : ElementAgrees (fuel + 1) := by
  intro s k he hp hk
  rw [decodeElement, bind_assoc]
  refine endsAs_header he hp fun tag hdr len c hc hstep => ?_
  have hk' : ∀ h q x, Agrees (s.headed .value tag hdr len)
      (closeSequences ((s.headed .value tag hdr len).readTo h q (s.work.items ++ [x]))) (k (q, x)) :=
    fun h q x => (hk h q x).of_sameBlock ⟨rfl, rfl, rfl⟩
  simp only [tagInstr] at hstep
  by_cases ha : tag = s.cfg.tagArray
  · rw [valueInstr, if_pos ha] at hstep
    simp only [if_pos ha]
    exact (ih.container (s := s.headed .value tag hdr len) .array len he hk').endsAs hstep he
  by_cases hst : tag = s.cfg.tagStructure
  · rw [valueInstr, if_neg ha, if_pos hst] at hstep
    simp only [if_neg ha, if_pos hst]
    exact (ih.container (s := s.headed .value tag hdr len) .struct len he hk').endsAs hstep he
  refine Agrees.endsAs ?_ (hstep.trans (exec_valueInstr_scalar (s := s.headed .value tag hdr len) ha hst)) he
  simp only [if_neg ha, if_neg hst, hc]
  change Agrees _ _ ((decodeScalar s.cfg s.work.pos tag c >>= fun x => pure (s.work.pos + hdr + len, x)) >>= k)
  rw [bind_assoc, memRead_length hc]
  exact .bind fun x _ => hk' (s.headed .value tag hdr len).work _ x

/-- One more element and the rest of the sequence, or the end of it. -/
theorem SequenceAgrees.succ {fuel : Nat} (ihe : ElementAgrees fuel) (ihs : SequenceAgrees fuel) :
    SequenceAgrees (fuel + 1) := by
  intro s k bound he hb hk
  rw [decodeSequence]
  by_cases hlt : s.work.pos < bound
  · rw [if_pos hlt, closeSequences_of_lt hb hlt, bind_assoc]
    refine EndsAs.agrees (ihe { s with work := { s.work with phase := .header .value } } _ he rfl ?_) ⟨rfl, rfl, rfl⟩
    intro h q x
    simp only [bind_assoc]
    refine ihs (s.readTo h q (s.work.items ++ [x])) _ bound he hb fun h' q' xs hq => ?_
    have happend := (List.append_cons s.work.items x xs).symm
    exact happend ▸ (hk h' q' (x :: xs) hq).of_sameBlock ⟨rfl, rfl, rfl⟩
  · rw [if_neg hlt]
    have hend := hk s.work s.work.pos [] (by omega)
    rw [List.append_nil] at hend
    exact hend

theorem element_sequence_agree (fuel : Nat) : ElementAgrees fuel ∧ SequenceAgrees fuel := by
  induction fuel with
  | zero => exact ⟨fun _ _ _ _ _ _ h => (by cases h), fun _ _ _ _ _ _ _ h => (by cases h)⟩
  | succ fuel ih => exact ⟨ih.2.element, .succ ih.1 ih.2⟩

/-! ### The end of the frame -/

/-- The frame decoder behind the PDU: its record is `d`, and the trailer is looked for (R207, R209). -/
def afterPdu (s : State) (d : GoosePdu) : Codec (Option GoosePacket) :=
  decodePrp s.cfg s.buf s.work.pduEnd >>= fun prp => .ok (some ⟨s.work.eth, s.work.goose, d, prp⟩)

/-- The end of the PDU agrees with the test for a trailer, and the trailer's step with its decoder (R207, R208). -/
theorem agrees_finishPdu (he : s.work.entry = .frame) : Agrees s (finishPdu s) (afterPdu s s.work.pdu) := by
  rw [afterPdu]
  rcases finishPdu_cases s with ⟨hpdu, -⟩ | ⟨-, ⟨ht, e⟩ | ⟨ht, e⟩⟩
  · cases he.symm.trans hpdu
  · rw [e]
    refine EndsAs.agrees (Agrees.endsAs ?_ (step_at_trailer_eq rfl ht) he) ⟨rfl, rfl, rfl⟩
    exact .bind fun prp _ => .ended rfl
  · rw [e, decodePrp_absent ht]
    exact .ended rfl

/-- The end of AllData agrees with the comparison of the count (R180). -/
theorem agrees_finishSequence (he : s.work.entry = .frame) :
    Agrees s (finishSequence s)
      ((if s.work.pdu.numDatSetEntries.toNat ≠ s.work.items.length then raise .entryCountMismatch s.work.allDataPos
        else pure s.work.items) >>= fun xs => afterPdu s { s.work.pdu with allData := xs }) := by
  rw [finishSequence_of_inPdu (.inr he)]
  exact .check fun _ => (agrees_finishPdu (s := { s with
    work := { s.work with pdu := { s.work.pdu with allData := s.work.items } } }) he).of_sameBlock ⟨rfl, rfl, rfl⟩

/-! ### The PDU -/

/-- In the PDU that `s` decodes, `w` has come to the element `ctx` at `q`, and the record is `d`. -/
structure InPduAt (s : State) (ctx : TagContext) (q : Nat) (d : GoosePdu) (w : State) : Prop where
  sameBlock : SameBlock s w
  entry : w.work.entry = .frame
  phase : w.work.phase = .header ctx
  pos : w.work.pos = q
  pdu : w.work.pdu = d
  eth : w.work.eth = s.work.eth
  goose : w.work.goose = s.work.goose
  pduEnd : w.work.pduEnd = s.work.pduEnd

variable {w : State} {q : Nat} {d : GoosePdu} {f : PduField}

theorem InPduAt.afterPdu_eq (h : InPduAt s ctx q d w) : afterPdu w = afterPdu s := by
  obtain ⟨hcfg, hbuf, -⟩ := h.sameBlock
  funext d'
  rw [afterPdu, afterPdu, hcfg, hbuf, h.eth, h.goose, h.pduEnd]

/-- AllData agrees with its decoder (R179, R180). -/
theorem InPduAt.endsAs_allData (h : InPduAt s .allData q d w) :
    EndsAs w (decodeAllData s.cfg s.buf d.numDatSetEntries q >>= fun xs => afterPdu s { d with allData := xs }) := by
  rw [← h.afterPdu_eq]
  obtain ⟨⟨hcfg, hbuf, -⟩, he, hp, rfl, rfl, -⟩ := h
  rw [← hcfg, ← hbuf, decodeAllData, bind_assoc]
  refine endsAs_header he hp fun tag hdr len c hc hstep => Agrees.endsAs (.check fun _ => ?_) hstep he
  rw [bind_assoc]
  refine Agrees.of_sameBlock ⟨rfl, rfl, rfl⟩ ((element_sequence_agree _).2
    ((w.headed .allData tag hdr len).inAllData w.work.pos (w.work.pos + hdr) (w.work.pos + hdr + len) []) _ _ he rfl
    fun h q xs hq => ?_)
  rw [closeSequences_of_le rfl rfl hq]
  refine Agrees.of_sameBlock ?_ (agrees_finishSequence ?_)
  · exact ⟨rfl, rfl, rfl⟩
  · exact he

/-- A field's header and row agree with its reader (R174 to R177), if what follows the field does. -/
theorem InPduAt.endsAs_field {α : Type} {dec : Nat → List Byte → Codec α} {k : Nat × α → Codec (Option GoosePacket)}
    (hw : InPduAt s (.field f) q d w) (set : GoosePdu → α → GoosePdu)
    (hrow : ∀ tag c u, exec (fieldInstr tag c f) u =
      commit u (dec u.work.tagPos c >>= fun a => fieldDone f c.length (set u.work.pdu a) u))
    (h : ∀ q' a w', InPduAt s f.next q' (set d a) w' → EndsAs w' (k (q', a))) :
    EndsAs w (readField s.cfg s.buf dec q >>= k) := by
  obtain ⟨⟨hcfg, hbuf, hreq⟩, he, hp, rfl, rfl, heth, hgoose, hend⟩ := hw
  rw [← hcfg, ← hbuf, readField, bind_assoc]
  refine endsAs_header he hp fun tag hdr len c hc hstep => ?_
  refine Agrees.endsAs ?_ (hstep.trans (hrow tag c _)) he
  simp only [hc]
  change Agrees _ _ ((dec w.work.pos c >>= fun a => pure (w.work.pos + hdr + len, a)) >>= k)
  rw [bind_assoc, memRead_length hc]
  exact .bind fun a _ => (h _ a ((w.headed (.field f) tag hdr len).fielded f len (set w.work.pdu a))
    ⟨⟨hcfg, hbuf, hreq⟩, he, rfl, rfl, rfl, heth, hgoose, hend⟩).agrees ⟨rfl, rfl, rfl⟩

/-- The eleven fields and AllData, one after the other (R171). -/
theorem InPduAt.endsAs_body (h : InPduAt s (.field .gocbRef) q d w) :
    EndsAs w (decodePduBody s.cfg s.buf q >>= afterPdu s) := by
  rw [decodePduBody]
  simp only [bind_assoc, fieldString_eq, fieldU32_eq, fieldBool_eq, fieldTime_eq]
  refine h.endsAs_field (fun d a => { d with gocbRef := a }) (fun _ _ _ => rfl) fun _ _ _ h => ?_
  refine h.endsAs_field (fun d a => { d with timeAllowedToLive := a }) (fun _ _ _ => rfl) fun _ _ _ h => ?_
  refine h.endsAs_field (fun d a => { d with datSet := a }) (fun _ _ _ => rfl) fun _ _ _ h => ?_
  refine h.endsAs_field (fun d a => { d with goID := a }) (fun _ _ _ => rfl) fun _ _ _ h => ?_
  refine h.endsAs_field (fun d a => { d with t := a }) (fun _ _ _ => rfl) fun _ _ _ h => ?_
  refine h.endsAs_field (fun d a => { d with stNum := a }) (fun _ _ _ => rfl) fun _ _ _ h => ?_
  refine h.endsAs_field (fun d a => { d with sqNum := a }) (fun _ _ _ => rfl) fun _ _ _ h => ?_
  refine h.endsAs_field (fun d a => { d with simulation := a }) (fun _ _ _ => rfl) fun _ _ _ h => ?_
  refine h.endsAs_field (fun d a => { d with confRev := a }) (fun _ _ _ => rfl) fun _ _ _ h => ?_
  refine h.endsAs_field (fun d a => { d with ndsCom := a }) (fun _ _ _ => rfl) fun _ _ _ h => ?_
  refine h.endsAs_field (fun d a => { d with numDatSetEntries := a }) (fun _ _ _ => rfl) fun _ _ _ h => ?_
  exact h.endsAs_allData

/-- The state inside the PDU, at its first field (R171, R181). -/
def State.pduOpened (s : State) (n : Nat) : State :=
  { s with work := { s.work with pduEnd := s.work.pos + n, phase := .header (.field .gocbRef) } }

/-- The PDU's header and its tag (R171, R172). -/
theorem endsAs_packet (he : s.work.entry = .frame) (hp : s.work.phase = .header .pdu) :
    EndsAs s (decodePacket s.cfg s.buf s.work.eth s.work.goose s.work.pos) := by
  rw [decodePacket, decodePdu, bind_assoc]
  refine endsAs_header he hp fun tag hdr len c hc hstep => Agrees.endsAs (.check fun _ => ?_) hstep he
  rw [bind_assoc]
  have hbody : InPduAt ((s.headed .pdu tag hdr len).pduOpened len) (.field .gocbRef) (s.work.pos + hdr) s.work.pdu
      ((s.headed .pdu tag hdr len).pduOpened len) := ⟨.rfl', he, rfl, rfl, rfl, rfl, rfl, rfl⟩
  exact hbody.endsAs_body.agrees ⟨rfl, rfl, rfl⟩

/-! ### The frame -/

/-- An ethertype word that is no VLAN marker (R204, R205). -/
theorem State.AtWord.endsAs {first : Bool} {et : BitVec 16} (hat : s.AtWord first) (he : s.work.entry = .frame)
    (hw : memRead16 s.buf s.work.pos = .ok et) (hv : first = true → et ≠ s.cfg.ethertypeVlan) :
    EndsAs s (decodeTraffic s.cfg s.buf s.work.eth et (s.work.pos + 2)) := by
  refine Agrees.endsAs ?_ (hat.step_eq hw hv) he
  rw [decodeTraffic]
  split
  · exact .ended rfl
  · exact .bind fun g _ => (endsAs_packet (s := s.gooseRead g) he rfl).agrees ⟨rfl, rfl, rfl⟩

/-- A frame from its ethertype on, with the VLAN tag or without (R203). -/
theorem endsAs_vlan {a : Nat} {dst src : Octets 6} (he : s.work.entry = .frame) (hp : s.work.phase = .ethertype)
    (hpos : s.work.pos = a + 12) (hin : a + 14 ≤ s.buf.len) (heth : s.work.eth = ⟨dst, src, none⟩) :
    EndsAs s (decodeVlan s.cfg s.buf a >>= fun r => decodeTraffic s.cfg s.buf ⟨dst, src, r.1⟩ r.2.1 r.2.2) := by
  obtain ⟨hi, lo, hw, -⟩ := bytesFrom_word (m := s.buf) (pos := a + 12) (by omega)
  by_cases hv : word16 hi lo = s.cfg.ethertypeVlan
  · rw [hv] at hw
    refine Agrees.endsAs ?_ (step_at_vlan hp (hpos ▸ hw)) he
    by_cases h18 : a + 18 ≤ s.buf.len
    · obtain ⟨t1, t0, htci, -⟩ := bytesFrom_word (m := s.buf) (pos := a + 14) (by omega)
      obtain ⟨e1, e0, hinner, -⟩ := bytesFrom_word (m := s.buf) (pos := a + 16) (by omega)
      rw [decodeVlan_tagged hw htci hinner, if_neg (by omega), hpos, htci]
      have hat : (s.vlanRead (word16 t1 t0)).AtWord false := .inr ⟨rfl, rfl⟩
      have hpos' : (s.vlanRead (word16 t1 t0)).work.pos = a + 16 := by rw [State.vlanRead, hpos]
      have heth' : (s.vlanRead (word16 t1 t0)).work.eth = ⟨dst, src, some ((word16 t1 t0).extractLsb' 0 12)⟩ := by
        rw [State.vlanRead, heth]
      have hnext := hat.endsAs he (hpos' ▸ hinner) nofun
      rw [hpos', heth'] at hnext
      exact hnext.agrees ⟨rfl, rfl, rfl⟩
    · rw [decodeVlan_cut hw (by omega), if_pos (by omega), hpos]
      exact .error _
  · rw [decodeVlan_untagged hw hv]
    have hat : s.AtWord true := .inl ⟨rfl, hp⟩
    have hword := hat.endsAs he (hpos ▸ hw) fun _ => hv
    rw [hpos, heth] at hword
    exact hword

/-- A stepwise DECODE that is opened ends as the frame decoder answers (R200). -/
theorem openTransaction_frame_agrees (start : Nat) :
    Agrees s (openTransaction .frame start s) (decodeFrame s.cfg s.buf start) := by
  by_cases hlt : s.buf.len < start + 14
  · rw [openTransaction_frame_of_lt hlt, decodeFrame_of_lt hlt]
    exact .error _
  · have hd := memRead_of_le (m := s.buf) (a := start) (n := 6) (by omega)
    have hs := memRead_of_le (m := s.buf) (a := start + 6) (n := 6) (by omega)
    rw [openTransaction_frame_of_le (by omega) hd hs, decodeFrame_eq_traffic (by omega) hd hs]
    refine EndsAs.agrees (endsAs_vlan (a := start) rfl rfl rfl ?_ rfl) ⟨rfl, rfl, rfl⟩
    exact Nat.le_of_not_lt hlt

end

end Sys2Proof.Machine

open Sys2Proof Sys2Proof.Machine

/-- Settles O48: the atomic DECODE has an outcome, and every step of the stepwise one agrees with the frame decoder. -/
theorem stepwiseDecodeAgrees : Obligations.StepwiseDecodeAgrees := by
  intro s hand start rs hp hq
  obtain ⟨t, ht⟩ := exec_decode_answers (s := { s with requests := rs }) hp hand start
  obtain ⟨r, hr, rfl⟩ := execDecode_eq_next ht
  have hstep : step s = takeExposed .frame hand start { s with requests := rs } := by simp only [step, hp, hq]
  have hopen := openTransaction_frame_agrees (s := handOver hand { s with requests := rs }) start
  rw [handOver_cfg] at hopen
  have hreach : Reaches s (endTransaction r (handOver hand { s with requests := rs })) := by
    rcases hopen r hr with ⟨u, hu, hru⟩ | ⟨e, hu, rfl⟩
    · exact .of_step (by rw [hstep, takeExposed, hu, commit_ok]) hru
    · exact .of_step (by rw [hstep, takeExposed, hu, commit_raised]; rfl) (.refl _)
  obtain ⟨n, hn⟩ := hreach
  exact ⟨n, _, hn, ht⟩

end
